-- ==== Sys2Proof/Word.lean ====
section
/-! DEFINITION. The word types of SWRGB: every width the spec gives a value that software or the wire sees as bits
(spec/10_state.md rule R20, spec/30_encoding.md rules R80 to R82 and R89). -/

namespace Sys2Proof

/-- A byte of the DATA space (R60). -/
abbrev Byte := BitVec 8

/-- A command word (R80), and a word of the register read port (R41). -/
abbrev Word := BitVec 32

/-- A symbol word, the unit the encoder hands to the pulse generator (R89). -/
abbrev Symbol := BitVec 32

/-- A logical or physical LED index, and an LED count: `IDX_W` = 16 bits (R6, R26). -/
abbrev Idx := BitVec 16

/-- A DATA address, and a byte count: `ADDR_W` = 24 bits (R6, R60). -/
abbrev Addr := BitVec 24

end Sys2Proof
end

