-- ==== Sys2Proof/Config.lean ====
section
/-! DEFINITION. What is fixed when a block is built (the parameters of spec/00_scope.md rule R6 and the tick counts
rule R7 derives from them), and the FREE VALUES: constants with no body, for what the spec leaves open. -/

namespace Sys2Proof

/-- The parameters of R6, each with the value R6 assigns as its default. `MEM_BYTES` is `OPEN` and has none.
`IDX_W` and `ADDR_W` are the widths of `Idx` and `Addr`. -/
structure Params where
  /-- `TICK_HZ` -/
  tickHz : Nat := 10000000
  /-- `T0H_NS` -/
  t0hNs : Nat := 400
  /-- `T0L_NS` -/
  t0lNs : Nat := 900
  /-- `T1H_NS` -/
  t1hNs : Nat := 800
  /-- `T1L_NS` -/
  t1lNs : Nat := 500
  /-- `RESET_NS` -/
  resetNs : Nat := 80000
  /-- `SYM_CAP` -/
  symCap : Nat := 64
  /-- `MAX_STRIPS` -/
  maxStrips : Nat := 8
  /-- `MEM_BYTES` -/
  memBytes : Nat
  /-- `IDLE_LEVEL` -/
  idleLevel : Bool := false
  /-- `PHY_HANG` -/
  phyHang : Bool := false
  deriving DecidableEq, Repr

/-- R7: nanoseconds to ticks, rounded to nearest with ties upward, exact in integers. -/
def ticks (tickHz tNs : Nat) : Nat := (tNs * tickHz + 500000000) / 1000000000

/-- `T0H_TICKS` (R7) -/
def Params.t0h (p : Params) : Nat := ticks p.tickHz p.t0hNs
/-- `T0L_TICKS` (R7) -/
def Params.t0l (p : Params) : Nat := ticks p.tickHz p.t0lNs
/-- `T1H_TICKS` (R7) -/
def Params.t1h (p : Params) : Nat := ticks p.tickHz p.t1hNs
/-- `T1L_TICKS` (R7) -/
def Params.t1l (p : Params) : Nat := ticks p.tickHz p.t1lNs
/-- `RESET_TICKS` (R7) -/
def Params.resetTicks (p : Params) : Nat := ticks p.tickHz p.resetNs

/-- `MEM_BYTES - 1`: FREE, any value of 24 bits (R6 gives `MEM_BYTES` as `OPEN`, from 1 to 2^24). Log entry 2. -/
opaque Config.memBytesLess1 : Fin 16777216

/-- `MEM_BYTES` of the block that `State.reset` starts: free between 1 and 2^24 (R6, R8). Log entry 2. -/
def Config.memBytes : Nat := Config.memBytesLess1.val + 1

/-- FREE: the byte a DATA read returns when the host has written that byte during the transmission, one draw per
read (R70, R250). Log entry 5. -/
opaque Config.racedByte : Nat → Byte

/-- FREE: what a DATA byte that the host has never written holds, by address (the spec gives DATA no initial
contents, R61 and R243). Log entry 3. -/
opaque Config.unwrittenByte : Nat → Byte

/-- FREE: whether the line freezes at an edge of a transmission when `PHY_HANG` is true (R198). Log entry 7. -/
opaque Config.hangs : Nat → Bool

/-- FREE: the map's value, by index, on a topology with no LED: R125 defines the map only for `T_TOTAL > 0`. Log
entry 15. -/
opaque Config.mapUndefined : Nat → Idx

/-- FREE: the map's value where the walk of R125 ends without a strip, which R125 marks as not reached. Log entry 9. -/
opaque Config.mapNotReached : Nat → Idx

end Sys2Proof
end

