-- ==== Sys2Proof/Syntax.lean ====
section
/-! DEFINITION. The commands of SWRGB: one constructor per row of spec/opcode_table.json, with exactly the operands
that spec/30_encoding.md rules R81 and R82 give it. Every operand's type is its field's width, so no term of `Instr`
is ill-formed. -/

namespace Sys2Proof

/-- A command (R83). The operand names are the field names of R81. -/
inductive Instr where
  /-- `GLB.NOP` (R105) -/
  | glbNop
  /-- `GLB.CLRERR` (R106) -/
  | glbClrerr
  /-- `GLB.SETIE` (R107): `IED` is the new `IE_DONE`, `IEE` the new `IE_ERR` -/
  | glbSetie (ied iee : Bool)
  /-- `PENC.CREATE` (R154) -/
  | pencCreate
  /-- `PENC.DISPOSE` (R155) -/
  | pencDispose
  /-- `PENC.RESET` (R156) -/
  | pencReset
  /-- `PENC.SETBASE` (R157): a DATA address -/
  | pencSetbase (imm24 : Addr)
  /-- `PENC.SETLEN` (R158): a byte count -/
  | pencSetlen (imm24 : Addr)
  /-- `PENC.SUBMIT` (R159) -/
  | pencSubmit
  /-- `PENC.CLRDONE` (R160) -/
  | pencClrdone
  /-- `TMAP.CLEAR` (R121) -/
  | tmapClear
  /-- `TMAP.ADD` (R122): the strip's direction and its LED count -/
  | tmapAdd (rev : Bool) (len : Idx)
  /-- `TMAP.SEAL` (R123) -/
  | tmapSeal
  /-- `TMAP.LOOKUP` (R124): a logical LED index -/
  | tmapLookup (idx : Idx)
  deriving DecidableEq, Repr

end Sys2Proof
end

