-- ==== Sys2Proof/WellFormed.lean ====
section
/-! DEFINITION. What is checked before a machine exists. A command needs no check: the type of each operand of
`Instr` is its field (R81, R82), and a word with a reserved bit set is refused by the decoder. A parameter set needs
one: spec/00_scope.md rule R8 says which sets are legal and that a model refuses any other at elaboration time. -/

namespace Sys2Proof

/-- R8: the legal parameter sets. -/
abbrev Params.Legal (p : Params) : Prop :=
  (1 ≤ p.t0h ∧ p.t0h ≤ 32767) ∧ (1 ≤ p.t0l ∧ p.t0l ≤ 32767) ∧
  (1 ≤ p.t1h ∧ p.t1h ≤ 32767) ∧ (1 ≤ p.t1l ∧ p.t1l ≤ 32767) ∧
  (2 ≤ p.resetTicks ∧ p.resetTicks ≤ 65534) ∧
  p.t0h < p.t1h ∧
  (1 ≤ p.symCap ∧ p.symCap ≤ 1024) ∧ (1 ≤ p.maxStrips ∧ p.maxStrips ≤ 16) ∧
  (1 ≤ p.memBytes ∧ p.memBytes ≤ 2 ^ 24)

/-- A parameter set a block can be built with. An illegal set has no term of this type: that is R8's refusal at
elaboration time. -/
abbrev Build := { p : Params // p.Legal }

theorem Config.memBytes_range : 1 ≤ Config.memBytes ∧ Config.memBytes ≤ 2 ^ 24 := by
  have := Config.memBytesLess1.isLt
  unfold Config.memBytes
  omega

/-- R6's own values, with `MEM_BYTES` free. -/
def Config.build : Build :=
  ⟨{ memBytes := Config.memBytes },
    by decide, by decide, by decide, by decide, by decide, by decide, by decide, by decide, Config.memBytes_range⟩

end Sys2Proof
end

