-- ==== Sys2Proof/Decode.lean ====
section
/-! DEFINITION. Command words: spec/30_encoding.md rules R80 to R86. One fixed 32-bit format; the decoder is the
search of R84 through the table of R83, total on any word, refusing by name. -/

namespace Sys2Proof

/-- A row of the opcode map (R83): the word's fixed bits and the command it selects, built from the operand fields. -/
structure OpcodeRow where
  mnemonic : String
  pattern : Word
  mask : Word
  build : Word → Instr

/-- Why a word is `ILLEGAL` (R85). -/
inductive Illegal where
  /-- its `OPC` is not in the table of R83 -/
  | unassignedOpcode
  /-- its `OPC` is assigned and a reserved operand bit of R81 is 1 -/
  | reservedOperandBit
  deriving DecidableEq, Repr

/-- `OPC = cmd[31:24]` (R81). -/
def opcField (w : Word) : BitVec 8 := w.extractLsb' 24 8
/-- `IMM24 = cmd[23:0]` (R82). -/
def imm24Field (w : Word) : Addr := w.extractLsb' 0 24
/-- `LEN = cmd[15:0]` (R82). -/
def lenField (w : Word) : Idx := w.extractLsb' 0 16
/-- `REV = cmd[16]` (R82). -/
def revField (w : Word) : Bool := w.getLsbD 16
/-- `IDX = cmd[15:0]` (R82). -/
def idxField (w : Word) : Idx := w.extractLsb' 0 16
/-- `IED = cmd[0]` (R82). -/
def iedField (w : Word) : Bool := w.getLsbD 0
/-- `IEE = cmd[1]` (R82). -/
def ieeField (w : Word) : Bool := w.getLsbD 1

/-- The opcode map, row for row in the order of R83. -/
def opcodeMap : List OpcodeRow :=
  [ ⟨"GLB.NOP",      0x00000000, 0xFFFFFFFF, fun _ => .glbNop⟩,
    ⟨"GLB.CLRERR",   0x01000000, 0xFFFFFFFF, fun _ => .glbClrerr⟩,
    ⟨"GLB.SETIE",    0x02000000, 0xFFFFFFFC, fun w => .glbSetie (iedField w) (ieeField w)⟩,
    ⟨"PENC.CREATE",  0x10000000, 0xFFFFFFFF, fun _ => .pencCreate⟩,
    ⟨"PENC.DISPOSE", 0x11000000, 0xFFFFFFFF, fun _ => .pencDispose⟩,
    ⟨"PENC.RESET",   0x12000000, 0xFFFFFFFF, fun _ => .pencReset⟩,
    ⟨"PENC.SETBASE", 0x13000000, 0xFF000000, fun w => .pencSetbase (imm24Field w)⟩,
    ⟨"PENC.SETLEN",  0x14000000, 0xFF000000, fun w => .pencSetlen (imm24Field w)⟩,
    ⟨"PENC.SUBMIT",  0x15000000, 0xFFFFFFFF, fun _ => .pencSubmit⟩,
    ⟨"PENC.CLRDONE", 0x16000000, 0xFFFFFFFF, fun _ => .pencClrdone⟩,
    ⟨"TMAP.CLEAR",   0x20000000, 0xFFFFFFFF, fun _ => .tmapClear⟩,
    ⟨"TMAP.ADD",     0x21000000, 0xFFFE0000, fun w => .tmapAdd (revField w) (lenField w)⟩,
    ⟨"TMAP.SEAL",    0x22000000, 0xFFFFFFFF, fun _ => .tmapSeal⟩,
    ⟨"TMAP.LOOKUP",  0x23000000, 0xFFFF0000, fun w => .tmapLookup (idxField w)⟩ ]

/-- R84: does the word fit the row? -/
def rowFits (w : Word) (r : OpcodeRow) : Bool := w &&& r.mask == r.pattern

/-- R84's search: the first row that fits gives the command. -/
def decodeRows (w : Word) : List OpcodeRow → Option Instr
  | [] => none
  | r :: rest => if rowFits w r then some (r.build w) else decodeRows w rest

/-- R85: the opcodes of the table. -/
def opcAssigned (opc : BitVec 8) : Bool := opcodeMap.any fun r => opcField r.pattern == opc

/-- `Decode` of R84, with the reason R85 gives for an `ILLEGAL` word. -/
def decode (w : Word) : Except Illegal Instr :=
  match decodeRows w opcodeMap with
  | some i => .ok i
  | none => .error (if opcAssigned (opcField w) then .reservedOperandBit else .unassignedOpcode)

/-- The word of a command: `OPC` in bits 31:24, the operands where R81 puts them, every reserved bit 0 (R87's
"word" column). -/
def encode : Instr → Word
  | .glbNop => 0x00#8 ++ 0#24
  | .glbClrerr => 0x01#8 ++ 0#24
  | .glbSetie ied iee => 0x02#8 ++ 0#22 ++ BitVec.ofBool iee ++ BitVec.ofBool ied
  | .pencCreate => 0x10#8 ++ 0#24
  | .pencDispose => 0x11#8 ++ 0#24
  | .pencReset => 0x12#8 ++ 0#24
  | .pencSetbase imm24 => 0x13#8 ++ imm24
  | .pencSetlen imm24 => 0x14#8 ++ imm24
  | .pencSubmit => 0x15#8 ++ 0#24
  | .pencClrdone => 0x16#8 ++ 0#24
  | .tmapClear => 0x20#8 ++ 0#24
  | .tmapAdd rev len => 0x21#8 ++ 0#7 ++ BitVec.ofBool rev ++ len
  | .tmapSeal => 0x22#8 ++ 0#24
  | .tmapLookup idx => 0x23#8 ++ 0#8 ++ idx

/-- The mnemonic of a command, as spec/opcode_table.json spells it (R83). -/
def mnemonicOf : Instr → String
  | .glbNop => "GLB.NOP"
  | .glbClrerr => "GLB.CLRERR"
  | .glbSetie _ _ => "GLB.SETIE"
  | .pencCreate => "PENC.CREATE"
  | .pencDispose => "PENC.DISPOSE"
  | .pencReset => "PENC.RESET"
  | .pencSetbase _ => "PENC.SETBASE"
  | .pencSetlen _ => "PENC.SETLEN"
  | .pencSubmit => "PENC.SUBMIT"
  | .pencClrdone => "PENC.CLRDONE"
  | .tmapClear => "TMAP.CLEAR"
  | .tmapAdd _ _ => "TMAP.ADD"
  | .tmapSeal => "TMAP.SEAL"
  | .tmapLookup _ => "TMAP.LOOKUP"

/-- The command in the low `nbits` bits of `w`, numbered as spec/opcode_table.json numbers them: a command is one
32-bit word (R80), so bit `b` of `w` is bit `b` of the command word, and every bit from `nbits` up is 0. -/
def decodeTableWord (nbits w : Nat) : Option Instr :=
  match decode (BitVec.ofNat 32 (w % 2 ^ nbits)) with
  | .ok i => some i
  | .error _ => none

end Sys2Proof
end

