-- ==== Sys2Proof/Machine/State.lean ====
section
/-! DEFINITION. The state of SWRGB: every variable of spec/10_state.md rule R20 under its own name, the host's DATA
space, what the outside world presents at coming edges, and the model's own bookkeeping for open values. All of it is
plain data. Reset values are R20's (R51). -/

namespace Sys2Proof.Machine

/-- The error kinds and their codes, in the source's order (R210). -/
inductive ErrCode where
  /-- code 1: reserved, raised by nothing (R214) -/
  | notFound
  /-- code 2: an `ILLEGAL` command word (R85) -/
  | formatInvalid
  /-- code 3: `TMAP.ADD` on a full strip table (R122) -/
  | resourceExhausted
  /-- code 4: `TMAP.ADD` past 65535 LEDs, `PENC.SUBMIT` outside DATA (R122, R159) -/
  | invalidArgument
  /-- code 5: a command in the wrong lifecycle state or while busy (R215) -/
  | invalidState
  /-- code 6: the line stage on an underrun (R196) -/
  | ioFailure
  deriving DecidableEq, Repr

/-- `P_LC` (R30): `ABSENT` is 0, `READY` is 1. -/
inductive Lifecycle where
  | absent
  | ready
  deriving DecidableEq, Repr

/-- `P_ST` (R31): `SEND_DATA` is 0, `SEND_RESET` is 1. -/
inductive EncState where
  | sendData
  | sendReset
  deriving DecidableEq, Repr

/-- One entry of the strip table (R26). -/
structure Strip where
  len : Idx
  rev : Bool
  deriving DecidableEq, Repr

/-- The DATA bytes the host has written, by address: addresses strictly rising, so equal contents are equal lists.
An address that is not listed holds no written byte. -/
abbrev Memory := List Host.Cell

/-- A host write to the DATA space, `MemWrite` of R11. -/
structure HostWrite where
  addr : Addr
  byte : Byte
  deriving DecidableEq, Repr

/-- What the outside world does for one edge (R40, R108): the levels of `rst`, `cmd_valid` and `cmd_data` that the
edge samples, and the host's DATA writes, those that take effect before the edge and those that take effect at it
(R70 tells the two apart). `rd_addr` and `map_in` are read combinationally and change no state (R40, R41): they are
arguments of the output functions in Machine/Ports.lean. -/
structure EdgeInput where
  rst : Bool := false
  cmdValid : Bool := false
  cmdData : Word := 0
  writesBefore : List HostWrite := []
  writesAt : List HostWrite := []
  deriving DecidableEq, Repr

/-- The state. The first 27 fields are the rows of R20 in R20's order. -/
structure State where
  /-- `ERR` -/
  err : BitVec 4
  /-- `IE_DONE` -/
  ieDone : Bool
  /-- `IE_ERR` -/
  ieErr : Bool
  /-- `T_NSTRIPS` -/
  tNStrips : BitVec 5
  /-- `T_STRIP[0 .. MAX_STRIPS-1]` -/
  tStrip : List Strip
  /-- `T_TOTAL` -/
  tTotal : Idx
  /-- `T_SEALED` -/
  tSealed : Bool
  /-- `T_RESULT` -/
  tResult : Idx
  /-- `P_LC` -/
  pLc : Lifecycle
  /-- `P_ST` -/
  pSt : EncState
  /-- `P_BYTE_IDX` -/
  pByteIdx : Addr
  /-- `P_BIT_IDX` -/
  pBitIdx : BitVec 3
  /-- `P_RST_SENT` -/
  pRstSent : BitVec 1
  /-- `P_BASE` -/
  pBase : Addr
  /-- `P_LEN` -/
  pLen : Addr
  /-- `P_BUSY` -/
  pBusy : Bool
  /-- `P_DONE` -/
  pDone : Bool
  /-- `P_XDONE` -/
  pXDone : Bool
  /-- `P_LAST_COMPLETE` -/
  pLastComplete : Bool
  /-- `P_LAST_MEMFULL` -/
  pLastMemFull : Bool
  /-- `P_SYMCNT` -/
  pSymCnt : BitVec 32
  /-- `F_Q`, its head first -/
  fQ : List Symbol
  /-- `G_LOADED` -/
  gLoaded : Bool
  /-- `G_SYM` -/
  gSym : Symbol
  /-- `G_HALF`: false is half 0 -/
  gHalf : Bool
  /-- `G_REM` -/
  gRem : BitVec 15
  /-- `G_DOUT`, the level on `dout` -/
  gDout : Bool
  /-- The parameters the block was built with (R6); nothing writes them (R9, R257). -/
  build : Build
  /-- The DATA space (R60, R61); only the host writes it. -/
  mem : Memory
  /-- The DATA reads of the last edge, in order: the values driven on `mem_addr` with `mem_rd` = 1 (R40, R62). -/
  memReads : List Addr
  /-- What the outside world presents at the coming edges, the next edge first; where the list ends it presents
  nothing. -/
  inbox : List EdgeInput
  /-- The model's own: the DATA addresses the host has written in the range of the transmission in flight (R70). -/
  raced : List Nat
  /-- The model's own: the line has frozen; only under `PHY_HANG` (R198). -/
  hung : Bool
  /-- The model's own: how many free values have been drawn. -/
  draws : Nat
  deriving DecidableEq, Repr

/-- The parameters of the block. -/
abbrev State.params (s : State) : Params := s.build.val

/-- Why a step stops. -/
inductive Fault where
  /-- Raised by the engine stage when a `MemRead` would leave the DATA space. R62 says no read does: it can happen
  only in a state no run reaches (one with `P_BUSY` = 1 and `P_BASE + P_LEN > MEM_BYTES`). Safe. -/
  | dataReadOutsideSpace
  deriving DecidableEq, Repr

/-- Why the model gives an instruction no meaning. -/
inductive Refusal where
  /-- Raised by `exec` alone, for an instruction that has no meaning yet. No arm of this model uses it. Safe. -/
  | notModelled (mnemonic : String)
  deriving DecidableEq, Repr

/-- R51: every variable at R20's reset value, around what reset leaves alone: the parameters, DATA (R243), the
input still to come and the count of free values drawn. -/
def State.resetWith (build : Build) (mem : Memory) (inbox : List EdgeInput) (draws : Nat) : State where
  err := 0
  ieDone := false
  ieErr := false
  tNStrips := 0
  tStrip := List.replicate build.val.maxStrips ⟨0, false⟩
  tTotal := 0
  tSealed := false
  tResult := 0
  pLc := .absent
  pSt := .sendData
  pByteIdx := 0
  pBitIdx := 0
  pRstSent := 0
  pBase := 0
  pLen := 0
  pBusy := false
  pDone := false
  pXDone := false
  pLastComplete := false
  pLastMemFull := false
  pSymCnt := 0
  fQ := []
  gLoaded := false
  gSym := 0
  gHalf := false
  gRem := 0
  gDout := build.val.idleLevel
  build := build
  mem := mem
  memReads := []
  inbox := inbox
  raced := []
  hung := false
  draws := draws

/-- `S_reset` (R241, R242) of a block with R6's parameters, before any input: DATA holds no written byte. -/
def State.reset : State := State.resetWith Config.build [] [] 0

end Sys2Proof.Machine
end

