-- ==== Sys2Proof/Machine/Ops.lean ====
section
/-! DEFINITION. The named operations over the state: recording an error and acknowledging it (spec/60_exceptions.md
rules R210 to R212, R224), the DATA space and the host's writes to it (spec/20_memory.md rules R61, R62, R70), the
strip table, and the encoder's initial state (spec/42_protocol_encoder.md rule R164). -/

namespace Sys2Proof.Machine

/-- What follows a stage that answered a next state. -/
def andThen (o : Host.Outcome State Fault Refusal) (f : State → Host.Outcome State Fault Refusal) :
    Host.Outcome State Fault Refusal :=
  match o with
  | .next s => f s
  | .fault r => .fault r
  | .refused r => .refused r

/-! ### Errors: the block's whole exception mechanism (R223: no traps) -/

/-- The number of an error kind (R210). -/
def errNumber : ErrCode → BitVec 4
  | .notFound => 1
  | .formatInvalid => 2
  | .resourceExhausted => 3
  | .invalidArgument => 4
  | .invalidState => 5
  | .ioFailure => 6

/-- `raise Err(code)`: `ERR <- code`, and nothing else (R212, R223). -/
def raiseErr (e : ErrCode) (s : State) : State := { s with err := errNumber e }

/-- A command that fails: it records its error and stops with none of its other writes (R103, R212). -/
def failWith (e : ErrCode) (s : State) : Host.Outcome State Fault Refusal := .next (raiseErr e s)

/-- The acknowledgement, the only "return" there is (R224): `ERR <- 0` (R106). -/
def clearErr (s : State) : State := { s with err := 0 }

/-! ### The DATA space -/

/-- The byte the host last wrote at an address, if it ever wrote one. -/
def Memory.read : Memory → Nat → Option Byte
  | [], _ => none
  | (b, v) :: m, a => if a = b then some v else Memory.read m a

/-- A write, keeping the addresses strictly rising. -/
def Memory.write : Memory → Nat → Byte → Memory
  | [], a, v => [(a, v)]
  | (b, u) :: m, a, v =>
    if a < b then (a, v) :: (b, u) :: m
    else if a = b then (a, v) :: m
    else (b, u) :: Memory.write m a v

/-- The canonical form: addresses strictly rising. An unlisted address holds no written byte, so no entry can equal
what an unlisted address holds. -/
abbrev Memory.wf (m : Memory) : Prop := m.Pairwise fun x y => x.1 < y.1

/-- The byte DATA holds at an address: the last one written, or a free byte where none was (R61, R66). -/
def dataByte (s : State) (a : Nat) : Byte := (Memory.read s.mem a).getD (Config.unwrittenByte a)

/-- Is the address in `[P_BASE, P_BASE + P_LEN)`, the range of the transmission? -/
def inRange (s : State) (a : Nat) : Bool := decide (s.pBase.toNat ≤ a ∧ a < s.pBase.toNat + s.pLen.toNat)

/-- A host write (R11, R61). Inside the range while `P_BUSY` = 1 it is a race (R70), which is remembered for the rest
of the transmission. A write outside the `MEM_BYTES` bytes of DATA writes nothing (log entry 4). -/
def hostWrite (s : State) (w : HostWrite) : State :=
  if w.addr.toNat < s.params.memBytes then
    { s with
      mem := Memory.write s.mem w.addr.toNat w.byte
      raced := if s.pBusy && inRange s w.addr.toNat && !s.raced.contains w.addr.toNat
        then w.addr.toNat :: s.raced else s.raced }
  else s

/-- Host writes, in order. -/
def hostWrites (ws : List HostWrite) (s : State) : State := ws.foldl hostWrite s

/-- What the engine's DATA reads have done so far at an edge: the free values drawn and the addresses driven. -/
structure ReadLog where
  draws : Nat
  reads : List Addr
  deriving DecidableEq, Repr

/-- `MemRead(addr, 1)` (R62): the byte DATA holds, or a fresh free byte where the host has raced (R70). It has no
effect but its own appearance on the memory port (R66). `none`: the address lies outside DATA. -/
def memRead (s : State) (addr : Nat) (g : ReadLog) : Option (Byte × ReadLog) :=
  if addr < s.params.memBytes then
    if s.raced.contains addr then
      some (Config.racedByte g.draws, { draws := g.draws + 1, reads := g.reads ++ [BitVec.ofNat 24 addr] })
    else
      some (dataByte s addr, { g with reads := g.reads ++ [BitVec.ofNat 24 addr] })
  else none

/-! ### The strip table -/

/-- `TMAP.CLEAR`'s writes (R121). -/
def clearTopology (s : State) : State :=
  { s with tNStrips := 0, tTotal := 0, tStrip := List.replicate s.params.maxStrips ⟨0, false⟩ }

/-- `TMAP.ADD`'s writes (R122): the strip goes after the existing ones. -/
def appendStrip (st : Strip) (s : State) : State :=
  { s with
    tStrip := s.tStrip.set s.tNStrips.toNat st
    tNStrips := s.tNStrips + 1
    tTotal := s.tTotal + st.len }

/-! ### The encoder's initial state -/

/-- Both sub-encoders and the top level to their initial states (R164). -/
def initEncoder (s : State) : State :=
  { s with pSt := .sendData, pByteIdx := 0, pBitIdx := 0, pRstSent := 0 }

/-- Is the encoder in its initial state (R164)? -/
def encoderInitial (s : State) : Bool :=
  decide (s.pSt = .sendData ∧ s.pByteIdx = 0 ∧ s.pBitIdx = 0 ∧ s.pRstSent = 0)

/-- `PENC.SUBMIT`'s writes (R159). -/
def startTransmission (s : State) : State :=
  { s with
    pBusy := true, pDone := false, pXDone := false
    pLastComplete := false, pLastMemFull := false, pSymCnt := 0 }

/-- The checks that `PENC.RESET`, `PENC.SETBASE`, `PENC.SETLEN` and `PENC.SUBMIT` share (R215): first the lifecycle,
then `P_BUSY`. -/
def whenReadyIdle (k : State → Host.Outcome State Fault Refusal) (s : State) : Host.Outcome State Fault Refusal :=
  if s.pLc ≠ .ready then failWith .invalidState s
  else if s.pBusy then failWith .invalidState s
  else k s

end Sys2Proof.Machine
end

