-- ==== Sys2Proof/Machine/Operands.lean ====
section
/-! DEFINITION. How operands enter a computation. The operand fields themselves are unsigned and taken as they are
(spec/30_encoding.md rule R82, `imm24Field` and the rest in Decode.lean); here are the widened sums the range checks
compute (spec/41_topology_mapper.md rule R122, spec/42_protocol_encoder.md rules R159 and R173), the halves of a
symbol word (spec/30_encoding.md rule R89) and the encoder's bit position (spec/10_state.md rule R32). -/

namespace Sys2Proof.Machine

/-- `T_TOTAL + LEN`, computed in 17 bits (R122). -/
def sum17 (total len : Idx) : BitVec 17 := total.setWidth 17 + len.setWidth 17

/-- `P_BASE + P_LEN`, computed in 25 bits (R159, R173). -/
def sum25 (base len : Addr) : BitVec 25 := base.setWidth 25 + len.setWidth 25

/-- A symbol word from its two halves (R89). -/
def mkSymbol (level0 : Bool) (duration0 : Nat) (level1 : Bool) (duration1 : Nat) : Symbol :=
  BitVec.ofBool level1 ++ BitVec.ofNat 15 duration1 ++ BitVec.ofBool level0 ++ BitVec.ofNat 15 duration0

/-- `level0` (R89). -/
def symLevel0 (x : Symbol) : Bool := x.getLsbD 15
/-- `duration0` (R89). -/
def symDuration0 (x : Symbol) : BitVec 15 := x.extractLsb' 0 15
/-- `level1` (R89). -/
def symLevel1 (x : Symbol) : Bool := x.getLsbD 31
/-- `duration1` (R89). -/
def symDuration1 (x : Symbol) : BitVec 15 := x.extractLsb' 16 15

/-- `BIT0_SYM` (R153). -/
def bit0Sym (p : Params) : Symbol := mkSymbol true p.t0h false p.t0l
/-- `BIT1_SYM` (R153). -/
def bit1Sym (p : Params) : Symbol := mkSymbol true p.t1h false p.t1l
/-- `RESET_SYM` (R153): low for `RESET_TICKS div 2` ticks, then low for the rest. -/
def resetSym (p : Params) : Symbol :=
  mkSymbol false (p.resetTicks / 2) false (p.resetTicks - p.resetTicks / 2)

/-- The symbol of source bit `q`, which is bit `7 - (q mod 8)` of its byte (R32, R162). -/
def bitSym (p : Params) (byte : Byte) (q : Nat) : Symbol :=
  if byte.getLsbD (7 - q % 8) then bit1Sym p else bit0Sym p

/-- `pos = 8 * P_BYTE_IDX + P_BIT_IDX` (R32). -/
def bitPos (s : State) : Nat := 8 * s.pByteIdx.toNat + s.pBitIdx.toNat

end Sys2Proof.Machine
end

