-- ==== Sys2Proof/Machine/Flags.lean ====
section
/-! DEFINITION. The flags: the two a sub-encoder step reports (spec/42_protocol_encoder.md rule R161) and the
interrupt line (spec/60_exceptions.md rule R220). -/

namespace Sys2Proof.Machine

/-- `COMPLETE = (H >= W)` (R161). -/
def completeFlag (w h : Nat) : Bool := decide (w ≤ h)

/-- `MEM_FULL = (H <= W)` (R161). -/
def memFullFlag (w h : Nat) : Bool := decide (h ≤ w)

/-- `irq` (R220). -/
def irq (s : State) : Bool := (s.ieDone && s.pDone) || (s.ieErr && decide (s.err ≠ 0))

end Sys2Proof.Machine
end

