-- ==== Sys2Proof/Machine/Global.lean ====
section
/-! DEFINITION. The global commands of the CMD unit: spec/40_command_port.md rules R105 to R107. -/

namespace Sys2Proof.Machine

/-- `GLB.NOP` does nothing (R105). -/
def execGlbNop (s : State) : Host.Outcome State Fault Refusal := .next s

/-- `GLB.CLRERR` clears the error code (R106). -/
def execGlbClrerr (s : State) : Host.Outcome State Fault Refusal := .next (clearErr s)

/-- `GLB.SETIE` writes both interrupt enables (R107). -/
def execGlbSetie (ied iee : Bool) (s : State) : Host.Outcome State Fault Refusal :=
  .next { s with ieDone := ied, ieErr := iee }

end Sys2Proof.Machine
end

