-- ==== Sys2Proof/Machine/Penc.lean ====
section
/-! DEFINITION. The protocol encoder's commands: spec/42_protocol_encoder.md rules R154 to R160. -/

namespace Sys2Proof.Machine

/-- `PENC.CREATE` (R154): no effect on an encoder that exists. -/
def execPencCreate (s : State) : Host.Outcome State Fault Refusal :=
  if s.pLc = .ready then .next s
  else .next (initEncoder { s with pLc := .ready })

/-- `PENC.DISPOSE` (R155): no effect on an encoder that does not exist; refused while a transmission is in flight. -/
def execPencDispose (s : State) : Host.Outcome State Fault Refusal :=
  if s.pLc = .absent then .next s
  else if s.pBusy then failWith .invalidState s
  else .next (initEncoder { s with pLc := .absent })

/-- `PENC.RESET`, the source's "Reset on demand" (R156). -/
def execPencReset (s : State) : Host.Outcome State Fault Refusal :=
  whenReadyIdle (fun s => .next (initEncoder s)) s

/-- `PENC.SETBASE` (R157). -/
def execPencSetbase (imm24 : Addr) (s : State) : Host.Outcome State Fault Refusal :=
  whenReadyIdle (fun s => .next { s with pBase := imm24 }) s

/-- `PENC.SETLEN` (R158). -/
def execPencSetlen (imm24 : Addr) (s : State) : Host.Outcome State Fault Refusal :=
  whenReadyIdle (fun s => .next { s with pLen := imm24 }) s

/-- `PENC.SUBMIT` (R159): after the shared checks, the encoder must be in its initial state and the buffer must lie in
DATA. -/
def execPencSubmit (s : State) : Host.Outcome State Fault Refusal :=
  whenReadyIdle
    (fun s =>
      if !encoderInitial s then failWith .invalidState s
      else if s.params.memBytes < (sum25 s.pBase s.pLen).toNat then failWith .invalidArgument s
      else .next (startTransmission s))
    s

/-- `PENC.CLRDONE` (R160). -/
def execPencClrdone (s : State) : Host.Outcome State Fault Refusal := .next { s with pDone := false }

end Sys2Proof.Machine
end

