-- ==== Sys2Proof/Machine/Tmap.lean ====
section
/-! DEFINITION. The topology mapper: its commands (spec/41_topology_mapper.md rules R121 to R124) and its map (R125). -/

namespace Sys2Proof.Machine

/-- The walk of R125 over the strips from `base` on, for an index `l` that has not been passed. The last line is the
"not reached" of R125: what it answers is free (log entry 9). -/
def mapWalk (l base : Nat) : List Strip → Idx
  | [] => Config.mapNotReached l
  | st :: rest =>
    if l < base + st.len.toNat then
      if st.rev then BitVec.ofNat 16 (base + (st.len.toNat - 1 - (l - base)))
      else BitVec.ofNat 16 (base + (l - base))
    else mapWalk l (base + st.len.toNat) rest

/-- `MapFn(l)` of the current topology (R125), with the clamp of R127. R125 defines it only for `T_TOTAL > 0`; that it
has a value at `T_TOTAL = 0` too, a free one, is the model's choice (DESIGN CHOICE, log entry 15): no command and no
port reads it there (R124, R131). -/
def mapFn (s : State) (l : Idx) : Idx :=
  if s.tTotal = 0 then Config.mapUndefined l.toNat
  else if s.tTotal ≤ l then s.tTotal - 1
  else mapWalk l.toNat 0 (s.tStrip.take s.tNStrips.toNat)

/-- `TMAP.CLEAR` (R121). -/
def execTmapClear (s : State) : Host.Outcome State Fault Refusal :=
  if s.tSealed then failWith .invalidState s
  else .next (clearTopology s)

/-- `TMAP.ADD` (R122). -/
def execTmapAdd (rev : Bool) (len : Idx) (s : State) : Host.Outcome State Fault Refusal :=
  if s.tSealed then failWith .invalidState s
  else if s.tNStrips.toNat = s.params.maxStrips then failWith .resourceExhausted s
  else if 65535#17 < sum17 s.tTotal len then failWith .invalidArgument s
  else .next (appendStrip ⟨len, rev⟩ s)

/-- `TMAP.SEAL` (R123). -/
def execTmapSeal (s : State) : Host.Outcome State Fault Refusal := .next { s with tSealed := true }

/-- `TMAP.LOOKUP` (R124). -/
def execTmapLookup (idx : Idx) (s : State) : Host.Outcome State Fault Refusal :=
  if s.tSealed = false then failWith .invalidState s
  else if s.tTotal = 0 then failWith .invalidState s
  else .next { s with tResult := mapFn s idx }

end Sys2Proof.Machine
end

