-- ==== Sys2Proof/Machine/Dispatch.lean ====
section
/-! DEFINITION. The command stage's dispatch (spec/40_command_port.md rule R101): one arm per command. -/

namespace Sys2Proof.Machine

/-- A decoded command's own effect, the command stage's "execute k by its rule" (R101). -/
def exec (i : Instr) (s : State) : Host.Outcome State Fault Refusal :=
  match i with
  | .glbNop => Sys2Proof.Machine.execGlbNop s
  | .glbClrerr => Sys2Proof.Machine.execGlbClrerr s
  | .glbSetie ied iee => Sys2Proof.Machine.execGlbSetie ied iee s
  | .pencCreate => Sys2Proof.Machine.execPencCreate s
  | .pencDispose => Sys2Proof.Machine.execPencDispose s
  | .pencReset => Sys2Proof.Machine.execPencReset s
  | .pencSetbase imm24 => Sys2Proof.Machine.execPencSetbase imm24 s
  | .pencSetlen imm24 => Sys2Proof.Machine.execPencSetlen imm24 s
  | .pencSubmit => Sys2Proof.Machine.execPencSubmit s
  | .pencClrdone => Sys2Proof.Machine.execPencClrdone s
  | .tmapClear => Sys2Proof.Machine.execTmapClear s
  | .tmapAdd rev len => Sys2Proof.Machine.execTmapAdd rev len s
  | .tmapSeal => Sys2Proof.Machine.execTmapSeal s
  | .tmapLookup idx => Sys2Proof.Machine.execTmapLookup idx s

end Sys2Proof.Machine
end

