-- ==== Sys2Proof/Machine/Encoder.lean ====
section
/-! DEFINITION. The protocol encoder at work: the two sub-encoders (spec/42_protocol_encoder.md rules R161 to R163),
the encode function (R165) and the engine stage (R171), the second stage of every edge. -/

namespace Sys2Proof.Machine

/-- What a sub-encoder step or an encode invocation gives: the symbols it wrote, `COMPLETE` and `MEM_FULL`, and the
state after it. -/
structure Encoded where
  out : List Symbol
  complete : Bool
  memFull : Bool
  state : State
  deriving DecidableEq, Repr

/-- R162's loop from bit `q` on, for the number of bits given first. `fresh` says that this is the step's first bit:
a byte is read then, and at every byte boundary. `none`: a read would leave DATA. -/
def bitsLoop (s : State) : Nat → Bool → Nat → Byte → ReadLog → Option (List Symbol × ReadLog)
  | 0, _, _, _, g => some ([], g)
  | n + 1, fresh, q, byte, g =>
    match (if fresh || q % 8 == 0 then memRead s (s.pBase.toNat + q / 8) g else some (byte, g)) with
    | none => none
    | some (byte, g) =>
      match bitsLoop s n false (q + 1) byte g with
      | none => none
      | some (out, g) => some (bitSym s.params byte q :: out, g)

/-- One step of the bytes sub-encoder with `h` free slots (R162). -/
def bytesStep (h : Nat) (s : State) : Option Encoded :=
  let pos := bitPos s
  let w := 8 * s.pLen.toNat - pos
  let n := min w h
  match bitsLoop s n true pos 0 { draws := s.draws, reads := s.memReads } with
  | none => none
  | some (out, g) =>
    some
      { out := out
        complete := completeFlag w h
        memFull := memFullFlag w h
        state :=
          { s with
            draws := g.draws
            memReads := g.reads
            pByteIdx := if completeFlag w h then 0 else BitVec.ofNat 24 ((pos + n) / 8)
            pBitIdx := if completeFlag w h then 0 else BitVec.ofNat 3 ((pos + n) % 8) } }

/-- One step of the copy sub-encoder with `h` free slots (R163). -/
def copyStep (h : Nat) (s : State) : Encoded :=
  let w := 1 - s.pRstSent.toNat
  let n := min w h
  { out := if n = 1 then [resetSym s.params] else []
    complete := completeFlag w h
    memFull := memFullFlag w h
    state := { s with pRstSent := if completeFlag w h then 0 else s.pRstSent + BitVec.ofNat 1 n } }

/-- The `SEND_RESET` part of an encode invocation, after `out` has been written (R165). -/
def encodeReset (out : List Symbol) (h : Nat) (s : State) : Encoded :=
  let c := copyStep h s
  { out := out ++ c.out
    complete := c.complete
    memFull := c.memFull
    state := if c.complete then { c.state with pSt := .sendData } else c.state }

/-- `Encode(H)` (R165), falling through to the reset symbol where there is room (R166). -/
def invokeEncode (h : Nat) (s : State) : Option Encoded :=
  match s.pSt with
  | .sendReset => some (encodeReset [] h s)
  | .sendData =>
    match bytesStep h s with
    | none => none
    | some b =>
      let s' := if b.complete then { b.state with pSt := .sendReset } else b.state
      if b.memFull then some { out := b.out, complete := false, memFull := true, state := s' }
      else some (encodeReset b.out (h - b.out.length) s')

/-- What the engine stage does with an invocation's result (R171). -/
def acceptEncoded (r : Encoded) : State :=
  { r.state with
    fQ := r.state.fQ ++ r.out
    pSymCnt := r.state.pSymCnt + BitVec.ofNat 32 r.out.length
    pLastComplete := r.complete
    pLastMemFull := r.memFull
    pXDone := if r.complete then true else r.state.pXDone }

/-- The engine stage (R171): at most one invocation, with all the free room. `memReads` starts empty at every edge. -/
def engineStage (s : State) : Host.Outcome State Fault Refusal :=
  let s := { s with memReads := [] }
  let h := s.params.symCap - s.fQ.length
  if s.pBusy && !s.pXDone && decide (0 < h) then
    match invokeEncode h s with
    | none => .fault .dataReadOutsideSpace
    | some r => .next (acceptEncoded r)
  else .next s

end Sys2Proof.Machine
end

