-- ==== Sys2Proof/Machine/Line.lean ====
section
/-! DEFINITION. The pulse generator: the line stage, the third stage of every edge (spec/43_pulse_generator.md rules
R193 to R198). -/

namespace Sys2Proof.Machine

/-- R193's part for a symbol that is held: drive this tick's level and advance by one tick. -/
def lineDrive (s : State) : State :=
  let s := { s with gDout := if s.gHalf then symLevel1 s.gSym else symLevel0 s.gSym }
  if 1 < s.gRem.toNat then { s with gRem := s.gRem - 1 }
  else if s.gHalf = false then { s with gHalf := true, gRem := symDuration1 s.gSym }
  else { s with gLoaded := false }

/-- R193's loading of a symbol that has left the FIFO. -/
def lineLoad (x : Symbol) (rest : List Symbol) (s : State) : State :=
  { s with fQ := rest, gSym := x, gLoaded := true, gHalf := false, gRem := symDuration0 x }

/-- R193's part for a line with nothing to send: completion (R195), underrun (R196) or idle. With the transmission
the memory of its races ends. -/
def lineIdle (s : State) : State :=
  let s := { s with gDout := s.params.idleLevel }
  if s.pBusy && s.pXDone then { s with pBusy := false, pDone := true, raced := [] }
  else if s.pBusy then { raiseErr .ioFailure s with pBusy := false, raced := [] }
  else s

/-- `LineStage` (R193). -/
def lineTick (s : State) : State :=
  if s.gLoaded then lineDrive s
  else
    match s.fQ with
    | x :: rest => lineDrive (lineLoad x rest s)
    | [] => lineIdle s

/-- The line stage, with the freeze that R198 admits under `PHY_HANG`: at any edge of a transmission the line may
freeze, and it stays frozen until `rst`. Without `PHY_HANG` it is `lineTick`. -/
def lineStage (s : State) : State :=
  if s.hung then s
  else if s.params.phyHang && s.pBusy then
    if Config.hangs s.draws then { s with hung := true, draws := s.draws + 1 }
    else lineTick { s with draws := s.draws + 1 }
  else lineTick s

end Sys2Proof.Machine
end

