-- ==== Sys2Proof/Machine/Edge.lean ====
section
/-! DEFINITION. One rising edge of `clk`: the input it samples, reset (spec/70_reset_and_hazards.md rule R240), the
command stage (spec/40_command_port.md rules R100 and R101) and the three stages in order (spec/00_scope.md rule
R13). -/

namespace Sys2Proof.Machine

/-- What the next edge samples; nothing where no input is left. -/
def nextInput (s : State) : EdgeInput := s.inbox.headD {}

/-- The state once that input has been taken. -/
def takeInput (s : State) : State := { s with inbox := s.inbox.tail }

/-- `cmd_c` (R100): the accepted word, if there is one. -/
def acceptedWord (i : EdgeInput) : Option Word := if i.cmdValid then some i.cmdData else none

/-- `CmdStage` (R101). -/
def cmdStage (cmd : Option Word) (s : State) : Host.Outcome State Fault Refusal :=
  match cmd with
  | none => .next s
  | some w =>
    match decode w with
    | .error _ => failWith .formatInvalid s
    | .ok k => exec k s

/-- An edge with `rst` = 1 (R240): every variable of R20 takes its reset value. DATA is not touched (R243) but by
the host's own writes. -/
def resetEdge (i : EdgeInput) (s : State) : State :=
  let s := hostWrites i.writesAt (hostWrites i.writesBefore s)
  State.resetWith s.build s.mem s.inbox s.draws

/-- The rest of an edge after its command stage: the host's writes that take effect at the edge, the engine stage and
the line stage (R13). -/
def finishEdge (i : EdgeInput) (s : State) : Host.Outcome State Fault Refusal :=
  andThen (engineStage (hostWrites i.writesAt s)) fun s => .next (lineStage s)

/-- One edge on the input it samples. -/
def edge (i : EdgeInput) (s : State) : Host.Outcome State Fault Refusal :=
  if i.rst then .next (resetEdge i s)
  else andThen (cmdStage (acceptedWord i) (hostWrites i.writesBefore s)) (finishEdge i)

/-- An input with a command word put on the command port. -/
def withCommand (i : EdgeInput) (w : Word) : EdgeInput := { i with rst := false, cmdValid := true, cmdData := w }

/-- The state whose next edge accepts the command word `w`. -/
def presentCommand (s : State) (w : Word) : State :=
  { s with inbox := withCommand (nextInput s) w :: s.inbox.tail }

end Sys2Proof.Machine
end

