-- ==== Sys2Proof/Machine/Step.lean ====
section
/-! DEFINITION. One step is one rising edge of `clk` (spec/00_scope.md rule R12). -/

namespace Sys2Proof.Machine

/-- The next edge: it samples the next input and runs the edge on it. -/
def step (s : State) : Host.Outcome State Fault Refusal := edge (nextInput s) (takeInput s)

/-- `s` with the command in the low `nbits` bits of `w` presented on the command port at the next edge: SWRGB fetches
nothing (R21, R74), and its command port is where its next command comes from. -/
def State.withFetchWord (s : State) (nbits w : Nat) : State := presentCommand s (BitVec.ofNat 32 (w % 2 ^ nbits))

end Sys2Proof.Machine
end

