-- ==== Sys2Proof/Machine/Asm.lean ====
section
/-! DEFINITION. The assembler syntax and the pseudo-instructions: spec/30_encoding.md rules R87 and R88. It stands
apart from the machine: it says which command words a line of text stands for. A line is a list of characters. -/

namespace Sys2Proof.Machine

/-- A line of assembler text that holds a command, with its numbers not yet checked: a command or `.word` (R87), or a
pseudo-instruction (R88). -/
inductive AsmLine where
  | glbNop
  | glbClrerr
  | glbSetie (ied iee : Nat)
  | pencCreate
  | pencDispose
  | pencReset
  | pencSetbase (addr : Nat)
  | pencSetlen (n : Nat)
  | pencSubmit
  | pencClrdone
  | tmapClear
  | tmapAdd (len : Nat) (rev : Bool)
  | tmapSeal
  | tmapLookup (idx : Nat)
  /-- `.word <w>`: the word as it is, legal or not -/
  | word (w : Nat)
  /-- `nop` -/
  | nop
  /-- `irq.off` -/
  | irqOff
  /-- `penc.send <addr>, <n>` -/
  | pencSend (addr n : Nat)
  /-- `tmap.single <n>` -/
  | tmapSingle (n : Nat)
  /-- `tmap.fwd <len>` -/
  | tmapFwd (len : Nat)
  /-- `tmap.rev <len>` -/
  | tmapRev (len : Nat)
  deriving DecidableEq, Repr

/-- Does every number of the line fit its field (R87)? -/
def asmFits : AsmLine → Bool
  | .glbSetie ied iee => decide (ied < 2) && decide (iee < 2)
  | .pencSetbase n => decide (n < 2 ^ 24)
  | .pencSetlen n => decide (n < 2 ^ 24)
  | .tmapAdd len _ => decide (len < 2 ^ 16)
  | .tmapLookup idx => decide (idx < 2 ^ 16)
  | .word w => decide (w < 2 ^ 32)
  | .pencSend addr n => decide (addr < 2 ^ 24) && decide (n < 2 ^ 24)
  | .tmapSingle n => decide (n < 2 ^ 16)
  | .tmapFwd len => decide (len < 2 ^ 16)
  | .tmapRev len => decide (len < 2 ^ 16)
  | .glbNop | .glbClrerr | .pencCreate | .pencDispose | .pencReset | .pencSubmit | .pencClrdone | .tmapClear
  | .tmapSeal | .nop | .irqOff => true

/-- The words of a line whose numbers fit: R87's "word" column, and for a pseudo-instruction the words of R88's
expansion in order. -/
def asmWords : AsmLine → List Word
  | .glbNop => [encode .glbNop]
  | .glbClrerr => [encode .glbClrerr]
  | .glbSetie ied iee => [encode (.glbSetie (ied == 1) (iee == 1))]
  | .pencCreate => [encode .pencCreate]
  | .pencDispose => [encode .pencDispose]
  | .pencReset => [encode .pencReset]
  | .pencSetbase addr => [encode (.pencSetbase (BitVec.ofNat 24 addr))]
  | .pencSetlen n => [encode (.pencSetlen (BitVec.ofNat 24 n))]
  | .pencSubmit => [encode .pencSubmit]
  | .pencClrdone => [encode .pencClrdone]
  | .tmapClear => [encode .tmapClear]
  | .tmapAdd len rev => [encode (.tmapAdd rev (BitVec.ofNat 16 len))]
  | .tmapSeal => [encode .tmapSeal]
  | .tmapLookup idx => [encode (.tmapLookup (BitVec.ofNat 16 idx))]
  | .word w => [BitVec.ofNat 32 w]
  | .nop => [encode .glbNop]
  | .irqOff => [encode (.glbSetie false false)]
  | .pencSend addr n =>
    [encode (.pencSetbase (BitVec.ofNat 24 addr)), encode (.pencSetlen (BitVec.ofNat 24 n)), encode .pencSubmit]
  | .tmapSingle n => [encode .tmapClear, encode (.tmapAdd false (BitVec.ofNat 16 n)), encode .tmapSeal]
  | .tmapFwd len => [encode (.tmapAdd false (BitVec.ofNat 16 len))]
  | .tmapRev len => [encode (.tmapAdd true (BitVec.ofNat 16 len))]

/-- The assembler refuses a line with a number that does not fit its field (R87). -/
def assemble (l : AsmLine) : Option (List Word) := if asmFits l then some (asmWords l) else none

/-! ### The text of a line -/

/-- The value of a digit in a base up to 16, for lower-case letters. -/
def digitValue (base : Nat) (c : Char) : Option Nat :=
  let v := if '0' ≤ c ∧ c ≤ '9' then c.toNat - '0'.toNat
    else if 'a' ≤ c ∧ c ≤ 'f' then c.toNat - 'a'.toNat + 10
    else 16
  if v < base then some v else none

/-- The value of a string of digits after `acc`. -/
def digitsValue (base acc : Nat) : List Char → Option Nat
  | [] => some acc
  | c :: cs =>
    match digitValue base c with
    | some v => digitsValue base (acc * base + v) cs
    | none => none

/-- A number, in lower case: decimal, or hexadecimal after `0x` (R87). -/
def parseNumber : List Char → Option Nat
  | [] => none
  | '0' :: 'x' :: c :: cs => digitsValue 16 0 (c :: cs)
  | c :: cs => digitsValue 10 0 (c :: cs)

/-- White space around a token. -/
def isBlank (c : Char) : Bool := c == ' ' || c == '\t'

/-- A token without the white space around it. -/
def trimBlanks (cs : List Char) : List Char :=
  ((cs.dropWhile isBlank).reverse.dropWhile isBlank).reverse

/-- The parts of a text between commas; an empty text has none. -/
def splitCommas (cs : List Char) : List (List Char) :=
  cs.foldr
    (fun c parts =>
      if c == ',' then [] :: parts
      else
        match parts with
        | [] => [[c]]
        | p :: rest => (c :: p) :: rest)
    (if trimBlanks cs = [] then [] else [[]])

/-- A command from its mnemonic (already in lower case) and its operands. -/
def parseCommand (mnemonic : List Char) (operands : List (List Char)) : Option AsmLine :=
  let numbers := operands.map parseNumber
  let is (s : String) := mnemonic == s.toList
  match operands, numbers with
  | [], _ =>
    if is "glb.nop" then some .glbNop
    else if is "glb.clrerr" then some .glbClrerr
    else if is "penc.create" then some .pencCreate
    else if is "penc.dispose" then some .pencDispose
    else if is "penc.reset" then some .pencReset
    else if is "penc.submit" then some .pencSubmit
    else if is "penc.clrdone" then some .pencClrdone
    else if is "tmap.clear" then some .tmapClear
    else if is "tmap.seal" then some .tmapSeal
    else if is "nop" then some .nop
    else if is "irq.off" then some .irqOff
    else none
  | [_], [some n] =>
    if is "penc.setbase" then some (.pencSetbase n)
    else if is "penc.setlen" then some (.pencSetlen n)
    else if is "tmap.add" then some (.tmapAdd n false)
    else if is "tmap.lookup" then some (.tmapLookup n)
    else if is ".word" then some (.word n)
    else if is "tmap.single" then some (.tmapSingle n)
    else if is "tmap.fwd" then some (.tmapFwd n)
    else if is "tmap.rev" then some (.tmapRev n)
    else none
  | [_, _], [some m, some n] =>
    if is "glb.setie" then some (.glbSetie m n)
    else if is "penc.send" then some (.pencSend m n)
    else none
  | [_, second], [some n, none] =>
    if is "tmap.add" ∧ second = "rev".toList then some (.tmapAdd n true) else none
  | _, _ => none

/-- A line of text (R87): its words, none for a line that is blank or a comment, or a refusal. R87 makes the mnemonic
case-insensitive and gives the prefix `0x` only; that the whole line is read without regard to case, so that `0X` for
`0x`, upper-case hexadecimal digits and `REV` are accepted too, is the model's choice (DESIGN CHOICE, log entry 12). -/
def assembleText (line : List Char) : Option (List Word) :=
  let text := trimBlanks ((line.takeWhile (· != ';')).map Char.toLower)
  if text = [] then some []
  else
    match parseCommand (text.takeWhile (!isBlank ·))
        ((splitCommas (text.dropWhile (!isBlank ·))).map trimBlanks) with
    | some l => assemble l
    | none => none

end Sys2Proof.Machine
end

