-- ==== Sys2Proof/Machine/Ports.lean ====
section
/-! DEFINITION. What the outside world sees: the register read port (spec/10_state.md rules R41 to R48), the map port
(spec/41_topology_mapper.md rule R131), and every output of R40. All are functions of the state and of the
combinational inputs `rd_addr` and `map_in`. -/

namespace Sys2Proof.Machine

/-- A field of a register, its least significant bit at `lo`; the rest of the word is 0. -/
def placeField {n : Nat} (v : BitVec n) (lo : Nat) : Word := v.setWidth 32 <<< lo

/-- A one-bit field. -/
def placeBit (b : Bool) (lo : Nat) : Word := placeField (BitVec.ofBool b) lo

/-- `STATUS` (R43). -/
def statusWord (s : State) : Word :=
  placeBit s.pBusy 0 ||| placeBit s.pDone 1 ||| placeBit s.pXDone 2 |||
  placeBit (decide (s.pSt = .sendReset)) 3 ||| placeBit (decide (s.pLc = .ready)) 4 |||
  placeBit s.pLastComplete 5 ||| placeBit s.pLastMemFull 6 ||| placeBit s.tSealed 7 |||
  placeField s.err 8 ||| placeBit s.ieDone 12 ||| placeBit s.ieErr 13 ||| placeBit (irq s) 14

/-- `PPOS` (R44). -/
def pposWord (s : State) : Word :=
  placeField s.pByteIdx 0 ||| placeField s.pBitIdx 24 ||| placeField s.pRstSent 27

/-- `PGENST` (R47). -/
def pgenstWord (s : State) : Word :=
  placeBit s.gLoaded 0 ||| placeBit s.gHalf 1 ||| placeBit s.gDout 2 ||| placeField s.gRem 16

/-- `TSTRIPi` (R46): 0 where the table has no entry `i`. -/
def tstripWord (s : State) (i : Nat) : Word :=
  match s.tStrip[i]? with
  | some st => if i < s.params.maxStrips then placeField st.len 0 ||| placeBit st.rev 16 else 0
  | none => 0

/-- The read port (R41, R42): the register selected by `rd_addr`. -/
def readPort (s : State) (rdAddr : BitVec 5) : Word :=
  match rdAddr.toNat with
  | 0x00 => statusWord s
  | 0x01 => placeField s.pBase 0
  | 0x02 => placeField s.pLen 0
  | 0x03 => pposWord s
  | 0x04 => s.pSymCnt
  | 0x05 => placeField (BitVec.ofNat 11 s.fQ.length) 0
  | 0x06 => placeField (BitVec.ofNat 16 s.params.t0h) 0 ||| placeField (BitVec.ofNat 16 s.params.t0l) 16
  | 0x07 => placeField (BitVec.ofNat 16 s.params.t1h) 0 ||| placeField (BitVec.ofNat 16 s.params.t1l) 16
  | 0x08 => placeField (BitVec.ofNat 16 s.params.resetTicks) 0
  | 0x09 => placeField (BitVec.ofNat 11 s.params.symCap) 0 ||| placeField (BitVec.ofNat 5 s.params.maxStrips) 16
  | 0x0A => placeField s.tNStrips 0
  | 0x0B => placeField s.tTotal 0
  | 0x0C => placeField s.tResult 0
  | 0x0D => pgenstWord s
  | 0x0E => 0x52470001
  | 0x0F => 0
  | n => tstripWord s (n - 0x10)

/-- `map_valid` (R131). -/
def mapValid (s : State) : Bool := s.tSealed && decide (0 < s.tTotal.toNat)

/-- `map_out` (R131). -/
def mapOut (s : State) (mapIn : Idx) : Idx := if mapValid s then mapFn s mapIn else 0

/-- The outputs of R40 during the tick after the last edge. `memReads` is the memory port over that edge: each entry
is a value of `mem_addr` with `mem_rd` = 1, in order. -/
structure Outputs where
  cmdReady : Bool
  dout : Bool
  irq : Bool
  mapOut : Idx
  mapValid : Bool
  rdData : Word
  memReads : List Addr
  deriving DecidableEq, Repr

/-- R40, with `cmd_ready` always 1 (R100). -/
def outputs (s : State) (rdAddr : BitVec 5) (mapIn : Idx) : Outputs where
  cmdReady := true
  dout := s.gDout
  irq := irq s
  mapOut := mapOut s mapIn
  mapValid := mapValid s
  rdData := readPort s rdAddr
  memReads := s.memReads

end Sys2Proof.Machine
end

