-- ==== Sys2Proof/Safety.lean ====
section
/-! DEFINITION. The terms the claims use: what a safe state is (`Inv`, from spec/10_state.md rule R50), what is still
to be written and to be driven (spec/42_protocol_encoder.md rule R168, spec/43_pulse_generator.md rule R199), the
table of checks of spec/60_exceptions.md rule R215, and the host's duty of spec/70_reset_and_hazards.md rule R250. -/

namespace Sys2Proof.Machine

/-! ### The topology -/

/-- The LEDs of some strips: `LEN[0] + LEN[1] + …` (R27). -/
def ledSum (strips : List Strip) : Nat := (strips.map fun st => st.len.toNat).sum

/-- The strips of the topology, `T_STRIP[0 .. T_NSTRIPS-1]` (R25). -/
def strips (s : State) : List Strip := s.tStrip.take s.tNStrips.toNat

/-- `B_i`, the LEDs of the strips before strip `i` (R126). -/
def stripBase (s : State) (i : Nat) : Nat := ledSum ((strips s).take i)

/-- R25 to R27 and R50 item 6. -/
structure TopologyOk (s : State) : Prop where
  size : s.tStrip.length = s.params.maxStrips
  count : s.tNStrips.toNat ≤ s.params.maxStrips
  total : s.tTotal.toNat = ledSum (strips s)
  rest : ∀ st ∈ s.tStrip.drop s.tNStrips.toNat, st = ⟨0, false⟩

/-! ### What a transmission still has to write and to drive -/

/-- `Sym(d, q)` of R168, for the bytes DATA holds from `P_BASE` on. -/
def sourceSym (s : State) (q : Nat) : Symbol := bitSym s.params (dataByte s (s.pBase.toNat + q / 8)) q

/-- `Stream(d)` of R168, for the buffer at `P_BASE`, `P_LEN`. -/
def wholeStream (s : State) : List Symbol :=
  (List.range (8 * s.pLen.toNat)).map (sourceSym s) ++ [resetSym s.params]

/-- The part of `Stream(d)` that an encoder at this position has not written. -/
def streamLeft (s : State) : List Symbol :=
  match s.pSt with
  | .sendData =>
    (List.range' (bitPos s) (8 * s.pLen.toNat - bitPos s)).map (sourceSym s) ++ [resetSym s.params]
  | .sendReset => [resetSym s.params]

/-- The symbols that the transmission in flight has not put into the FIFO. -/
def pendingStream (s : State) : List Symbol := if s.pBusy && !s.pXDone then streamLeft s else []

/-- The levels of a symbol, tick by tick (R89, R194). -/
def symLevels (x : Symbol) : List Bool :=
  List.replicate (symDuration0 x).toNat (symLevel0 x) ++ List.replicate (symDuration1 x).toNat (symLevel1 x)

/-- The levels that the symbol held by PGEN has still to drive (R39). -/
def heldLevels (s : State) : List Bool :=
  if s.gLoaded then
    if s.gHalf then List.replicate s.gRem.toNat (symLevel1 s.gSym)
    else List.replicate s.gRem.toNat (symLevel0 s.gSym) ++
      List.replicate (symDuration1 s.gSym).toNat (symLevel1 s.gSym)
  else []

/-- The levels of the coming ticks, up to the end of the transmission in flight. -/
def lineFuture (s : State) : List Bool := heldLevels s ++ (s.fQ ++ pendingStream s).flatMap symLevels

/-- The levels of a bit of the source: `Hi(b)` ticks high, then `Lo(b)` ticks low (R199). -/
def bitLevels (p : Params) (b : Bool) : List Bool :=
  List.replicate (if b then p.t1h else p.t0h) true ++ List.replicate (if b then p.t1l else p.t0l) false

/-- `b_q` of R199. -/
def sourceBit (s : State) (q : Nat) : Bool := (dataByte s (s.pBase.toNat + q / 8)).getLsbD (7 - q % 8)

/-- The waveform of R199: every bit of the buffer, then the reset gap. -/
def waveform (s : State) : List Bool :=
  (List.range (8 * s.pLen.toNat)).flatMap (fun q => bitLevels s.params (sourceBit s q)) ++
    List.replicate s.params.resetTicks false

/-- Several encode invocations with the room given for each, up to the one that reports `COMPLETE`: the symbols
written in total, and whether it came to that (R168). -/
def encodeAll : List Nat → State → Option (List Symbol × Bool)
  | [], _ => some ([], false)
  | h :: hs, s =>
    match invokeEncode h s with
    | none => none
    | some r =>
      if r.complete then some (r.out, true)
      else
        match encodeAll hs r.state with
        | none => none
        | some (out, c) => some (r.out ++ out, c)

/-! ### Safe states -/

/-- One of the three symbols PENC writes (R153). -/
def isPencSymbol (p : Params) (x : Symbol) : Prop := x = bit0Sym p ∨ x = bit1Sym p ∨ x = resetSym p

/-- What holds in every state a run reaches: R50, and the bounds that R38, R39, R153, R173 and R202 give. -/
structure Inv (s : State) : Prop where
  /-- R50 item 1 -/
  idle_line : s.pBusy = false → s.fQ = [] ∧ s.gLoaded = false
  /-- R50 item 2 -/
  done_idle : s.pDone = true → s.pBusy = false
  /-- R50 item 3 -/
  xdone_initial : s.pXDone = true → encoderInitial s = true
  /-- R50 item 4 -/
  rst_sent : s.pRstSent = 0
  /-- R50 item 5 -/
  idle_initial : s.pBusy = false → encoderInitial s = true
  /-- R50 item 6 -/
  topology : TopologyOk s
  /-- R50 item 7 -/
  absent_idle : s.pLc = .absent → s.pBusy = false
  /-- R50 item 8 -/
  in_data : s.pBusy = true → s.pBase.toNat + s.pLen.toNat ≤ s.params.memBytes
  /-- R50 item 9, and R197: 6 is never raised -/
  err_code : s.err.toNat ≤ 5
  /-- R38 -/
  fifo_fits : s.fQ.length ≤ s.params.symCap
  /-- R153 -/
  fifo_symbols : ∀ x ∈ s.fQ, isPencSymbol s.params x
  /-- R153 -/
  held_symbol : s.gLoaded = true → isPencSymbol s.params s.gSym
  /-- R39 -/
  held_rem : s.gLoaded = true → 1 ≤ s.gRem.toNat
  /-- R173 -/
  pos_bound : s.pBusy = true → bitPos s ≤ 8 * s.pLen.toNat
  /-- R164: the bytes sub-encoder is in its initial state once it has completed -/
  reset_pos : s.pSt = .sendReset → bitPos s = 0
  /-- R37, R169 -/
  symcnt : s.pBusy = true → s.pSymCnt.toNat + (pendingStream s).length = 8 * s.pLen.toNat + 1
  /-- R202 -/
  idle_level : s.pBusy = false → s.gDout = s.params.idleLevel
  /-- the canonical form of DATA -/
  mem_wf : Memory.wf s.mem
  /-- R60 -/
  mem_range : ∀ c ∈ s.mem, c.1 < s.params.memBytes
  /-- R198 -/
  hung_busy : s.hung = true → s.params.phyHang = true ∧ s.pBusy = true
  /-- R70: a race lasts no longer than its transmission -/
  raced_busy : s.pBusy = false → s.raced = []

/-- The host keeps to R250 at an edge and leaves `rst` alone: none of its writes is in the range. -/
def quietInput (s : State) (i : EdgeInput) : Prop :=
  i.rst = false ∧ ∀ w ∈ i.writesBefore ++ i.writesAt, inRange s w.addr.toNat = false

/-! ### Which check fails first (R215) -/

/-- The table of R215, one command a line: the code of the first check that fails. -/
def commandError (i : Instr) (s : State) : Option ErrCode :=
  match i with
  | .glbNop | .glbClrerr | .glbSetie _ _ | .pencClrdone | .tmapSeal | .pencCreate => none
  | .pencDispose => if s.pLc = .absent then none else if s.pBusy then some .invalidState else none
  | .pencReset | .pencSetbase _ | .pencSetlen _ =>
    if s.pLc = .absent then some .invalidState else if s.pBusy then some .invalidState else none
  | .pencSubmit =>
    if s.pLc = .absent then some .invalidState
    else if s.pBusy then some .invalidState
    else if encoderInitial s = false then some .invalidState
    else if s.params.memBytes < s.pBase.toNat + s.pLen.toNat then some .invalidArgument
    else none
  | .tmapClear => if s.tSealed then some .invalidState else none
  | .tmapAdd _ len =>
    if s.tSealed then some .invalidState
    else if s.tNStrips.toNat = s.params.maxStrips then some .resourceExhausted
    else if 65535 < s.tTotal.toNat + len.toNat then some .invalidArgument
    else none
  | .tmapLookup _ =>
    if s.tSealed = false then some .invalidState else if s.tTotal = 0 then some .invalidState else none

/-- R215 for any command word: the format check comes first. -/
def wordError (w : Word) (s : State) : Option ErrCode :=
  match decode w with
  | .error _ => some .formatInvalid
  | .ok i => commandError i s

/-- R81: the operand bits that the command with this `OPC` does not list, which must be 0. -/
def reservedBits (opc : BitVec 8) : Word :=
  match opc.toNat with
  | 0x02 => 0x00FFFFFC
  | 0x13 => 0
  | 0x14 => 0
  | 0x21 => 0x00FE0000
  | 0x23 => 0x00FF0000
  | _ => 0x00FFFFFF

/-- R85: the ranges of unassigned opcodes. -/
def opcUnassigned (opc : BitVec 8) : Prop :=
  (0x03 ≤ opc.toNat ∧ opc.toNat ≤ 0x0F) ∨ (0x17 ≤ opc.toNat ∧ opc.toNat ≤ 0x1F) ∨ 0x24 ≤ opc.toNat

/-- The encoding and format clauses of a command without operands (R105, R121, …): of all words with its `OPC`, the
one given is the command, and every other raises `FORMAT_INVALID` and has no other effect. -/
def OnlyWord (w : Word) (i : Instr) : Prop :=
  ∀ v : Word, opcField v = opcField w →
    if v = w then decode v = .ok i else ∀ s, cmdStage (some v) s = .next { s with err := 2 }

end Sys2Proof.Machine
end

