-- ==== Sys2Proof/Certificates/Slice0/Obligations.lean ====
section
/-! DEFINITION. The statements for the provers. Each cites the rules of spec/ it formalises. -/

open Sys2Proof Sys2Proof.Machine

/-! ## Encodings -/

/-- R81 to R83, R87: decoding the word of a command gives that command back, with every operand at every value its
field admits. -/
def Obligations.DecodeOfEncode : Prop := ∀ i : Instr, decode (encode i) = .ok i

/-- R80, R84, R85: each legal word is the word of one command only, so no bit of a legal word is ignored. -/
def Obligations.EncodeOfDecode : Prop := ∀ (w : Word) (i : Instr), decode w = .ok i → encode i = w

/-- R84: the row that fits a word is unique and gives its command, and a word that fits no row is `ILLEGAL`. -/
def Obligations.DecodeIsTheTableSearch : Prop :=
  ∀ w : Word,
    (∀ r ∈ opcodeMap, w &&& r.mask = r.pattern → decode w = .ok (r.build w)) ∧
    ((∀ r ∈ opcodeMap, w &&& r.mask ≠ r.pattern) → ∃ e, decode w = .error e) ∧
    (∀ r ∈ opcodeMap, ∀ r' ∈ opcodeMap,
      w &&& r.mask = r.pattern → w &&& r'.mask = r'.pattern → r.mnemonic = r'.mnemonic)

/-- R85: which words are `ILLEGAL`, and that such a word raises `FORMAT_INVALID` and has no other effect. -/
def Obligations.IllegalWordsRaiseFormatInvalid : Prop :=
  ∀ w : Word,
    (opcUnassigned (opcField w) ∨ w &&& reservedBits (opcField w) ≠ 0 →
      (∃ e, decode w = .error e) ∧ ∀ s, cmdStage (some w) s = .next { s with err := 2 }) ∧
    (¬ opcUnassigned (opcField w) ∧ w &&& reservedBits (opcField w) = 0 → ∃ i, decode w = .ok i)

/-- R83, R87: words written out from the spec's table, one or two for each unit. -/
def Obligations.SpecWordsDecode : Prop :=
  decode 0x00000000 = .ok .glbNop ∧ decode 0x02000001 = .ok (.glbSetie true false) ∧
  decode 0x13000100 = .ok (.pencSetbase 0x100) ∧ decode 0x15000000 = .ok .pencSubmit ∧
  decode 0x21010005 = .ok (.tmapAdd true 5) ∧ decode 0x2300000A = .ok (.tmapLookup 10)

/-- R87: every command line whose numbers fit assembles to the word its row of R87 gives; a line with a number that
does not fit its field, a pseudo-instruction of R88 among them, is refused; `.word` gives its word as it is; and every
other line that is accepted, pseudo-instructions among them, gives legal words only. -/
def Obligations.AssembledCommandsAreLegal : Prop :=
  (assemble .glbNop = some [0x00000000] ∧ assemble .glbClrerr = some [0x01000000] ∧
    assemble .pencCreate = some [0x10000000] ∧ assemble .pencDispose = some [0x11000000] ∧
    assemble .pencReset = some [0x12000000] ∧ assemble .pencSubmit = some [0x15000000] ∧
    assemble .pencClrdone = some [0x16000000] ∧ assemble .tmapClear = some [0x20000000] ∧
    assemble .tmapSeal = some [0x22000000]) ∧
  (∀ ied iee, assemble (.glbSetie ied iee) =
    if ied < 2 ∧ iee < 2 then some [0x02000000 ||| BitVec.ofNat 32 iee <<< 1 ||| BitVec.ofNat 32 ied] else none) ∧
  (∀ addr, assemble (.pencSetbase addr) =
    if addr < 2 ^ 24 then some [0x13000000 ||| BitVec.ofNat 32 addr] else none) ∧
  (∀ n, assemble (.pencSetlen n) = if n < 2 ^ 24 then some [0x14000000 ||| BitVec.ofNat 32 n] else none) ∧
  (∀ len rev, assemble (.tmapAdd len rev) =
    if len < 2 ^ 16 then some [0x21000000 ||| (if rev then 1 else 0) <<< 16 ||| BitVec.ofNat 32 len] else none) ∧
  (∀ idx, assemble (.tmapLookup idx) =
    if idx < 2 ^ 16 then some [0x23000000 ||| BitVec.ofNat 32 idx] else none) ∧
  (∀ w, assemble (.word w) = if w < 2 ^ 32 then some [BitVec.ofNat 32 w] else none) ∧
  (∀ addr n, 2 ^ 24 ≤ addr ∨ 2 ^ 24 ≤ n → assemble (.pencSend addr n) = none) ∧
  (∀ n, 2 ^ 16 ≤ n →
    assemble (.tmapSingle n) = none ∧ assemble (.tmapFwd n) = none ∧ assemble (.tmapRev n) = none) ∧
  (∀ (l : AsmLine) (words : List Word), (∀ w, l ≠ .word w) → assemble l = some words →
    words ≠ [] ∧ ∀ w ∈ words, ∃ i, decode w = .ok i)

/-- R88: each pseudo-instruction assembles to what its expansion assembles to, in order. -/
def Obligations.PseudoInstructionsExpand : Prop :=
  assemble .nop = assemble .glbNop ∧ assemble .irqOff = assemble (.glbSetie 0 0) ∧
  (∀ n, assemble (.tmapFwd n) = assemble (.tmapAdd n false) ∧ assemble (.tmapRev n) = assemble (.tmapAdd n true)) ∧
  (∀ addr n, addr < 2 ^ 24 → n < 2 ^ 24 →
    ∃ w1 w2 w3, assemble (.pencSetbase addr) = some w1 ∧ assemble (.pencSetlen n) = some w2 ∧
      assemble .pencSubmit = some w3 ∧ assemble (.pencSend addr n) = some (w1 ++ w2 ++ w3)) ∧
  (∀ n, n < 2 ^ 16 →
    ∃ w1 w2 w3, assemble .tmapClear = some w1 ∧ assemble (.tmapAdd n false) = some w2 ∧
      assemble .tmapSeal = some w3 ∧ assemble (.tmapSingle n) = some (w1 ++ w2 ++ w3))

/-! ## The edge -/

/-- R13, R100, R101: at an edge that accepts a legal command, a step is the command's own effect, followed by the engine
stage and the line stage; at an edge with `cmd_valid` = 0 it is the two stages alone, whatever is on `cmd_data`. That
inputs come from a list (log entry 6), and that the host's writes before the edge are done before the command stage and
its writes at the edge between the command stage and the engine stage (log entry 11), is the model's choice. -/
def Obligations.StepRunsDecodedCommand : Prop :=
  (∀ (s : State) (i : Instr),
    (nextInput s).rst = false → (nextInput s).cmdValid = true → decode (nextInput s).cmdData = .ok i →
    step s = andThen (exec i (hostWrites (nextInput s).writesBefore (takeInput s))) fun t =>
      andThen (engineStage (hostWrites (nextInput s).writesAt t)) fun t => .next (lineStage t)) ∧
  ∀ (s : State) (w : Word), (nextInput s).rst = false → (nextInput s).cmdValid = false →
    step { s with inbox := { nextInput s with cmdData := w } :: s.inbox.tail } =
      andThen (engineStage (hostWrites ((nextInput s).writesBefore ++ (nextInput s).writesAt) (takeInput s)))
        fun t => .next (lineStage t)

/-- R240, R243, R244, R257: an edge with `rst` = 1 gives every variable its reset value, whatever the command input is, makes
no DATA read, drives `IDLE_LEVEL`, sets no `P_DONE` and records no error, leaves to DATA what the host wrote, keeps the
parameters, and changes nothing more when it is held. (The model's choice, not the spec's: the count of free values
drawn and the coming input go on, log entries 5 and 6, and the reads of an edge are the list `memReads`, log entry 10.) -/
def Obligations.ResetEdgeRestoresEveryVariable : Prop :=
  ∀ s : State, (nextInput s).rst = true →
    ∃ t, step s = .next t ∧
      t = State.resetWith s.build t.mem s.inbox.tail s.draws ∧
      t.gDout = s.params.idleLevel ∧ t.memReads = [] ∧ t.pDone = false ∧ t.err = 0 ∧
      (∀ a, Memory.read t.mem a =
        Memory.read (hostWrites ((nextInput s).writesBefore ++ (nextInput s).writesAt) s).mem a) ∧
      (∀ (v : Bool) (w : Word),
        step { s with inbox := { nextInput s with cmdValid := v, cmdData := w } :: s.inbox.tail } = .next t) ∧
      (nextInput t = { rst := true } →
        step t = .next (State.resetWith s.build t.mem s.inbox.tail.tail s.draws))

/-! ## Commands -/

/-- R105 to R107: the three global commands, with their encodings and format errors. -/
def Obligations.GlobalCommands : Prop :=
  (OnlyWord 0x00000000 .glbNop ∧ ∀ s, exec .glbNop s = .next s) ∧
  (OnlyWord 0x01000000 .glbClrerr ∧ ∀ s, exec .glbClrerr s = .next { s with err := 0 }) ∧
  (∀ ied iee : Bool,
    decode (0x02000000 ||| (if iee then 2 else 0) ||| (if ied then 1 else 0)) = .ok (.glbSetie ied iee) ∧
    ∀ s, exec (.glbSetie ied iee) s = .next { s with ieDone := ied, ieErr := iee }) ∧
  (∀ w : Word, opcField w = 0x02 → w &&& 0x00FFFFFC ≠ 0 →
    ∀ s, cmdStage (some w) s = .next { s with err := 2 })

/-- R121: `TMAP.CLEAR`. -/
def Obligations.TmapClearEmptiesTheTopology : Prop :=
  OnlyWord 0x20000000 .tmapClear ∧
  ∀ s : State,
    (s.tSealed = true → exec .tmapClear s = .next { s with err := 5 }) ∧
    (s.tSealed = false →
      exec .tmapClear s = .next
        { s with tNStrips := 0, tTotal := 0, tStrip := List.replicate s.params.maxStrips ⟨0, false⟩ })

/-- R122: `TMAP.ADD`. -/
def Obligations.TmapAddAppendsOneStrip : Prop :=
  (∀ (rev : Bool) (len : Idx),
    decode (0x21000000 ||| (if rev then 0x00010000 else 0) ||| len.setWidth 32) = .ok (.tmapAdd rev len)) ∧
  (∀ w : Word, opcField w = 0x21 → w &&& 0x00FE0000 ≠ 0 →
    ∀ s, cmdStage (some w) s = .next { s with err := 2 }) ∧
  ∀ (rev : Bool) (len : Idx) (s : State),
    (s.tSealed = true → exec (.tmapAdd rev len) s = .next { s with err := 5 }) ∧
    (s.tSealed = false → s.tNStrips.toNat = s.params.maxStrips →
      exec (.tmapAdd rev len) s = .next { s with err := 3 }) ∧
    (s.tSealed = false → s.tNStrips.toNat ≠ s.params.maxStrips → 65535 < s.tTotal.toNat + len.toNat →
      exec (.tmapAdd rev len) s = .next { s with err := 4 }) ∧
    (s.tSealed = false → s.tNStrips.toNat ≠ s.params.maxStrips → s.tTotal.toNat + len.toNat ≤ 65535 →
      ∃ t, exec (.tmapAdd rev len) s = .next t ∧
        t = { s with tStrip := t.tStrip, tNStrips := s.tNStrips + 1, tTotal := t.tTotal } ∧
        t.tTotal.toNat = s.tTotal.toNat + len.toNat ∧
        (s.tNStrips.toNat < s.tStrip.length → t.tStrip[s.tNStrips.toNat]? = some ⟨len, rev⟩) ∧
        ∀ j, j ≠ s.tNStrips.toNat → t.tStrip[j]? = s.tStrip[j]?)

/-- R123: `TMAP.SEAL`. -/
def Obligations.TmapSealFixesTheTopology : Prop :=
  OnlyWord 0x22000000 .tmapSeal ∧
  (∀ s, exec .tmapSeal s = .next { s with tSealed := true }) ∧
  (∀ s, s.tSealed = true → exec .tmapSeal s = .next s) ∧
  ∀ s rev len, ∃ t, exec .tmapSeal s = .next t ∧ exec (.tmapAdd rev len) t = .next { t with err := 5 } ∧
    exec .tmapClear t = .next { t with err := 5 }

/-- R124: `TMAP.LOOKUP`. -/
def Obligations.TmapLookupWritesTheMap : Prop :=
  (∀ idx : Idx, decode (0x23000000 ||| idx.setWidth 32) = .ok (.tmapLookup idx)) ∧
  (∀ w : Word, opcField w = 0x23 → w &&& 0x00FF0000 ≠ 0 →
    ∀ s, cmdStage (some w) s = .next { s with err := 2 }) ∧
  ∀ (idx : Idx) (s : State),
    (s.tSealed = false → exec (.tmapLookup idx) s = .next { s with err := 5 }) ∧
    (s.tTotal = 0 → exec (.tmapLookup idx) s = .next { s with err := 5 }) ∧
    (s.tSealed = true → s.tTotal ≠ 0 → exec (.tmapLookup idx) s = .next { s with tResult := mapFn s idx })

/-- R154: `PENC.CREATE`. -/
def Obligations.PencCreateIsIdempotent : Prop :=
  OnlyWord 0x10000000 .pencCreate ∧
  ∀ s : State,
    (s.pLc = .ready → exec .pencCreate s = .next s) ∧
    (s.pLc = .absent →
      exec .pencCreate s = .next
        { s with pLc := .ready, pSt := .sendData, pByteIdx := 0, pBitIdx := 0, pRstSent := 0 })

/-- R155: `PENC.DISPOSE`. -/
def Obligations.PencDisposeReleasesTheEncoder : Prop :=
  OnlyWord 0x11000000 .pencDispose ∧
  ∀ s : State,
    (s.pLc = .absent → exec .pencDispose s = .next s) ∧
    (s.pLc = .ready → s.pBusy = true → exec .pencDispose s = .next { s with err := 5 }) ∧
    (s.pLc = .ready → s.pBusy = false →
      exec .pencDispose s = .next
        { s with pLc := .absent, pSt := .sendData, pByteIdx := 0, pBitIdx := 0, pRstSent := 0 })

/-- R156: `PENC.RESET`. -/
def Obligations.PencResetReturnsToTheInitialState : Prop :=
  OnlyWord 0x12000000 .pencReset ∧
  ∀ s : State,
    (s.pLc = .absent → exec .pencReset s = .next { s with err := 5 }) ∧
    (s.pBusy = true → exec .pencReset s = .next { s with err := 5 }) ∧
    (s.pLc = .ready → s.pBusy = false →
      exec .pencReset s = .next { s with pSt := .sendData, pByteIdx := 0, pBitIdx := 0, pRstSent := 0 })

/-- R157, R158: `PENC.SETBASE` and `PENC.SETLEN`; neither has a format error or a range check. -/
def Obligations.PencSetbaseAndSetlen : Prop :=
  ∀ (imm24 : Addr) (s : State),
    (decode (0x13000000 ||| imm24.setWidth 32) = .ok (.pencSetbase imm24)) ∧
    (decode (0x14000000 ||| imm24.setWidth 32) = .ok (.pencSetlen imm24)) ∧
    (s.pLc = .absent ∨ s.pBusy = true →
      exec (.pencSetbase imm24) s = .next { s with err := 5 } ∧
      exec (.pencSetlen imm24) s = .next { s with err := 5 }) ∧
    (s.pLc = .ready → s.pBusy = false →
      exec (.pencSetbase imm24) s = .next { s with pBase := imm24 } ∧
      exec (.pencSetlen imm24) s = .next { s with pLen := imm24 })

/-- R159: `PENC.SUBMIT`, its four checks in order and its effect. -/
def Obligations.PencSubmitStartsATransmission : Prop :=
  OnlyWord 0x15000000 .pencSubmit ∧
  ∀ s : State,
    (s.pLc = .absent → exec .pencSubmit s = .next { s with err := 5 }) ∧
    (s.pBusy = true → exec .pencSubmit s = .next { s with err := 5 }) ∧
    (¬ (s.pSt = .sendData ∧ s.pByteIdx = 0 ∧ s.pBitIdx = 0 ∧ s.pRstSent = 0) →
      exec .pencSubmit s = .next { s with err := 5 }) ∧
    (s.pLc = .ready → s.pBusy = false →
      s.pSt = .sendData ∧ s.pByteIdx = 0 ∧ s.pBitIdx = 0 ∧ s.pRstSent = 0 →
      s.params.memBytes < s.pBase.toNat + s.pLen.toNat →
      exec .pencSubmit s = .next { s with err := 4 }) ∧
    (s.pLc = .ready → s.pBusy = false →
      s.pSt = .sendData ∧ s.pByteIdx = 0 ∧ s.pBitIdx = 0 ∧ s.pRstSent = 0 →
      s.pBase.toNat + s.pLen.toNat ≤ s.params.memBytes →
      exec .pencSubmit s = .next
        { s with
          pBusy := true, pDone := false, pXDone := false
          pLastComplete := false, pLastMemFull := false, pSymCnt := 0 })

/-- R160: `PENC.CLRDONE`; the line stage of the same edge may set `P_DONE` again (R255). -/
def Obligations.PencClrdoneClearsDone : Prop :=
  OnlyWord 0x16000000 .pencClrdone ∧
  (∀ s, exec .pencClrdone s = .next { s with pDone := false }) ∧
  ∀ s : State, s.pBusy = true → s.pXDone = true → s.fQ = [] → s.gLoaded = false → s.hung = false →
    s.params.phyHang = false → nextInput s = { cmdValid := true, cmdData := 0x16000000 } →
    ∃ t, step s = .next t ∧ t.pDone = true ∧ t.pBusy = false

/-- R102, R103, R215: whatever the word and the state, the first check of R215 that fails decides `ERR` and nothing
else changes in the command stage, and the engine and line stages of the edge still run; where no check fails, the
command runs and (R104) leaves `ERR` as it was, `GLB.CLRERR` apart. (Where the host's writes of the edge fall is the
model's choice, log entry 11.) -/
def Obligations.FirstFailedCheckDecidesTheError : Prop :=
  ∀ (w : Word) (s : State),
    (∀ e, wordError w s = some e →
      cmdStage (some w) s = .next { s with err := errNumber e } ∧
      ∀ s', (nextInput s').rst = false → (nextInput s').cmdValid = true → (nextInput s').cmdData = w →
        hostWrites (nextInput s').writesBefore (takeInput s') = s →
        step s' = finishEdge (nextInput s') { s with err := errNumber e }) ∧
    (wordError w s = none →
      ∃ i t, decode w = .ok i ∧ cmdStage (some w) s = .next t ∧ exec i s = .next t ∧
        (i ≠ .glbClrerr → t.err = s.err))

/-! ## What commands and stages leave alone -/

/-- R49, for the commands: a variable that a command changes is one that R49's table lets it write; and no command
touches the FIFO, PGEN, the parameters, or any byte of DATA. -/
def Obligations.CommandsWriteOnlyTheirVariables : Prop :=
  ∀ (i : Instr) (s t : State), exec i s = .next t →
    ((∀ a b, i ≠ .glbSetie a b) → t.ieDone = s.ieDone ∧ t.ieErr = s.ieErr) ∧
    (i ≠ .tmapClear → (∀ r l, i ≠ .tmapAdd r l) →
      t.tNStrips = s.tNStrips ∧ t.tStrip = s.tStrip ∧ t.tTotal = s.tTotal) ∧
    (i ≠ .tmapSeal → t.tSealed = s.tSealed) ∧
    ((∀ x, i ≠ .tmapLookup x) → t.tResult = s.tResult) ∧
    (i ≠ .pencCreate → i ≠ .pencDispose → t.pLc = s.pLc) ∧
    (i ≠ .pencCreate → i ≠ .pencDispose → i ≠ .pencReset →
      t.pSt = s.pSt ∧ t.pByteIdx = s.pByteIdx ∧ t.pBitIdx = s.pBitIdx ∧ t.pRstSent = s.pRstSent) ∧
    ((∀ a, i ≠ .pencSetbase a) → t.pBase = s.pBase) ∧
    ((∀ n, i ≠ .pencSetlen n) → t.pLen = s.pLen) ∧
    (i ≠ .pencSubmit →
      t.pBusy = s.pBusy ∧ t.pXDone = s.pXDone ∧ t.pLastComplete = s.pLastComplete ∧
      t.pLastMemFull = s.pLastMemFull ∧ t.pSymCnt = s.pSymCnt) ∧
    (i ≠ .pencSubmit → i ≠ .pencClrdone → t.pDone = s.pDone) ∧
    (t.fQ = s.fQ ∧ t.gLoaded = s.gLoaded ∧ t.gSym = s.gSym ∧ t.gHalf = s.gHalf ∧ t.gRem = s.gRem ∧
      t.gDout = s.gDout) ∧
    (t.build = s.build ∧ t.memReads = s.memReads ∧ t.inbox = s.inbox ∧ t.raced = s.raced ∧ t.hung = s.hung ∧
      t.draws = s.draws) ∧
    ∀ a, Memory.read t.mem a = Memory.read s.mem a ∧ dataByte t a = dataByte s a

/-- R49, for the engine and line stages: the variables each writes, and that the engine only appends to the FIFO and
the line only takes its head. -/
def Obligations.StagesWriteOnlyTheirVariables : Prop :=
  (∀ s t : State, engineStage s = .next t →
    t = { s with
      pSt := t.pSt, pByteIdx := t.pByteIdx, pBitIdx := t.pBitIdx, pRstSent := t.pRstSent, pXDone := t.pXDone
      pLastComplete := t.pLastComplete, pLastMemFull := t.pLastMemFull, pSymCnt := t.pSymCnt, fQ := t.fQ
      memReads := t.memReads, draws := t.draws } ∧
    ∃ out, t.fQ = s.fQ ++ out) ∧
  (∀ s t : State, lineStage s = t →
    t = { s with
      err := t.err, pBusy := t.pBusy, pDone := t.pDone, fQ := t.fQ, gLoaded := t.gLoaded, gSym := t.gSym
      gHalf := t.gHalf, gRem := t.gRem, gDout := t.gDout, raced := t.raced, hung := t.hung, draws := t.draws } ∧
    (t.fQ = s.fQ ∨ t.fQ = s.fQ.tail) ∧ (t.err = s.err ∨ t.err = 6))

/-- R61, R243: a byte of DATA changes at an edge only where the host writes it; with or without `rst`, the block
writes none. (A byte the host has never written holds a free value of its own: the model's choice, log entry 3.) -/
def Obligations.BlockNeverWritesData : Prop :=
  ∀ s t : State, step s = .next t →
    ∀ a : Nat, (∀ w ∈ (nextInput s).writesBefore ++ (nextInput s).writesAt, w.addr.toNat ≠ a) →
      Memory.read t.mem a = Memory.read s.mem a ∧ dataByte t a = dataByte s a

/-- R9, R257: no step changes the parameters, so the read port's parameter registers hold the same words (R45). -/
def Obligations.ParametersAreFixed : Prop :=
  ∀ s t : State, step s = .next t →
    t.build = s.build ∧ readPort t 0x06 = readPort s 0x06 ∧ readPort t 0x07 = readPort s 0x07 ∧
    readPort t 0x08 = readPort s 0x08 ∧ readPort t 0x09 = readPort s 0x09

/-- R28, R246: a sealed topology stays sealed and unchanged until `rst`. -/
def Obligations.SealedTopologyIsImmutable : Prop :=
  ∀ s t : State, s.tSealed = true → (nextInput s).rst = false → step s = .next t →
    t.tSealed = true ∧ t.tNStrips = s.tNStrips ∧ t.tStrip = s.tStrip ∧ t.tTotal = s.tTotal ∧
    ∀ l, mapFn t l = mapFn s l ∧ mapOut t l = mapOut s l

/-! ## The topology mapper -/

/-- R127: out-of-range indices give the last physical index, with no error. -/
def Obligations.OutOfRangeIndexIsClamped : Prop :=
  ∀ (s : State) (l : Idx), s.tTotal ≠ 0 → s.tTotal ≤ l →
    (mapFn s l).toNat = s.tTotal.toNat - 1 ∧
    (s.tSealed = true → ∃ t, exec (.tmapLookup l) s = .next t ∧ t.tResult = s.tTotal - 1 ∧ t.err = s.err ∧
      mapOut s l = s.tTotal - 1)

/-- R126: the closed form of the map. -/
def Obligations.MapClosedForm : Prop :=
  ∀ (s : State) (l : Idx), TopologyOk s → l < s.tTotal →
    ∃ i st, (strips s)[i]? = some st ∧ stripBase s i ≤ l.toNat ∧ l.toNat < stripBase s i + st.len.toNat ∧
      (∀ j st', (strips s)[j]? = some st' → stripBase s j ≤ l.toNat →
        l.toNat < stripBase s j + st'.len.toNat → j = i) ∧
      (st.rev = false → mapFn s l = l) ∧
      (st.rev = true → (mapFn s l).toNat + l.toNat + 1 = 2 * stripBase s i + st.len.toNat) ∧
      stripBase s i ≤ (mapFn s l).toNat ∧ (mapFn s l).toNat < stripBase s i + st.len.toNat

/-- R133: the map is a bijection of `[0, T_TOTAL)`, and over all 16-bit inputs it is not injective. -/
def Obligations.MapIsABijection : Prop :=
  ∀ s : State, TopologyOk s → 0 < s.tTotal.toNat →
    (∀ l : Idx, l < s.tTotal → mapFn s l < s.tTotal) ∧
    (∀ l l' : Idx, l < s.tTotal → l' < s.tTotal → mapFn s l = mapFn s l' → l = l') ∧
    (∀ p : Idx, p < s.tTotal → ∃ l : Idx, l < s.tTotal ∧ mapFn s l = p) ∧
    (∀ l : Idx, s.tTotal ≤ l → mapFn s l = s.tTotal - 1) ∧
    (∃ l l' : Idx, l ≠ l' ∧ mapFn s l = mapFn s l')

/-- R131: the map port. -/
def Obligations.MapPortOutputs : Prop :=
  ∀ (s : State) (rdAddr : BitVec 5) (mapIn : Idx),
    ((outputs s rdAddr mapIn).mapValid = true ↔ s.tSealed = true ∧ s.tTotal ≠ 0) ∧
    (s.tSealed = true → s.tTotal ≠ 0 → (outputs s rdAddr mapIn).mapOut = mapFn s mapIn) ∧
    (s.tSealed = false ∨ s.tTotal = 0 → (outputs s rdAddr mapIn).mapOut = 0)

/-- R134: the source's reversal example, on every state with that topology. -/
def Obligations.ReversalExample : Prop :=
  ∀ s : State, strips s = [⟨10, false⟩, ⟨5, true⟩] → s.tTotal = 15 →
    mapFn s 10 = 14 ∧ mapFn s 14 = 10 ∧ mapFn s 12 = 12 ∧ mapFn s 15 = 14

/-- R128: the walk passes a strip of length 0 without returning and without moving the base, wherever it stands. -/
def Obligations.EmptyStripsHoldNoIndex : Prop :=
  ∀ (l base : Nat) (before after : List Strip) (rev : Bool), base ≤ l →
    mapWalk l base (before ++ ⟨0, rev⟩ :: after) = mapWalk l base (before ++ after)

/-! ## The protocol encoder -/

/-- R161, R162, R66: a step of the bytes sub-encoder over bytes in DATA that the host has not raced. -/
def Obligations.BytesStepWritesBits : Prop :=
  ∀ (h : Nat) (s : State), s.pBase.toNat + s.pLen.toNat ≤ s.params.memBytes → s.raced = [] →
    bitPos s ≤ 8 * s.pLen.toNat →
    ∃ r, bytesStep h s = some r ∧
      r.out = (List.range' (bitPos s) (min (8 * s.pLen.toNat - bitPos s) h)).map (sourceSym s) ∧
      (r.complete = true ↔ 8 * s.pLen.toNat - bitPos s ≤ h) ∧
      (r.memFull = true ↔ h ≤ 8 * s.pLen.toNat - bitPos s) ∧
      (r.complete = true → r.state.pByteIdx = 0 ∧ r.state.pBitIdx = 0) ∧
      (r.complete = false → bitPos r.state = bitPos s + r.out.length) ∧
      r.state = { s with
        memReads := r.state.memReads, pByteIdx := r.state.pByteIdx, pBitIdx := r.state.pBitIdx } ∧
      r.state.memReads = s.memReads ++
        (List.range' (bitPos s / 8)
          (if r.out = [] then 0 else (bitPos s + r.out.length - 1) / 8 + 1 - bitPos s / 8)).map
          (fun j => s.pBase + BitVec.ofNat 24 j)

/-- R163: a step of the copy sub-encoder. -/
def Obligations.CopyStepWritesTheResetSymbol : Prop :=
  ∀ (h : Nat) (s : State),
    (copyStep h s).out = (if s.pRstSent = 0 ∧ 1 ≤ h then [resetSym s.params] else []) ∧
    ((copyStep h s).complete = true ↔ 1 - s.pRstSent.toNat ≤ h) ∧
    ((copyStep h s).memFull = true ↔ h ≤ 1 - s.pRstSent.toNat) ∧
    ((copyStep h s).complete = true → (copyStep h s).state = { s with pRstSent := 0 }) ∧
    ((copyStep h s).complete = false → (copyStep h s).state = s)

/-- R165, R166, R167: an invocation with room writes the next symbols of the stream, as many as fit; `COMPLETE` says
that they were all, `MEM_FULL` that no room is left over; and it resumes where it stopped. -/
def Obligations.InvocationWritesTheHeadOfTheStream : Prop :=
  ∀ (h : Nat) (s : State), 1 ≤ h → s.pBase.toNat + s.pLen.toNat ≤ s.params.memBytes → s.raced = [] →
    s.pRstSent = 0 → bitPos s ≤ 8 * s.pLen.toNat → (s.pSt = .sendReset → bitPos s = 0) →
    ∃ r, invokeEncode h s = some r ∧
      r.out = (streamLeft s).take h ∧
      (r.complete = true ↔ (streamLeft s).length ≤ h) ∧
      (r.memFull = true ↔ h ≤ (streamLeft s).length) ∧
      (r.complete = true → encoderInitial r.state = true) ∧
      (r.complete = false → streamLeft r.state = (streamLeft s).drop h) ∧
      r.state = { s with
        pSt := r.state.pSt, memReads := r.state.memReads, pByteIdx := r.state.pByteIdx
        pBitIdx := r.state.pBitIdx }

/-- R168: however a transmission is cut into invocations, they write the whole stream in total; and enough room in
total brings it to its end. -/
def Obligations.ChunkingDoesNotChangeTheStream : Prop :=
  ∀ (hs : List Nat) (s : State), (∀ h ∈ hs, 1 ≤ h) → encoderInitial s = true → s.raced = [] →
    s.pBase.toNat + s.pLen.toNat ≤ s.params.memBytes →
    ∃ out c, encodeAll hs s = some (out, c) ∧
      (c = true → out = wholeStream s) ∧
      (c = false → out = (wholeStream s).take hs.sum) ∧
      (c = true ↔ (wholeStream s).length ≤ hs.sum) ∧
      (wholeStream s).length = 8 * s.pLen.toNat + 1

/-- R171, R190, R203: after the engine stage of an edge with a transmission in flight the FIFO has not overflowed,
and it is full unless the encoder has completed. -/
def Obligations.EngineFillsTheFifo : Prop :=
  ∀ s t : State, Inv s → s.pBusy = true → engineStage s = .next t →
    t.fQ.length ≤ s.params.symCap ∧ (t.pXDone = false → t.fQ.length = s.params.symCap) ∧
    s.fQ <+: t.fQ ∧ (∀ x ∈ t.fQ, isPencSymbol s.params x)

/-- R171, R36, R170: with `P_BUSY` = 1, `P_XDONE` = 0 and room, the engine stage makes one encode invocation with all
the room there is: it appends what the invocation wrote, adds its count to `P_SYMCNT`, keeps its two flags, and sets
`P_XDONE` when it reports `COMPLETE`. Otherwise it changes nothing but the list of reads, which is the model's (log entry
10). In a safe state the invocation answers, and its flags say whether all that is left of the stream fits in the room
and whether the room is filled (R161, R166), whatever the host has raced. -/
def Obligations.EngineStageTakesOneInvocation : Prop :=
  (∀ s : State, s.pBusy = false ∨ s.pXDone = true ∨ s.params.symCap ≤ s.fQ.length →
    engineStage s = .next { s with memReads := [] }) ∧
  (∀ (s : State) (r : Encoded), s.pBusy = true → s.pXDone = false → s.fQ.length < s.params.symCap →
    invokeEncode (s.params.symCap - s.fQ.length) { s with memReads := [] } = some r →
    engineStage s = .next
      { r.state with
        fQ := s.fQ ++ r.out, pSymCnt := s.pSymCnt + BitVec.ofNat 32 r.out.length
        pLastComplete := r.complete, pLastMemFull := r.memFull, pXDone := r.complete }) ∧
  (∀ s : State, Inv s → s.pBusy = true → s.pXDone = false → s.fQ.length < s.params.symCap →
    ∃ t, engineStage s = .next t ∧
      (t.pLastComplete = true ↔ (streamLeft s).length ≤ s.params.symCap - s.fQ.length) ∧
      (t.pLastMemFull = true ↔ s.params.symCap - s.fQ.length ≤ (streamLeft s).length) ∧
      t.pXDone = t.pLastComplete ∧
      t.fQ.length = s.fQ.length + min (s.params.symCap - s.fQ.length) (streamLeft s).length ∧
      t.pSymCnt.toNat = s.pSymCnt.toNat + min (s.params.symCap - s.fQ.length) (streamLeft s).length)

/-- R66, R71: DATA is read only in an engine stage with `P_BUSY` = 1 and `P_XDONE` = 0, and only in the range. (The
reads of an edge are the model's list `memReads`, log entry 10.) -/
def Obligations.ReadsStayInTheRange : Prop :=
  ∀ s t : State, engineStage s = .next t →
    (s.pBusy = false ∨ s.pXDone = true → t.memReads = []) ∧
    ∀ a ∈ t.memReads, s.pBase.toNat ≤ a.toNat ∧ a.toNat < s.pBase.toNat + s.pLen.toNat

/-- R169: when a transmission finishes, the count of symbols is `8n + 1`. -/
def Obligations.FinishedTransmissionCounts8nPlus1 : Prop :=
  ∀ s t : State, Inv s → s.pBusy = true → (nextInput s).rst = false → step s = .next t → t.pBusy = false →
    t.pDone = true ∧ t.pSymCnt.toNat = 8 * s.pLen.toNat + 1

/-- R70: a write before the transmission is seen; a write in the range during it makes each read of that byte a free
draw of its own, until the transmission ends; a write outside the range never races. (How the model remembers a race and
numbers the draws is its own, log entries 5 and 11.) -/
def Obligations.RacedReadsAreFreeDraws : Prop :=
  (∀ (s : State) (w : HostWrite), w.addr.toNat < s.params.memBytes →
    (∀ a, dataByte (hostWrite s w) a = if a = w.addr.toNat then w.byte else dataByte s a) ∧
    (s.pBusy = true → inRange s w.addr.toNat = true → w.addr.toNat ∈ (hostWrite s w).raced) ∧
    (s.pBusy = false ∨ inRange s w.addr.toNat = false → (hostWrite s w).raced = s.raced)) ∧
  (∀ (s : State) (a : Nat) (g : ReadLog), a < s.params.memBytes →
    (a ∈ s.raced → ∃ g', memRead s a g = some (Config.racedByte g.draws, g') ∧ g'.draws = g.draws + 1) ∧
    (a ∉ s.raced → ∃ g', memRead s a g = some (dataByte s a, g') ∧ g'.draws = g.draws)) ∧
  (∀ (s t : State) (a : Nat), a ∈ s.raced → (nextInput s).rst = false → step s = .next t → t.pBusy = true →
    a ∈ t.raced)

/-! ## The line -/

/-- R194: a symbol taken by a free PGEN drives `level0` for `duration0` ticks and `level1` for `duration1` ticks, and
PGEN is free after them. `k` line stages with nothing else happening give the level of the symbol's tick `k`. -/
def Obligations.SymbolDrivesItsLevels : Prop :=
  ∀ (s : State) (x : Symbol) (rest : List Symbol), s.gLoaded = false → s.fQ = x :: rest → s.hung = false →
    s.params.phyHang = false → 1 ≤ (symDuration0 x).toNat → 1 ≤ (symDuration1 x).toNat →
    ∀ k, k < (symDuration0 x).toNat + (symDuration1 x).toNat →
      (lineStage^[k + 1] s).gDout = (if k < (symDuration0 x).toNat then symLevel0 x else symLevel1 x) ∧
      (lineStage^[k + 1] s).fQ = rest ∧
      ((lineStage^[k + 1] s).gLoaded = false ↔ k + 1 = (symDuration0 x).toNat + (symDuration1 x).toNat)

/-- R195, R196: the line stage with PGEN free and the FIFO empty: completion, underrun, or idle. -/
def Obligations.LineWithNothingToSend : Prop :=
  ∀ s : State, s.gLoaded = false → s.fQ = [] → s.hung = false → s.params.phyHang = false →
    (s.pBusy = true → s.pXDone = true →
      lineStage s = { s with pBusy := false, pDone := true, gDout := s.params.idleLevel, raced := [] }) ∧
    (s.pBusy = true → s.pXDone = false →
      lineStage s = { s with pBusy := false, err := 6, gDout := s.params.idleLevel, raced := [] }) ∧
    (s.pBusy = false → lineStage s = { s with gDout := s.params.idleLevel })

/-- R197: no underrun. After the engine stage of any safe state in a transmission that is not encoded, the line has a
symbol. -/
def Obligations.UnderrunIsUnreachable : Prop :=
  ∀ s t : State, Inv s → engineStage s = .next t →
    ¬ (t.pBusy = true ∧ t.pXDone = false ∧ t.fQ = [] ∧ t.gLoaded = false) ∧ (lineStage t).err = s.err

/-- R198: without `PHY_HANG` the line never freezes; a frozen line keeps `P_BUSY` at 1 and `dout` at its level, and
`P_DONE` unset, until `rst`, whatever the host does. (That it has frozen is the model's own field `hung`, log entry
7.) -/
def Obligations.HungLineWaitsForReset : Prop :=
  (∀ s t : State, s.params.phyHang = false → s.hung = false → step s = .next t → t.hung = false) ∧
  (∀ s t : State, Inv s → s.hung = true → (nextInput s).rst = false → step s = .next t →
    t.hung = true ∧ t.pBusy = true ∧ t.pDone = false ∧ t.gDout = s.gDout) ∧
  (∀ s : State, (nextInput s).rst = true → ∃ t, step s = .next t ∧ t.hung = false ∧ t.pBusy = false)

/-- R194, R199: at an edge of a transmission whose host keeps to R250, whatever command it issues, the line takes the
next level of the levels still to come; and at the edge after the last of them the transmission is done. -/
def Obligations.StepDrivesTheNextLevel : Prop :=
  ∀ s : State, Inv s → s.pBusy = true → s.params.phyHang = false → s.raced = [] → quietInput s (nextInput s) →
    ∃ t, step s = .next t ∧ t.raced = [] ∧ t.pBase = s.pBase ∧ t.pLen = s.pLen ∧
      ((lineFuture s = [] ∧ t.pBusy = false ∧ t.pDone = true ∧ t.gDout = s.params.idleLevel) ∨
       (t.pBusy = true ∧ lineFuture s = t.gDout :: lineFuture t))

/-- R199: from the edge that accepts `PENC.SUBMIT`, the levels on `dout` are the waveform of the buffer's bytes, tick
by tick, with `P_BUSY` = 1, and the edge after them sets `P_DONE`; whatever commands the host issues meanwhile, if it
keeps to R250. -/
def Obligations.SubmitSendsTheWaveform : Prop :=
  ∀ s : State, Inv s → s.pLc = .ready → s.pBusy = false → s.params.phyHang = false →
    s.pBase.toNat + s.pLen.toNat ≤ s.params.memBytes →
    nextInput s = { cmdValid := true, cmdData := 0x15000000 } → (∀ i ∈ s.inbox.tail, quietInput s i) →
    (∀ k l, (waveform s)[k]? = some l →
      ∃ t, Sys2Proof.core.run (k + 1) s = .next t ∧ t.gDout = l ∧ t.pBusy = true) ∧
    ∃ t, Sys2Proof.core.run ((waveform s).length + 1) s = .next t ∧
      t.gDout = s.params.idleLevel ∧ t.pBusy = false ∧ t.pDone = true

/-- R199, R200: with the source's times at 10 MHz, the waveform of `n` bytes lasts `104 n + 800` ticks. -/
def Obligations.WaveformLasts104nPlus800Ticks : Prop :=
  ∀ s : State, s.params.tickHz = 10000000 → s.params.t0hNs = 400 → s.params.t0lNs = 900 →
    s.params.t1hNs = 800 → s.params.t1lNs = 500 → s.params.resetNs = 80000 →
    (waveform s).length = 104 * s.pLen.toNat + 800

/-! ## Whole-machine rules -/

/-- R50, R51, R242: the state after reset is safe. -/
def Obligations.InvHoldsAtReset : Prop := Inv State.reset

/-- R50: every step from a safe state that answers a next state answers a safe one. -/
def Obligations.StepKeepsInv : Prop := ∀ s t : State, Inv s → step s = .next t → Inv t

/-- R62, R217: from a safe state every step answers a next state, whatever the input; no DATA read leaves DATA. -/
def Obligations.SafeStatesNeverStop : Prop := ∀ s : State, Inv s → ∃ t, step s = .next t

/-- R253: no command stops a transmission in flight: none changes what is in flight, the encoder's commands are
refused, and at an edge without `rst` the transmission goes on or finishes. -/
def Obligations.NoCommandStopsATransmission : Prop :=
  (∀ (i : Instr) (s t : State), s.pBusy = true → s.pLc = .ready → exec i s = .next t →
    t = { s with
      err := t.err, ieDone := t.ieDone, ieErr := t.ieErr, tNStrips := t.tNStrips, tStrip := t.tStrip
      tTotal := t.tTotal, tSealed := t.tSealed, tResult := t.tResult, pDone := t.pDone } ∧
    (i = .pencDispose ∨ i = .pencReset ∨ i = .pencSubmit → t = { s with err := 5 })) ∧
  (∀ s t : State, Inv s → s.pBusy = true → (nextInput s).rst = false → step s = .next t →
    t.pBusy = true ∨ t.pDone = true)

/-- R217: an edge with a failing command is, but for `ERR`, the edge with `GLB.NOP` in its place. (Where the host's
writes of the edge fall is the model's choice, log entry 11.) -/
def Obligations.FailingCommandDisturbsNothing : Prop :=
  ∀ (s t : State) (e : ErrCode), (nextInput s).rst = false → (nextInput s).cmdValid = true →
    wordError (nextInput s).cmdData (hostWrites (nextInput s).writesBefore (takeInput s)) = some e →
    step { s with inbox := { nextInput s with cmdData := 0 } :: s.inbox.tail } = .next t →
    ∃ x, step s = .next { t with err := x } ∧ (x = errNumber e ∨ x = 6) ∧ (Inv s → x = errNumber e)

/-- R109, R202, R230: in a safe state with no transmission in flight, an edge without input changes nothing, the line
is idle, and no DATA read is made. -/
def Obligations.QuiescentStateDoesNotChange : Prop :=
  ∀ s : State, Inv s → s.pBusy = false → nextInput s = {} →
    step s = .next { s with inbox := s.inbox.tail, memReads := [] } ∧ s.gDout = s.params.idleLevel

/-! ## What the host sees -/

/-- R43: the fields of `STATUS`, bit by bit. -/
def Obligations.StatusFields : Prop :=
  ∀ s : State,
    (readPort s 0).getLsbD 0 = s.pBusy ∧ (readPort s 0).getLsbD 1 = s.pDone ∧
    (readPort s 0).getLsbD 2 = s.pXDone ∧ ((readPort s 0).getLsbD 3 = true ↔ s.pSt = .sendReset) ∧
    ((readPort s 0).getLsbD 4 = true ↔ s.pLc = .ready) ∧ (readPort s 0).getLsbD 5 = s.pLastComplete ∧
    (readPort s 0).getLsbD 6 = s.pLastMemFull ∧ (readPort s 0).getLsbD 7 = s.tSealed ∧
    (readPort s 0).extractLsb' 8 4 = s.err ∧ (readPort s 0).getLsbD 12 = s.ieDone ∧
    (readPort s 0).getLsbD 13 = s.ieErr ∧
    (readPort s 0).getLsbD 14 = ((s.ieDone && s.pDone) || (s.ieErr && s.err != 0)) ∧
    (readPort s 0).extractLsb' 15 17 = 0

/-- R44, R46, R47, R48 and the reserved index of R42: the other registers, each read whole as a number. -/
def Obligations.OtherRegisters : Prop :=
  ∀ s : State,
    (readPort s 1).toNat = s.pBase.toNat ∧ (readPort s 2).toNat = s.pLen.toNat ∧
    (readPort s 3).toNat = s.pByteIdx.toNat + 2 ^ 24 * s.pBitIdx.toNat + 2 ^ 27 * s.pRstSent.toNat ∧
    readPort s 4 = s.pSymCnt ∧ (readPort s 5).toNat = s.fQ.length % 2048 ∧
    (readPort s 0x0A).toNat = s.tNStrips.toNat ∧ (readPort s 0x0B).toNat = s.tTotal.toNat ∧
    (readPort s 0x0C).toNat = s.tResult.toNat ∧
    (readPort s 0x0D).toNat = s.gLoaded.toNat + 2 * s.gHalf.toNat + 4 * s.gDout.toNat + 2 ^ 16 * s.gRem.toNat ∧
    readPort s 0x0E = 0x52470001 ∧ readPort s 0x0F = 0 ∧
    ∀ i : Nat, i < 16 → (readPort s (BitVec.ofNat 5 (16 + i))).toNat =
      if i < s.params.maxStrips then
        match s.tStrip[i]? with
        | some st => st.len.toNat + 2 ^ 16 * st.rev.toNat
        | none => 0
      else 0

/-- R45, R7, R153: the parameter registers and the three symbols, at any parameters and at the defaults. -/
def Obligations.ParameterRegisters : Prop :=
  ∀ s : State,
    (readPort s 6).toNat = s.params.t0h + 2 ^ 16 * s.params.t0l ∧
    (readPort s 7).toNat = s.params.t1h + 2 ^ 16 * s.params.t1l ∧
    (readPort s 8).toNat = s.params.resetTicks ∧
    (readPort s 9).toNat = s.params.symCap + 2 ^ 16 * s.params.maxStrips ∧
    (s.params = { memBytes := s.params.memBytes } →
      readPort s 6 = 0x00090004 ∧ readPort s 7 = 0x00050008 ∧ readPort s 8 = 0x00000320 ∧
      readPort s 9 = 0x00080040 ∧ bit0Sym s.params = 0x00098004 ∧ bit1Sym s.params = 0x00058008 ∧
      resetSym s.params = 0x01900190)

/-- R153, R89: the halves of the three symbols at every legal parameter set. -/
def Obligations.SymbolHalves : Prop :=
  ∀ b : Build,
    (symLevel0 (bit0Sym b.val) = true ∧ (symDuration0 (bit0Sym b.val)).toNat = b.val.t0h ∧
      symLevel1 (bit0Sym b.val) = false ∧ (symDuration1 (bit0Sym b.val)).toNat = b.val.t0l) ∧
    (symLevel0 (bit1Sym b.val) = true ∧ (symDuration0 (bit1Sym b.val)).toNat = b.val.t1h ∧
      symLevel1 (bit1Sym b.val) = false ∧ (symDuration1 (bit1Sym b.val)).toNat = b.val.t1l) ∧
    (symLevel0 (resetSym b.val) = false ∧ symLevel1 (resetSym b.val) = false ∧
      (symDuration0 (resetSym b.val)).toNat = b.val.resetTicks / 2 ∧
      (symDuration0 (resetSym b.val)).toNat + (symDuration1 (resetSym b.val)).toNat = b.val.resetTicks)

/-- R220, R221: the interrupt line follows the state: `GLB.SETIE` shows exactly the terms it enables, at once, for all
four operand pairs, and clearing a condition clears its term. -/
def Obligations.IrqFollowsTheState : Prop :=
  ∀ s : State, ∀ rdAddr mapIn,
    ((outputs s rdAddr mapIn).irq = true ↔ (s.ieDone = true ∧ s.pDone = true) ∨ (s.ieErr = true ∧ s.err ≠ 0)) ∧
    (∀ ied iee, ∃ t, exec (.glbSetie ied iee) s = .next t ∧
      (irq t = true ↔ (ied = true ∧ s.pDone = true) ∨ (iee = true ∧ s.err ≠ 0))) ∧
    (∃ t, exec .pencClrdone s = .next t ∧ irq t = (s.ieErr && decide (s.err ≠ 0))) ∧
    (∃ t, exec .glbClrerr s = .next t ∧ irq t = (s.ieDone && s.pDone))

/-- R40, R41, R100: `cmd_ready` is always 1, `dout` is `G_DOUT`, `rd_data` is the register that `rd_addr` selects; at an
edge with `rst` = 1 `dout` becomes `IDLE_LEVEL` and no DATA read is made (R240). (The memory port as a list of reads is
the model's choice, log entry 10.) -/
def Obligations.OutputsShowTheState : Prop :=
  ∀ (s : State) (rdAddr : BitVec 5) (mapIn : Idx),
    (outputs s rdAddr mapIn).cmdReady = true ∧ (outputs s rdAddr mapIn).dout = s.gDout ∧
    (outputs s rdAddr mapIn).rdData = readPort s rdAddr ∧ (outputs s rdAddr mapIn).memReads = s.memReads ∧
    ((nextInput s).rst = true →
      ∃ t, step s = .next t ∧ (outputs t rdAddr mapIn).dout = s.params.idleLevel ∧
        (outputs t rdAddr mapIn).memReads = [])
end

