-- ==== Sys2Proof/Laws/Decode.lean ====
section
/-! SUPPORT. The decoder's search, opened once: a row fits a word when the word's `OPC` is the row's and the masked
operand bits are 0 (spec/30_encoding.md rules R81 and R84). -/

namespace Sys2Proof

/-- A word is its opcode followed by its 24 operand bits. -/
theorem word_split (w : Word) : ((opcField w ++ imm24Field w : BitVec (8 + 24)) : Word) = w := by
  have h : (opcField w ++ imm24Field w : BitVec (8 + 24)).toNat = w.toNat := by
    have := w.isLt
    rw [BitVec.toNat_append, ← Nat.shiftLeft_add_eq_or_of_lt (imm24Field w).isLt]
    simp only [opcField, imm24Field, BitVec.extractLsb'_toNat, Nat.shiftRight_eq_div_pow, Nat.shiftLeft_eq]
    omega
  exact BitVec.eq_of_toNat_eq h

@[simp] theorem opcField_append (opc : BitVec 8) (x : BitVec 24) :
    opcField ((opc ++ x : BitVec (8 + 24)) : Word) = opc := by
  have h : (opcField ((opc ++ x : BitVec (8 + 24)) : Word)).toNat = opc.toNat := by
    have := opc.isLt
    have := x.isLt
    have e : ((opc ++ x : BitVec (8 + 24)) : Word).toNat = opc.toNat * 2 ^ 24 + x.toNat := by
      rw [show ((opc ++ x : BitVec (8 + 24)) : Word).toNat = (opc ++ x : BitVec (8 + 24)).toNat from rfl,
        BitVec.toNat_append, ← Nat.shiftLeft_add_eq_or_of_lt x.isLt, Nat.shiftLeft_eq]
    simp only [opcField, BitVec.extractLsb'_toNat, Nat.shiftRight_eq_div_pow, e]
    omega
  exact BitVec.eq_of_toNat_eq h

@[simp] theorem imm24Field_append (opc : BitVec 8) (x : BitVec 24) :
    imm24Field ((opc ++ x : BitVec (8 + 24)) : Word) = x := by
  have h : (imm24Field ((opc ++ x : BitVec (8 + 24)) : Word)).toNat = x.toNat := by
    have := x.isLt
    have e : ((opc ++ x : BitVec (8 + 24)) : Word).toNat = opc.toNat * 2 ^ 24 + x.toNat := by
      rw [show ((opc ++ x : BitVec (8 + 24)) : Word).toNat = (opc ++ x : BitVec (8 + 24)).toNat from rfl,
        BitVec.toNat_append, ← Nat.shiftLeft_add_eq_or_of_lt x.isLt, Nat.shiftLeft_eq]
    simp only [imm24Field, BitVec.extractLsb'_toNat, e, Nat.shiftRight_zero]
    omega
  exact BitVec.eq_of_toNat_eq h

/-- Two words are equal when their opcodes and their operand bits are. -/
theorem word_ext {v w : Word} (ho : opcField v = opcField w) (hx : imm24Field v = imm24Field w) : v = w := by
  rw [← word_split v, ← word_split w, ho, hx]

/-- Masking with a mask that covers the whole opcode. -/
theorem and_mask_split (w : Word) (m : BitVec 24) :
    w &&& ((0xFF#8 ++ m : BitVec (8 + 24)) : Word) =
      ((opcField w ++ (imm24Field w &&& m) : BitVec (8 + 24)) : Word) := by
  have h8 : opcField w &&& 0xFF#8 = opcField w := by
    have := BitVec.and_allOnes (x := opcField w)
    simpa using this
  have e := BitVec.and_append (x₁ := opcField w) (x₂ := 0xFF#8) (y₁ := imm24Field w) (y₂ := m)
  rw [h8] at e
  have ew := word_split w
  exact (congrArg (· &&& ((0xFF#8 ++ m : BitVec (8 + 24)) : Word)) ew.symm).trans e

/-- When a row fits: the word's `OPC` is the row's, and the operand bits under the mask are 0. -/
theorem fits_iff (w : Word) (p : BitVec 8) (m : BitVec 24) :
    w &&& ((0xFF#8 ++ m : BitVec (8 + 24)) : Word) = ((p ++ 0#24 : BitVec (8 + 24)) : Word) ↔
      opcField w = p ∧ imm24Field w &&& m = 0 := by
  rw [and_mask_split]
  constructor
  · intro h
    exact ⟨by simpa using congrArg opcField h, by simpa using congrArg imm24Field h⟩
  · rintro ⟨rfl, h⟩
    rw [h]
    rfl

/-- The opcodes of the map's rows, in order (R83). -/
def rowOpcodes : List (BitVec 8) :=
  [0x00, 0x01, 0x02, 0x10, 0x11, 0x12, 0x13, 0x14, 0x15, 0x16, 0x20, 0x21, 0x22, 0x23]

/-- The operand bits that must be 0 in the map's rows, in order (R81). -/
def rowReserved : List (BitVec 24) :=
  [0xFFFFFF, 0xFFFFFF, 0xFFFFFC, 0xFFFFFF, 0xFFFFFF, 0xFFFFFF, 0, 0, 0xFFFFFF, 0xFFFFFF, 0xFFFFFF, 0xFE0000,
    0xFFFFFF, 0xFF0000]

theorem opcodeMap_length : opcodeMap.length = 14 := rfl

/-- Row `k` of the map. -/
def mapRow (k : Fin 14) : OpcodeRow := opcodeMap.get (k.cast opcodeMap_length.symm)

theorem mem_opcodeMap {r : OpcodeRow} : r ∈ opcodeMap ↔ ∃ k, r = mapRow k := by
  rw [List.mem_iff_get]
  exact ⟨fun ⟨k, h⟩ => ⟨k.cast opcodeMap_length, h.symm⟩, fun ⟨k, h⟩ => ⟨k.cast opcodeMap_length.symm, h.symm⟩⟩

/-- When row `k` of the map fits a word. -/
theorem mapRow_fits_iff (w : Word) (k : Fin 14) :
    rowFits w (mapRow k) = true ↔ opcField w = rowOpcodes[k] ∧ imm24Field w &&& rowReserved[k] = 0 := by
  rw [← fits_iff, rowFits, beq_iff_eq]
  fin_cases k <;> exact Iff.rfl

/-- A word that decodes fits the row it decodes by. -/
theorem decodeRows_some {w : Word} {i : Instr} : ∀ {rows : List OpcodeRow}, decodeRows w rows = some i →
    ∃ r ∈ rows, rowFits w r = true ∧ i = r.build w
  | [], h => nomatch h
  | r :: rest, h => by
    rw [decodeRows] at h
    split at h
    · rename_i hr
      cases h
      exact ⟨r, .head _, hr, rfl⟩
    · obtain ⟨r', hm, hf, hi⟩ := decodeRows_some h
      exact ⟨r', .tail _ hm, hf, hi⟩

/-- A word is refused exactly when it fits no row. -/
theorem decodeRows_none {w : Word} : ∀ {rows : List OpcodeRow},
    decodeRows w rows = none ↔ ∀ r ∈ rows, rowFits w r = false
  | [] => by simp [decodeRows]
  | r :: rest => by
    rw [decodeRows]
    split
    · rename_i hr
      simp [hr]
    · rename_i hr
      simp [decodeRows_none, hr]

theorem decode_eq_ok {w : Word} {i : Instr} : decode w = .ok i ↔ decodeRows w opcodeMap = some i := by
  rw [decode]
  cases decodeRows w opcodeMap <;> simp

theorem decode_eq_error {w : Word} : (∃ e, decode w = .error e) ↔ decodeRows w opcodeMap = none := by
  rw [decode]
  cases decodeRows w opcodeMap <;> simp

end Sys2Proof
end

