-- ==== Sys2Proof/Laws/State.lean ====
section
/-! SUPPORT. The named updates of State, field by field: each true by unfolding, and tagged for `simp`, so that no later
proof unfolds a record update. -/

namespace Sys2Proof.Machine

/-! ### raiseErr -/

@[simp] theorem raiseErr_err (e : ErrCode) (s : State) : (raiseErr e s).err = errNumber e := rfl
@[simp] theorem raiseErr_ieDone (e : ErrCode) (s : State) : (raiseErr e s).ieDone = s.ieDone := rfl
@[simp] theorem raiseErr_ieErr (e : ErrCode) (s : State) : (raiseErr e s).ieErr = s.ieErr := rfl
@[simp] theorem raiseErr_tNStrips (e : ErrCode) (s : State) : (raiseErr e s).tNStrips = s.tNStrips := rfl
@[simp] theorem raiseErr_tStrip (e : ErrCode) (s : State) : (raiseErr e s).tStrip = s.tStrip := rfl
@[simp] theorem raiseErr_tTotal (e : ErrCode) (s : State) : (raiseErr e s).tTotal = s.tTotal := rfl
@[simp] theorem raiseErr_tSealed (e : ErrCode) (s : State) : (raiseErr e s).tSealed = s.tSealed := rfl
@[simp] theorem raiseErr_tResult (e : ErrCode) (s : State) : (raiseErr e s).tResult = s.tResult := rfl
@[simp] theorem raiseErr_pLc (e : ErrCode) (s : State) : (raiseErr e s).pLc = s.pLc := rfl
@[simp] theorem raiseErr_pSt (e : ErrCode) (s : State) : (raiseErr e s).pSt = s.pSt := rfl
@[simp] theorem raiseErr_pByteIdx (e : ErrCode) (s : State) : (raiseErr e s).pByteIdx = s.pByteIdx := rfl
@[simp] theorem raiseErr_pBitIdx (e : ErrCode) (s : State) : (raiseErr e s).pBitIdx = s.pBitIdx := rfl
@[simp] theorem raiseErr_pRstSent (e : ErrCode) (s : State) : (raiseErr e s).pRstSent = s.pRstSent := rfl
@[simp] theorem raiseErr_pBase (e : ErrCode) (s : State) : (raiseErr e s).pBase = s.pBase := rfl
@[simp] theorem raiseErr_pLen (e : ErrCode) (s : State) : (raiseErr e s).pLen = s.pLen := rfl
@[simp] theorem raiseErr_pBusy (e : ErrCode) (s : State) : (raiseErr e s).pBusy = s.pBusy := rfl
@[simp] theorem raiseErr_pDone (e : ErrCode) (s : State) : (raiseErr e s).pDone = s.pDone := rfl
@[simp] theorem raiseErr_pXDone (e : ErrCode) (s : State) : (raiseErr e s).pXDone = s.pXDone := rfl
@[simp] theorem raiseErr_pLastComplete (e : ErrCode) (s : State) : (raiseErr e s).pLastComplete = s.pLastComplete := rfl
@[simp] theorem raiseErr_pLastMemFull (e : ErrCode) (s : State) : (raiseErr e s).pLastMemFull = s.pLastMemFull := rfl
@[simp] theorem raiseErr_pSymCnt (e : ErrCode) (s : State) : (raiseErr e s).pSymCnt = s.pSymCnt := rfl
@[simp] theorem raiseErr_fQ (e : ErrCode) (s : State) : (raiseErr e s).fQ = s.fQ := rfl
@[simp] theorem raiseErr_gLoaded (e : ErrCode) (s : State) : (raiseErr e s).gLoaded = s.gLoaded := rfl
@[simp] theorem raiseErr_gSym (e : ErrCode) (s : State) : (raiseErr e s).gSym = s.gSym := rfl
@[simp] theorem raiseErr_gHalf (e : ErrCode) (s : State) : (raiseErr e s).gHalf = s.gHalf := rfl
@[simp] theorem raiseErr_gRem (e : ErrCode) (s : State) : (raiseErr e s).gRem = s.gRem := rfl
@[simp] theorem raiseErr_gDout (e : ErrCode) (s : State) : (raiseErr e s).gDout = s.gDout := rfl
@[simp] theorem raiseErr_build (e : ErrCode) (s : State) : (raiseErr e s).build = s.build := rfl
@[simp] theorem raiseErr_mem (e : ErrCode) (s : State) : (raiseErr e s).mem = s.mem := rfl
@[simp] theorem raiseErr_memReads (e : ErrCode) (s : State) : (raiseErr e s).memReads = s.memReads := rfl
@[simp] theorem raiseErr_inbox (e : ErrCode) (s : State) : (raiseErr e s).inbox = s.inbox := rfl
@[simp] theorem raiseErr_raced (e : ErrCode) (s : State) : (raiseErr e s).raced = s.raced := rfl
@[simp] theorem raiseErr_hung (e : ErrCode) (s : State) : (raiseErr e s).hung = s.hung := rfl
@[simp] theorem raiseErr_draws (e : ErrCode) (s : State) : (raiseErr e s).draws = s.draws := rfl

/-! ### clearErr -/

@[simp] theorem clearErr_err (s : State) : (clearErr s).err = 0 := rfl
@[simp] theorem clearErr_ieDone (s : State) : (clearErr s).ieDone = s.ieDone := rfl
@[simp] theorem clearErr_ieErr (s : State) : (clearErr s).ieErr = s.ieErr := rfl
@[simp] theorem clearErr_tNStrips (s : State) : (clearErr s).tNStrips = s.tNStrips := rfl
@[simp] theorem clearErr_tStrip (s : State) : (clearErr s).tStrip = s.tStrip := rfl
@[simp] theorem clearErr_tTotal (s : State) : (clearErr s).tTotal = s.tTotal := rfl
@[simp] theorem clearErr_tSealed (s : State) : (clearErr s).tSealed = s.tSealed := rfl
@[simp] theorem clearErr_tResult (s : State) : (clearErr s).tResult = s.tResult := rfl
@[simp] theorem clearErr_pLc (s : State) : (clearErr s).pLc = s.pLc := rfl
@[simp] theorem clearErr_pSt (s : State) : (clearErr s).pSt = s.pSt := rfl
@[simp] theorem clearErr_pByteIdx (s : State) : (clearErr s).pByteIdx = s.pByteIdx := rfl
@[simp] theorem clearErr_pBitIdx (s : State) : (clearErr s).pBitIdx = s.pBitIdx := rfl
@[simp] theorem clearErr_pRstSent (s : State) : (clearErr s).pRstSent = s.pRstSent := rfl
@[simp] theorem clearErr_pBase (s : State) : (clearErr s).pBase = s.pBase := rfl
@[simp] theorem clearErr_pLen (s : State) : (clearErr s).pLen = s.pLen := rfl
@[simp] theorem clearErr_pBusy (s : State) : (clearErr s).pBusy = s.pBusy := rfl
@[simp] theorem clearErr_pDone (s : State) : (clearErr s).pDone = s.pDone := rfl
@[simp] theorem clearErr_pXDone (s : State) : (clearErr s).pXDone = s.pXDone := rfl
@[simp] theorem clearErr_pLastComplete (s : State) : (clearErr s).pLastComplete = s.pLastComplete := rfl
@[simp] theorem clearErr_pLastMemFull (s : State) : (clearErr s).pLastMemFull = s.pLastMemFull := rfl
@[simp] theorem clearErr_pSymCnt (s : State) : (clearErr s).pSymCnt = s.pSymCnt := rfl
@[simp] theorem clearErr_fQ (s : State) : (clearErr s).fQ = s.fQ := rfl
@[simp] theorem clearErr_gLoaded (s : State) : (clearErr s).gLoaded = s.gLoaded := rfl
@[simp] theorem clearErr_gSym (s : State) : (clearErr s).gSym = s.gSym := rfl
@[simp] theorem clearErr_gHalf (s : State) : (clearErr s).gHalf = s.gHalf := rfl
@[simp] theorem clearErr_gRem (s : State) : (clearErr s).gRem = s.gRem := rfl
@[simp] theorem clearErr_gDout (s : State) : (clearErr s).gDout = s.gDout := rfl
@[simp] theorem clearErr_build (s : State) : (clearErr s).build = s.build := rfl
@[simp] theorem clearErr_mem (s : State) : (clearErr s).mem = s.mem := rfl
@[simp] theorem clearErr_memReads (s : State) : (clearErr s).memReads = s.memReads := rfl
@[simp] theorem clearErr_inbox (s : State) : (clearErr s).inbox = s.inbox := rfl
@[simp] theorem clearErr_raced (s : State) : (clearErr s).raced = s.raced := rfl
@[simp] theorem clearErr_hung (s : State) : (clearErr s).hung = s.hung := rfl
@[simp] theorem clearErr_draws (s : State) : (clearErr s).draws = s.draws := rfl

/-! ### clearTopology -/

@[simp] theorem clearTopology_err (s : State) : (clearTopology s).err = s.err := rfl
@[simp] theorem clearTopology_ieDone (s : State) : (clearTopology s).ieDone = s.ieDone := rfl
@[simp] theorem clearTopology_ieErr (s : State) : (clearTopology s).ieErr = s.ieErr := rfl
@[simp] theorem clearTopology_tNStrips (s : State) : (clearTopology s).tNStrips = 0 := rfl
@[simp] theorem clearTopology_tStrip (s : State) : (clearTopology s).tStrip = List.replicate s.params.maxStrips ⟨0, false⟩ := rfl
@[simp] theorem clearTopology_tTotal (s : State) : (clearTopology s).tTotal = 0 := rfl
@[simp] theorem clearTopology_tSealed (s : State) : (clearTopology s).tSealed = s.tSealed := rfl
@[simp] theorem clearTopology_tResult (s : State) : (clearTopology s).tResult = s.tResult := rfl
@[simp] theorem clearTopology_pLc (s : State) : (clearTopology s).pLc = s.pLc := rfl
@[simp] theorem clearTopology_pSt (s : State) : (clearTopology s).pSt = s.pSt := rfl
@[simp] theorem clearTopology_pByteIdx (s : State) : (clearTopology s).pByteIdx = s.pByteIdx := rfl
@[simp] theorem clearTopology_pBitIdx (s : State) : (clearTopology s).pBitIdx = s.pBitIdx := rfl
@[simp] theorem clearTopology_pRstSent (s : State) : (clearTopology s).pRstSent = s.pRstSent := rfl
@[simp] theorem clearTopology_pBase (s : State) : (clearTopology s).pBase = s.pBase := rfl
@[simp] theorem clearTopology_pLen (s : State) : (clearTopology s).pLen = s.pLen := rfl
@[simp] theorem clearTopology_pBusy (s : State) : (clearTopology s).pBusy = s.pBusy := rfl
@[simp] theorem clearTopology_pDone (s : State) : (clearTopology s).pDone = s.pDone := rfl
@[simp] theorem clearTopology_pXDone (s : State) : (clearTopology s).pXDone = s.pXDone := rfl
@[simp] theorem clearTopology_pLastComplete (s : State) : (clearTopology s).pLastComplete = s.pLastComplete := rfl
@[simp] theorem clearTopology_pLastMemFull (s : State) : (clearTopology s).pLastMemFull = s.pLastMemFull := rfl
@[simp] theorem clearTopology_pSymCnt (s : State) : (clearTopology s).pSymCnt = s.pSymCnt := rfl
@[simp] theorem clearTopology_fQ (s : State) : (clearTopology s).fQ = s.fQ := rfl
@[simp] theorem clearTopology_gLoaded (s : State) : (clearTopology s).gLoaded = s.gLoaded := rfl
@[simp] theorem clearTopology_gSym (s : State) : (clearTopology s).gSym = s.gSym := rfl
@[simp] theorem clearTopology_gHalf (s : State) : (clearTopology s).gHalf = s.gHalf := rfl
@[simp] theorem clearTopology_gRem (s : State) : (clearTopology s).gRem = s.gRem := rfl
@[simp] theorem clearTopology_gDout (s : State) : (clearTopology s).gDout = s.gDout := rfl
@[simp] theorem clearTopology_build (s : State) : (clearTopology s).build = s.build := rfl
@[simp] theorem clearTopology_mem (s : State) : (clearTopology s).mem = s.mem := rfl
@[simp] theorem clearTopology_memReads (s : State) : (clearTopology s).memReads = s.memReads := rfl
@[simp] theorem clearTopology_inbox (s : State) : (clearTopology s).inbox = s.inbox := rfl
@[simp] theorem clearTopology_raced (s : State) : (clearTopology s).raced = s.raced := rfl
@[simp] theorem clearTopology_hung (s : State) : (clearTopology s).hung = s.hung := rfl
@[simp] theorem clearTopology_draws (s : State) : (clearTopology s).draws = s.draws := rfl

/-! ### appendStrip -/

@[simp] theorem appendStrip_err (st : Strip) (s : State) : (appendStrip st s).err = s.err := rfl
@[simp] theorem appendStrip_ieDone (st : Strip) (s : State) : (appendStrip st s).ieDone = s.ieDone := rfl
@[simp] theorem appendStrip_ieErr (st : Strip) (s : State) : (appendStrip st s).ieErr = s.ieErr := rfl
@[simp] theorem appendStrip_tNStrips (st : Strip) (s : State) : (appendStrip st s).tNStrips = s.tNStrips + 1 := rfl
@[simp] theorem appendStrip_tStrip (st : Strip) (s : State) : (appendStrip st s).tStrip = s.tStrip.set s.tNStrips.toNat st := rfl
@[simp] theorem appendStrip_tTotal (st : Strip) (s : State) : (appendStrip st s).tTotal = s.tTotal + st.len := rfl
@[simp] theorem appendStrip_tSealed (st : Strip) (s : State) : (appendStrip st s).tSealed = s.tSealed := rfl
@[simp] theorem appendStrip_tResult (st : Strip) (s : State) : (appendStrip st s).tResult = s.tResult := rfl
@[simp] theorem appendStrip_pLc (st : Strip) (s : State) : (appendStrip st s).pLc = s.pLc := rfl
@[simp] theorem appendStrip_pSt (st : Strip) (s : State) : (appendStrip st s).pSt = s.pSt := rfl
@[simp] theorem appendStrip_pByteIdx (st : Strip) (s : State) : (appendStrip st s).pByteIdx = s.pByteIdx := rfl
@[simp] theorem appendStrip_pBitIdx (st : Strip) (s : State) : (appendStrip st s).pBitIdx = s.pBitIdx := rfl
@[simp] theorem appendStrip_pRstSent (st : Strip) (s : State) : (appendStrip st s).pRstSent = s.pRstSent := rfl
@[simp] theorem appendStrip_pBase (st : Strip) (s : State) : (appendStrip st s).pBase = s.pBase := rfl
@[simp] theorem appendStrip_pLen (st : Strip) (s : State) : (appendStrip st s).pLen = s.pLen := rfl
@[simp] theorem appendStrip_pBusy (st : Strip) (s : State) : (appendStrip st s).pBusy = s.pBusy := rfl
@[simp] theorem appendStrip_pDone (st : Strip) (s : State) : (appendStrip st s).pDone = s.pDone := rfl
@[simp] theorem appendStrip_pXDone (st : Strip) (s : State) : (appendStrip st s).pXDone = s.pXDone := rfl
@[simp] theorem appendStrip_pLastComplete (st : Strip) (s : State) : (appendStrip st s).pLastComplete = s.pLastComplete := rfl
@[simp] theorem appendStrip_pLastMemFull (st : Strip) (s : State) : (appendStrip st s).pLastMemFull = s.pLastMemFull := rfl
@[simp] theorem appendStrip_pSymCnt (st : Strip) (s : State) : (appendStrip st s).pSymCnt = s.pSymCnt := rfl
@[simp] theorem appendStrip_fQ (st : Strip) (s : State) : (appendStrip st s).fQ = s.fQ := rfl
@[simp] theorem appendStrip_gLoaded (st : Strip) (s : State) : (appendStrip st s).gLoaded = s.gLoaded := rfl
@[simp] theorem appendStrip_gSym (st : Strip) (s : State) : (appendStrip st s).gSym = s.gSym := rfl
@[simp] theorem appendStrip_gHalf (st : Strip) (s : State) : (appendStrip st s).gHalf = s.gHalf := rfl
@[simp] theorem appendStrip_gRem (st : Strip) (s : State) : (appendStrip st s).gRem = s.gRem := rfl
@[simp] theorem appendStrip_gDout (st : Strip) (s : State) : (appendStrip st s).gDout = s.gDout := rfl
@[simp] theorem appendStrip_build (st : Strip) (s : State) : (appendStrip st s).build = s.build := rfl
@[simp] theorem appendStrip_mem (st : Strip) (s : State) : (appendStrip st s).mem = s.mem := rfl
@[simp] theorem appendStrip_memReads (st : Strip) (s : State) : (appendStrip st s).memReads = s.memReads := rfl
@[simp] theorem appendStrip_inbox (st : Strip) (s : State) : (appendStrip st s).inbox = s.inbox := rfl
@[simp] theorem appendStrip_raced (st : Strip) (s : State) : (appendStrip st s).raced = s.raced := rfl
@[simp] theorem appendStrip_hung (st : Strip) (s : State) : (appendStrip st s).hung = s.hung := rfl
@[simp] theorem appendStrip_draws (st : Strip) (s : State) : (appendStrip st s).draws = s.draws := rfl

/-! ### initEncoder -/

@[simp] theorem initEncoder_err (s : State) : (initEncoder s).err = s.err := rfl
@[simp] theorem initEncoder_ieDone (s : State) : (initEncoder s).ieDone = s.ieDone := rfl
@[simp] theorem initEncoder_ieErr (s : State) : (initEncoder s).ieErr = s.ieErr := rfl
@[simp] theorem initEncoder_tNStrips (s : State) : (initEncoder s).tNStrips = s.tNStrips := rfl
@[simp] theorem initEncoder_tStrip (s : State) : (initEncoder s).tStrip = s.tStrip := rfl
@[simp] theorem initEncoder_tTotal (s : State) : (initEncoder s).tTotal = s.tTotal := rfl
@[simp] theorem initEncoder_tSealed (s : State) : (initEncoder s).tSealed = s.tSealed := rfl
@[simp] theorem initEncoder_tResult (s : State) : (initEncoder s).tResult = s.tResult := rfl
@[simp] theorem initEncoder_pLc (s : State) : (initEncoder s).pLc = s.pLc := rfl
@[simp] theorem initEncoder_pSt (s : State) : (initEncoder s).pSt = .sendData := rfl
@[simp] theorem initEncoder_pByteIdx (s : State) : (initEncoder s).pByteIdx = 0 := rfl
@[simp] theorem initEncoder_pBitIdx (s : State) : (initEncoder s).pBitIdx = 0 := rfl
@[simp] theorem initEncoder_pRstSent (s : State) : (initEncoder s).pRstSent = 0 := rfl
@[simp] theorem initEncoder_pBase (s : State) : (initEncoder s).pBase = s.pBase := rfl
@[simp] theorem initEncoder_pLen (s : State) : (initEncoder s).pLen = s.pLen := rfl
@[simp] theorem initEncoder_pBusy (s : State) : (initEncoder s).pBusy = s.pBusy := rfl
@[simp] theorem initEncoder_pDone (s : State) : (initEncoder s).pDone = s.pDone := rfl
@[simp] theorem initEncoder_pXDone (s : State) : (initEncoder s).pXDone = s.pXDone := rfl
@[simp] theorem initEncoder_pLastComplete (s : State) : (initEncoder s).pLastComplete = s.pLastComplete := rfl
@[simp] theorem initEncoder_pLastMemFull (s : State) : (initEncoder s).pLastMemFull = s.pLastMemFull := rfl
@[simp] theorem initEncoder_pSymCnt (s : State) : (initEncoder s).pSymCnt = s.pSymCnt := rfl
@[simp] theorem initEncoder_fQ (s : State) : (initEncoder s).fQ = s.fQ := rfl
@[simp] theorem initEncoder_gLoaded (s : State) : (initEncoder s).gLoaded = s.gLoaded := rfl
@[simp] theorem initEncoder_gSym (s : State) : (initEncoder s).gSym = s.gSym := rfl
@[simp] theorem initEncoder_gHalf (s : State) : (initEncoder s).gHalf = s.gHalf := rfl
@[simp] theorem initEncoder_gRem (s : State) : (initEncoder s).gRem = s.gRem := rfl
@[simp] theorem initEncoder_gDout (s : State) : (initEncoder s).gDout = s.gDout := rfl
@[simp] theorem initEncoder_build (s : State) : (initEncoder s).build = s.build := rfl
@[simp] theorem initEncoder_mem (s : State) : (initEncoder s).mem = s.mem := rfl
@[simp] theorem initEncoder_memReads (s : State) : (initEncoder s).memReads = s.memReads := rfl
@[simp] theorem initEncoder_inbox (s : State) : (initEncoder s).inbox = s.inbox := rfl
@[simp] theorem initEncoder_raced (s : State) : (initEncoder s).raced = s.raced := rfl
@[simp] theorem initEncoder_hung (s : State) : (initEncoder s).hung = s.hung := rfl
@[simp] theorem initEncoder_draws (s : State) : (initEncoder s).draws = s.draws := rfl

/-! ### startTransmission -/

@[simp] theorem startTransmission_err (s : State) : (startTransmission s).err = s.err := rfl
@[simp] theorem startTransmission_ieDone (s : State) : (startTransmission s).ieDone = s.ieDone := rfl
@[simp] theorem startTransmission_ieErr (s : State) : (startTransmission s).ieErr = s.ieErr := rfl
@[simp] theorem startTransmission_tNStrips (s : State) : (startTransmission s).tNStrips = s.tNStrips := rfl
@[simp] theorem startTransmission_tStrip (s : State) : (startTransmission s).tStrip = s.tStrip := rfl
@[simp] theorem startTransmission_tTotal (s : State) : (startTransmission s).tTotal = s.tTotal := rfl
@[simp] theorem startTransmission_tSealed (s : State) : (startTransmission s).tSealed = s.tSealed := rfl
@[simp] theorem startTransmission_tResult (s : State) : (startTransmission s).tResult = s.tResult := rfl
@[simp] theorem startTransmission_pLc (s : State) : (startTransmission s).pLc = s.pLc := rfl
@[simp] theorem startTransmission_pSt (s : State) : (startTransmission s).pSt = s.pSt := rfl
@[simp] theorem startTransmission_pByteIdx (s : State) : (startTransmission s).pByteIdx = s.pByteIdx := rfl
@[simp] theorem startTransmission_pBitIdx (s : State) : (startTransmission s).pBitIdx = s.pBitIdx := rfl
@[simp] theorem startTransmission_pRstSent (s : State) : (startTransmission s).pRstSent = s.pRstSent := rfl
@[simp] theorem startTransmission_pBase (s : State) : (startTransmission s).pBase = s.pBase := rfl
@[simp] theorem startTransmission_pLen (s : State) : (startTransmission s).pLen = s.pLen := rfl
@[simp] theorem startTransmission_pBusy (s : State) : (startTransmission s).pBusy = true := rfl
@[simp] theorem startTransmission_pDone (s : State) : (startTransmission s).pDone = false := rfl
@[simp] theorem startTransmission_pXDone (s : State) : (startTransmission s).pXDone = false := rfl
@[simp] theorem startTransmission_pLastComplete (s : State) : (startTransmission s).pLastComplete = false := rfl
@[simp] theorem startTransmission_pLastMemFull (s : State) : (startTransmission s).pLastMemFull = false := rfl
@[simp] theorem startTransmission_pSymCnt (s : State) : (startTransmission s).pSymCnt = 0 := rfl
@[simp] theorem startTransmission_fQ (s : State) : (startTransmission s).fQ = s.fQ := rfl
@[simp] theorem startTransmission_gLoaded (s : State) : (startTransmission s).gLoaded = s.gLoaded := rfl
@[simp] theorem startTransmission_gSym (s : State) : (startTransmission s).gSym = s.gSym := rfl
@[simp] theorem startTransmission_gHalf (s : State) : (startTransmission s).gHalf = s.gHalf := rfl
@[simp] theorem startTransmission_gRem (s : State) : (startTransmission s).gRem = s.gRem := rfl
@[simp] theorem startTransmission_gDout (s : State) : (startTransmission s).gDout = s.gDout := rfl
@[simp] theorem startTransmission_build (s : State) : (startTransmission s).build = s.build := rfl
@[simp] theorem startTransmission_mem (s : State) : (startTransmission s).mem = s.mem := rfl
@[simp] theorem startTransmission_memReads (s : State) : (startTransmission s).memReads = s.memReads := rfl
@[simp] theorem startTransmission_inbox (s : State) : (startTransmission s).inbox = s.inbox := rfl
@[simp] theorem startTransmission_raced (s : State) : (startTransmission s).raced = s.raced := rfl
@[simp] theorem startTransmission_hung (s : State) : (startTransmission s).hung = s.hung := rfl
@[simp] theorem startTransmission_draws (s : State) : (startTransmission s).draws = s.draws := rfl

/-! ### takeInput -/

@[simp] theorem takeInput_err (s : State) : (takeInput s).err = s.err := rfl
@[simp] theorem takeInput_ieDone (s : State) : (takeInput s).ieDone = s.ieDone := rfl
@[simp] theorem takeInput_ieErr (s : State) : (takeInput s).ieErr = s.ieErr := rfl
@[simp] theorem takeInput_tNStrips (s : State) : (takeInput s).tNStrips = s.tNStrips := rfl
@[simp] theorem takeInput_tStrip (s : State) : (takeInput s).tStrip = s.tStrip := rfl
@[simp] theorem takeInput_tTotal (s : State) : (takeInput s).tTotal = s.tTotal := rfl
@[simp] theorem takeInput_tSealed (s : State) : (takeInput s).tSealed = s.tSealed := rfl
@[simp] theorem takeInput_tResult (s : State) : (takeInput s).tResult = s.tResult := rfl
@[simp] theorem takeInput_pLc (s : State) : (takeInput s).pLc = s.pLc := rfl
@[simp] theorem takeInput_pSt (s : State) : (takeInput s).pSt = s.pSt := rfl
@[simp] theorem takeInput_pByteIdx (s : State) : (takeInput s).pByteIdx = s.pByteIdx := rfl
@[simp] theorem takeInput_pBitIdx (s : State) : (takeInput s).pBitIdx = s.pBitIdx := rfl
@[simp] theorem takeInput_pRstSent (s : State) : (takeInput s).pRstSent = s.pRstSent := rfl
@[simp] theorem takeInput_pBase (s : State) : (takeInput s).pBase = s.pBase := rfl
@[simp] theorem takeInput_pLen (s : State) : (takeInput s).pLen = s.pLen := rfl
@[simp] theorem takeInput_pBusy (s : State) : (takeInput s).pBusy = s.pBusy := rfl
@[simp] theorem takeInput_pDone (s : State) : (takeInput s).pDone = s.pDone := rfl
@[simp] theorem takeInput_pXDone (s : State) : (takeInput s).pXDone = s.pXDone := rfl
@[simp] theorem takeInput_pLastComplete (s : State) : (takeInput s).pLastComplete = s.pLastComplete := rfl
@[simp] theorem takeInput_pLastMemFull (s : State) : (takeInput s).pLastMemFull = s.pLastMemFull := rfl
@[simp] theorem takeInput_pSymCnt (s : State) : (takeInput s).pSymCnt = s.pSymCnt := rfl
@[simp] theorem takeInput_fQ (s : State) : (takeInput s).fQ = s.fQ := rfl
@[simp] theorem takeInput_gLoaded (s : State) : (takeInput s).gLoaded = s.gLoaded := rfl
@[simp] theorem takeInput_gSym (s : State) : (takeInput s).gSym = s.gSym := rfl
@[simp] theorem takeInput_gHalf (s : State) : (takeInput s).gHalf = s.gHalf := rfl
@[simp] theorem takeInput_gRem (s : State) : (takeInput s).gRem = s.gRem := rfl
@[simp] theorem takeInput_gDout (s : State) : (takeInput s).gDout = s.gDout := rfl
@[simp] theorem takeInput_build (s : State) : (takeInput s).build = s.build := rfl
@[simp] theorem takeInput_mem (s : State) : (takeInput s).mem = s.mem := rfl
@[simp] theorem takeInput_memReads (s : State) : (takeInput s).memReads = s.memReads := rfl
@[simp] theorem takeInput_inbox (s : State) : (takeInput s).inbox = s.inbox.tail := rfl
@[simp] theorem takeInput_raced (s : State) : (takeInput s).raced = s.raced := rfl
@[simp] theorem takeInput_hung (s : State) : (takeInput s).hung = s.hung := rfl
@[simp] theorem takeInput_draws (s : State) : (takeInput s).draws = s.draws := rfl

end Sys2Proof.Machine
end

