-- ==== Sys2Proof/Laws/Ops.lean ====
section
/-! SUPPORT. What the shared operations of Machine/Ops.lean and Machine/Operands.lean do: DATA keeps its canonical
form and reads back what was written, a host write leaves everything but DATA and the race memory alone, the widened
sums do not wrap, and a symbol word gives back its halves. -/

namespace Sys2Proof.Machine

/-! ### DATA -/

theorem Memory.read_write (m : Memory) (a b : Nat) (v : Byte) :
    Memory.read (Memory.write m a v) b = if b = a then some v else Memory.read m b := by
  induction m with
  | nil => simp only [Memory.write, Memory.read]
  | cons c m ih =>
    obtain ⟨d, u⟩ := c
    simp only [Memory.write]
    split
    · simp only [Memory.read]
    · split
      · rename_i h; subst h
        simp only [Memory.read]
        split <;> rfl
      · simp only [Memory.read, ih]
        by_cases hb : b = a <;> by_cases hd : b = d <;> simp_all

theorem Memory.mem_write {m : Memory} {a : Nat} {v : Byte} {c : Host.Cell} (h : c ∈ Memory.write m a v) :
    c = (a, v) ∨ c ∈ m := by
  induction m with
  | nil => simpa [Memory.write] using h
  | cons d m ih =>
    obtain ⟨d, u⟩ := d
    simp only [Memory.write] at h
    split at h
    · simpa using h
    · split at h
      · simp only [List.mem_cons] at h ⊢
        tauto
      · simp only [List.mem_cons] at h ⊢
        rcases h with h | h
        · tauto
        · rcases ih h with h | h <;> tauto

theorem Memory.write_wf {m : Memory} (h : Memory.wf m) (a : Nat) (v : Byte) : Memory.wf (Memory.write m a v) := by
  induction m with
  | nil => simp [Memory.write]
  | cons c m ih =>
    obtain ⟨d, u⟩ := c
    obtain ⟨hd, hm⟩ := List.pairwise_cons.1 h
    simp only [Memory.write]
    split
    · rename_i had
      refine List.pairwise_cons.2 ⟨fun c hc => ?_, h⟩
      rcases List.mem_cons.1 hc with rfl | hc
      · exact had
      · exact had.trans (hd c hc)
    · split
      · rename_i had; subst had
        exact List.pairwise_cons.2 ⟨hd, hm⟩
      · refine List.pairwise_cons.2 ⟨fun c hc => ?_, ih hm⟩
        rcases Memory.mem_write hc with rfl | hc
        · show d < a
          omega
        · exact hd c hc

/-- A host write changes DATA and the memory of races, and nothing else. -/
theorem hostWrite_eq (s : State) (w : HostWrite) :
    hostWrite s w = { s with mem := (hostWrite s w).mem, raced := (hostWrite s w).raced } := by
  unfold hostWrite; split <;> rfl

theorem hostWrite_mem (s : State) (w : HostWrite) :
    (hostWrite s w).mem =
      if w.addr.toNat < s.params.memBytes then Memory.write s.mem w.addr.toNat w.byte else s.mem := by
  unfold hostWrite; split <;> rfl

/-- Host writes change DATA and the memory of races, and nothing else. -/
theorem hostWrites_eq (ws : List HostWrite) (s : State) :
    hostWrites ws s = { s with mem := (hostWrites ws s).mem, raced := (hostWrites ws s).raced } := by
  induction ws generalizing s with
  | nil => rfl
  | cons w ws ih =>
    have h := ih (hostWrite s w)
    rw [hostWrite_eq s w] at h
    simpa only [hostWrites, List.foldl_cons, ← hostWrite_eq s w] using h

/-- A byte that no host write addresses stays as it was. -/
theorem hostWrites_read_other {ws : List HostWrite} {s : State} {a : Nat} (h : ∀ w ∈ ws, w.addr.toNat ≠ a) :
    Memory.read (hostWrites ws s).mem a = Memory.read s.mem a := by
  induction ws generalizing s with
  | nil => rfl
  | cons w ws ih =>
    have hw := h w (List.mem_cons_self ..)
    rw [hostWrites, List.foldl_cons, ← hostWrites, ih fun v hv => h v (List.mem_cons_of_mem _ hv), hostWrite_mem]
    split
    · rw [Memory.read_write, if_neg (fun e => hw e.symm)]
    · rfl

/-- Host writes keep DATA in its canonical form. -/
theorem hostWrites_wf {ws : List HostWrite} {s : State} (h : Memory.wf s.mem) : Memory.wf (hostWrites ws s).mem := by
  induction ws generalizing s with
  | nil => exact h
  | cons w ws ih =>
    rw [hostWrites, List.foldl_cons, ← hostWrites]
    refine ih ?_
    rw [hostWrite_mem]
    split
    · exact Memory.write_wf h ..
    · exact h

/-- Host writes write inside DATA only. -/
theorem hostWrites_range {ws : List HostWrite} {s : State} (h : ∀ c ∈ s.mem, c.1 < s.params.memBytes) :
    ∀ c ∈ (hostWrites ws s).mem, c.1 < s.params.memBytes := by
  induction ws generalizing s with
  | nil => exact h
  | cons w ws ih =>
    rw [hostWrites, List.foldl_cons, ← hostWrites]
    have hp : (hostWrite s w).params = s.params := by rw [hostWrite_eq]
    rw [← hp]
    refine ih fun c hc => ?_
    rw [hp]
    rw [hostWrite_mem] at hc
    split at hc
    · rcases Memory.mem_write hc with rfl | hc
      · assumption
      · exact h c hc
    · exact h c hc

/-- While no transmission is in flight no host write races (R70). -/
theorem hostWrites_raced_idle {ws : List HostWrite} {s : State} (h : s.pBusy = false) :
    (hostWrites ws s).raced = s.raced := by
  induction ws generalizing s with
  | nil => rfl
  | cons w ws ih =>
    rw [hostWrites, List.foldl_cons, ← hostWrites, ih (by rw [hostWrite_eq]; exact h)]
    unfold hostWrite
    split <;> simp [h]

/-- Host writes outside the range never race (R70). -/
theorem hostWrites_raced_outside {ws : List HostWrite} {s : State}
    (h : ∀ w ∈ ws, inRange s w.addr.toNat = false) : (hostWrites ws s).raced = s.raced := by
  induction ws generalizing s with
  | nil => rfl
  | cons w ws ih =>
    have hi : ∀ a, inRange (hostWrite s w) a = inRange s a := fun a => by rw [hostWrite_eq]; rfl
    rw [hostWrites, List.foldl_cons, ← hostWrites,
      ih fun v hv => (hi _).trans (h v (List.mem_cons_of_mem _ hv))]
    unfold hostWrite
    split <;> simp [h w (List.mem_cons_self ..)]

/-- Once remembered, a race stays remembered over host writes. -/
theorem hostWrites_raced_mono {ws : List HostWrite} {s : State} {a : Nat} (h : a ∈ s.raced) :
    a ∈ (hostWrites ws s).raced := by
  induction ws generalizing s with
  | nil => exact h
  | cons w ws ih =>
    rw [hostWrites, List.foldl_cons, ← hostWrites]
    refine ih ?_
    unfold hostWrite
    split
    · dsimp only
      split
      · exact List.mem_cons_of_mem _ h
      · exact h
    · exact h

/-- `MemRead` of a byte of DATA that the host has not raced: the byte, no draw, its address on the port. -/
theorem memRead_unraced {s : State} {a : Nat} {g : ReadLog} (ha : a < s.params.memBytes) (hr : a ∉ s.raced) :
    memRead s a g = some (dataByte s a, { g with reads := g.reads ++ [BitVec.ofNat 24 a] }) := by
  simp [memRead, ha, hr]

/-- `MemRead` of a byte the host has raced: a fresh draw, its address on the port. -/
theorem memRead_raced {s : State} {a : Nat} {g : ReadLog} (ha : a < s.params.memBytes) (hr : a ∈ s.raced) :
    memRead s a g =
      some (Config.racedByte g.draws, { draws := g.draws + 1, reads := g.reads ++ [BitVec.ofNat 24 a] }) := by
  simp [memRead, ha, hr]

/-- `MemRead` answers exactly inside DATA, and puts the address on the port. -/
theorem memRead_reads {s : State} {a : Nat} {g g' : ReadLog} {v : Byte} (h : memRead s a g = some (v, g')) :
    a < s.params.memBytes ∧ g'.reads = g.reads ++ [BitVec.ofNat 24 a] := by
  unfold memRead at h
  split at h
  · rename_i ha
    refine ⟨ha, ?_⟩
    split at h <;> · cases h; rfl
  · cases h

/-! ### Sums and symbols -/

theorem sum17_toNat (a b : Idx) : (sum17 a b).toNat = a.toNat + b.toNat := by
  have := a.isLt
  have := b.isLt
  simp only [sum17, BitVec.toNat_add, BitVec.toNat_setWidth]
  omega

theorem sum25_toNat (a b : Addr) : (sum25 a b).toNat = a.toNat + b.toNat := by
  have := a.isLt
  have := b.isLt
  simp only [sum25, BitVec.toNat_add, BitVec.toNat_setWidth]
  omega

/-- `TMAP.ADD`'s total check in numbers (R122). -/
theorem sum17_gt (a b : Idx) : 65535#17 < sum17 a b ↔ 65535 < a.toNat + b.toNat := by
  rw [BitVec.lt_def, sum17_toNat]
  rfl

/-- A symbol word as a number, half by half. -/
theorem mkSymbol_toNat (l0 l1 : Bool) (d0 d1 : Nat) :
    (mkSymbol l0 d0 l1 d1).toNat =
      2 ^ 31 * l1.toNat + 2 ^ 16 * (d1 % 2 ^ 15) + 2 ^ 15 * l0.toNat + d0 % 2 ^ 15 := by
  have e : (BitVec.ofBool l1 ++ BitVec.ofNat 15 d1 ++ BitVec.ofBool l0 ++ BitVec.ofNat 15 d0 :
        BitVec (1 + 15 + 1 + 15)).toNat =
      ((l1.toNat <<< 15 ||| d1 % 2 ^ 15) <<< 1 ||| l0.toNat) <<< 15 ||| d0 % 2 ^ 15 := by
    simp only [BitVec.toNat_append, BitVec.toNat_ofBool, BitVec.toNat_ofNat]
  have h0 : l0.toNat < 2 ^ 1 := by cases l0 <;> decide
  have hd1 : d1 % 2 ^ 15 < 2 ^ 15 := Nat.mod_lt _ (by decide)
  have hd0 : d0 % 2 ^ 15 < 2 ^ 15 := Nat.mod_lt _ (by decide)
  refine Eq.trans e ?_
  rw [← Nat.shiftLeft_add_eq_or_of_lt hd0, ← Nat.shiftLeft_add_eq_or_of_lt h0, ← Nat.shiftLeft_add_eq_or_of_lt hd1]
  simp only [Nat.shiftLeft_eq]
  ring

theorem symDuration0_toNat (x : Symbol) : (symDuration0 x).toNat = x.toNat % 2 ^ 15 := by
  simp [symDuration0, BitVec.extractLsb'_toNat]

theorem symDuration1_toNat (x : Symbol) : (symDuration1 x).toNat = x.toNat / 2 ^ 16 % 2 ^ 15 := by
  simp [symDuration1, BitVec.extractLsb'_toNat, Nat.shiftRight_eq_div_pow]

theorem symLevel0_eq (x : Symbol) : symLevel0 x = decide (x.toNat / 2 ^ 15 % 2 = 1) := by
  simp [symLevel0, BitVec.getLsbD, Nat.testBit_eq_decide_div_mod_eq]

theorem symLevel1_eq (x : Symbol) : symLevel1 x = decide (x.toNat / 2 ^ 31 % 2 = 1) := by
  simp [symLevel1, BitVec.getLsbD, Nat.testBit_eq_decide_div_mod_eq]

/-- The first half's duration comes back whole where it fits its 15 bits. -/
theorem symDuration0_mkSymbol (l0 l1 : Bool) {d0 d1 : Nat} (h0 : d0 < 2 ^ 15) :
    (symDuration0 (mkSymbol l0 d0 l1 d1)).toNat = d0 := by
  rw [symDuration0_toNat, mkSymbol_toNat]
  omega

/-- The second half's duration comes back whole where it fits its 15 bits. -/
theorem symDuration1_mkSymbol (l0 l1 : Bool) {d0 d1 : Nat} (h1 : d1 < 2 ^ 15) :
    (symDuration1 (mkSymbol l0 d0 l1 d1)).toNat = d1 := by
  rw [symDuration1_toNat, mkSymbol_toNat]
  cases l0 <;> simp only [Bool.toNat_true, Bool.toNat_false] <;> omega

@[simp] theorem symLevel0_mkSymbol (l0 l1 : Bool) (d0 d1 : Nat) : symLevel0 (mkSymbol l0 d0 l1 d1) = l0 := by
  rw [symLevel0_eq, mkSymbol_toNat]
  cases l0 <;> simp only [Bool.toNat_true, Bool.toNat_false, decide_eq_true_eq, decide_eq_false_iff_not] <;> omega

@[simp] theorem symLevel1_mkSymbol (l0 l1 : Bool) (d0 d1 : Nat) : symLevel1 (mkSymbol l0 d0 l1 d1) = l1 := by
  rw [symLevel1_eq, mkSymbol_toNat]
  cases l0 <;> cases l1 <;>
    simp only [Bool.toNat_true, Bool.toNat_false, decide_eq_true_eq, decide_eq_false_iff_not] <;> omega

end Sys2Proof.Machine
end

