-- ==== Sys2Proof/Laws/Encoder.lean ====
section
/-! SUPPORT. What the encoder's operations do, said once: the bit loop of R162 with and without races, and the engine
stage's outcomes (R171). -/

namespace Sys2Proof.Machine

theorem bitSym_isPencSymbol (p : Params) (b : Byte) (q : Nat) : isPencSymbol p (bitSym p b q) := by
  unfold bitSym isPencSymbol
  split <;> simp

/-- Whatever the host has raced, the loop writes one bit symbol per bit. -/
theorem bitsLoop_symbols {s : State} {n : Nat} : ∀ {fresh : Bool} {q : Nat} {byte : Byte} {g g' : ReadLog}
    {out : List Symbol}, bitsLoop s n fresh q byte g = some (out, g') →
    out.length = n ∧ ∀ x ∈ out, isPencSymbol s.params x := by
  induction n with
  | zero =>
    intro fresh q byte g g' out h
    simp only [bitsLoop, Option.some.injEq, Prod.mk.injEq] at h
    simp [← h.1]
  | succ n ih =>
    intro fresh q byte g g' out h
    simp only [bitsLoop] at h
    split at h
    · cases h
    · split at h
      · cases h
      · rename_i hrec
        simp only [Option.some.injEq, Prod.mk.injEq] at h
        obtain ⟨rfl, -⟩ := h
        obtain ⟨hl, hs⟩ := ih hrec
        refine ⟨by simp [hl], fun x hx => ?_⟩
        rcases List.mem_cons.1 hx with rfl | hx
        · exact bitSym_isPencSymbol ..
        · exact hs x hx

/-- Whatever the host has raced, the loop reads only bytes that hold the bits it encodes. -/
theorem bitsLoop_reads {s : State} {n : Nat} : ∀ {fresh : Bool} {q : Nat} {byte : Byte} {g g' : ReadLog}
    {out : List Symbol}, bitsLoop s n fresh q byte g = some (out, g') →
    ∀ a ∈ g'.reads, a ∈ g.reads ∨
      ∃ k < n, a = BitVec.ofNat 24 (s.pBase.toNat + (q + k) / 8) ∧ s.pBase.toNat + (q + k) / 8 < s.params.memBytes := by
  induction n with
  | zero =>
    intro fresh q byte g g' out h a ha
    simp only [bitsLoop, Option.some.injEq, Prod.mk.injEq] at h
    exact .inl (h.2 ▸ ha)
  | succ n ih =>
    intro fresh q byte g g' out h a ha
    simp only [bitsLoop] at h
    split at h
    · cases h
    · rename_i b g1 hread
      split at h
      · cases h
      · rename_i hrec
        simp only [Option.some.injEq, Prod.mk.injEq] at h
        obtain ⟨-, rfl⟩ := h
        rcases ih hrec a ha with hg1 | ⟨k, hk, e, hin⟩
        · split at hread
          · obtain ⟨hin, hr⟩ := memRead_reads hread
            rw [hr, List.mem_append, List.mem_singleton] at hg1
            exact hg1.imp id fun e => ⟨0, by omega, by simpa using e, by simpa using hin⟩
          · cases hread
            exact .inl hg1
        · exact .inr ⟨k + 1, by omega, by rw [e, Nat.add_right_comm, Nat.add_assoc q], by
            rwa [Nat.add_right_comm, Nat.add_assoc q] at hin⟩

theorem memRead_total {s : State} {a : Nat} (g : ReadLog) (ha : a < s.params.memBytes) :
    ∃ v g', memRead s a g = some (v, g') := by
  unfold memRead
  rw [if_pos ha]
  split <;> exact ⟨_, _, rfl⟩

/-- The loop answers where the bytes of its bits lie in DATA. -/
theorem bitsLoop_total {s : State} {n : Nat} : ∀ {fresh : Bool} {q : Nat} {byte : Byte} {g : ReadLog},
    (∀ k < n, s.pBase.toNat + (q + k) / 8 < s.params.memBytes) →
    ∃ out g', bitsLoop s n fresh q byte g = some (out, g') := by
  induction n with
  | zero => intro fresh q byte g _; exact ⟨_, _, rfl⟩
  | succ n ih =>
    intro fresh q byte g h
    obtain ⟨v, g1, hv⟩ := memRead_total (s := s) g (by simpa using h 0 (by omega) : s.pBase.toNat + q / 8 < _)
    have hrest : ∀ k < n, s.pBase.toNat + (q + 1 + k) / 8 < s.params.memBytes := fun k hk => by
      have := h (k + 1) (by omega)
      rwa [show q + (k + 1) = q + 1 + k by omega] at this
    simp only [bitsLoop]
    split
    · rename_i hnone
      split at hnone
      · rw [hv] at hnone; cases hnone
      · cases hnone
    · rename_i b g2 _
      obtain ⟨out, g3, h3⟩ := ih (fresh := false) (q := q + 1) (byte := b) (g := g2) hrest
      rw [h3]
      exact ⟨_, _, rfl⟩

/-- The addresses of `n` source bytes from byte `j` on, as they appear on the memory port. -/
def busAddrs (s : State) (j n : Nat) : List Addr :=
  (List.range' j n).map fun i => BitVec.ofNat 24 (s.pBase.toNat + i)

/-- The loop away from its first bit, over bytes that the host has not raced. -/
theorem bitsLoop_unraced_rest {s : State} (hr : s.raced = []) {n : Nat} : ∀ {q : Nat} {byte : Byte} {g : ReadLog},
    (∀ k < n, s.pBase.toNat + (q + k) / 8 < s.params.memBytes) →
    (q % 8 ≠ 0 → byte = dataByte s (s.pBase.toNat + q / 8)) →
    bitsLoop s n false q byte g = some ((List.range' q n).map (sourceSym s),
      { g with reads := g.reads ++
          busAddrs s ((q + 7) / 8) ((q + n + 7) / 8 - (q + 7) / 8) }) := by
  induction n with
  | zero => intro q byte g _ _; simp [bitsLoop, busAddrs]
  | succ n ih =>
    intro q byte g h hb
    have hrest : ∀ k < n, s.pBase.toNat + (q + 1 + k) / 8 < s.params.memBytes := fun k hk => by
      have := h (k + 1) (by omega)
      rwa [show q + (k + 1) = q + 1 + k by omega] at this
    have h0 : s.pBase.toNat + q / 8 < s.params.memBytes := by simpa using h 0 (by omega)
    by_cases hq : q % 8 = 0
    · have e1 : (q + 7) / 8 = q / 8 := by omega
      have e2 : (q + 1 + 7) / 8 = q / 8 + 1 := by omega
      have e3 : (q + (n + 1) + 7) / 8 - q / 8 = ((q + 1 + n + 7) / 8 - (q / 8 + 1)) + 1 := by omega
      simp only [bitsLoop, Bool.false_or, hq, beq_self_eq_true, if_true]
      rw [memRead_unraced h0 (by simp [hr])]
      dsimp only
      rw [ih hrest (fun _ => by rw [show (q + 1) / 8 = q / 8 by omega])]
      rw [e1, e2, e3, busAddrs, busAddrs, List.range'_succ, List.range'_succ]
      simp [sourceSym, List.append_assoc]
    · have e1 : (q + 7) / 8 = q / 8 + 1 := by omega
      have e2 : (q + 1 + 7) / 8 = q / 8 + 1 := by omega
      have e3 : q + (n + 1) + 7 = q + 1 + n + 7 := by omega
      have hf : (q % 8 == 0) = false := by simp [hq]
      simp only [bitsLoop, Bool.false_or, hf, Bool.false_eq_true, if_false]
      rw [ih hrest (fun h8 => by rw [show (q + 1) / 8 = q / 8 by omega]; exact hb hq)]
      rw [e1, e2, e3, List.range'_succ]
      simp [sourceSym, hb hq]

/-- The loop from its first bit, over bytes that the host has not raced: the source's symbols in order, each byte read
once. -/
theorem bitsLoop_unraced {s : State} (hr : s.raced = []) {n q : Nat} {g : ReadLog}
    (h : ∀ k < n, s.pBase.toNat + (q + k) / 8 < s.params.memBytes) :
    bitsLoop s n true q 0 g = some ((List.range' q n).map (sourceSym s),
      { g with reads := g.reads ++
          busAddrs s (q / 8) (if n = 0 then 0 else (q + n - 1) / 8 + 1 - q / 8) }) := by
  cases n with
  | zero => simp [bitsLoop, busAddrs]
  | succ n =>
    have hrest : ∀ k < n, s.pBase.toNat + (q + 1 + k) / 8 < s.params.memBytes := fun k hk => by
      have := h (k + 1) (by omega)
      rwa [show q + (k + 1) = q + 1 + k by omega] at this
    have h0 : s.pBase.toNat + q / 8 < s.params.memBytes := by simpa using h 0 (by omega)
    simp only [bitsLoop, Bool.true_or, if_true]
    rw [memRead_unraced h0 (by simp [hr])]
    dsimp only
    rw [bitsLoop_unraced_rest hr hrest (fun h8 => by rw [show (q + 1) / 8 = q / 8 by omega])]
    rw [if_neg (by omega), show (q + (n + 1) - 1) / 8 + 1 - q / 8 = ((q + 1 + n + 7) / 8 - (q + 1 + 7) / 8) + 1 by omega,
      show (q + 1 + 7) / 8 = q / 8 + 1 by omega, busAddrs, busAddrs, List.range'_succ, List.range'_succ]
    simp [sourceSym, List.append_assoc]

/-- Whatever the host has raced, a bytes step writes as many bit symbols as there are bits left and room for, and
moves the position past them. -/
theorem bytesStep_shape {h : Nat} {s : State} {r : Encoded} (e : bytesStep h s = some r)
    (hp : bitPos s ≤ 8 * s.pLen.toNat) :
    r.out.length = min (8 * s.pLen.toNat - bitPos s) h ∧ (∀ x ∈ r.out, isPencSymbol s.params x) ∧
    r.complete = completeFlag (8 * s.pLen.toNat - bitPos s) h ∧
    r.memFull = memFullFlag (8 * s.pLen.toNat - bitPos s) h ∧
    (r.complete = true → r.state.pByteIdx = 0 ∧ r.state.pBitIdx = 0) ∧
    (r.complete = false → bitPos r.state = bitPos s + h) ∧
    r.state = { s with
      draws := r.state.draws, memReads := r.state.memReads, pByteIdx := r.state.pByteIdx
      pBitIdx := r.state.pBitIdx } := by
  simp only [bytesStep] at e
  split at e
  · cases e
  · rename_i hl
    cases e
    obtain ⟨hlen, hsym⟩ := bitsLoop_symbols hl
    have := s.pLen.isLt
    refine ⟨hlen, hsym, rfl, rfl, fun hc => ?_, fun hc => ?_, rfl⟩
    · dsimp only at hc ⊢
      rw [if_pos hc, if_pos hc]
      exact ⟨rfl, rfl⟩
    · dsimp only at hc ⊢
      have hw : ¬ 8 * s.pLen.toNat - bitPos s ≤ h := by simpa [completeFlag] using hc
      unfold bitPos at *
      simp only [hc, Bool.false_eq_true, if_false, BitVec.toNat_ofNat]
      omega

/-- A copy step with room for the reset symbol writes it and is complete. -/
theorem copyStep_room {h : Nat} {s : State} (h0 : s.pRstSent = 0) (hh : 1 ≤ h) :
    copyStep h s = { out := [resetSym s.params], complete := true, memFull := decide (h ≤ 1), state := s } := by
  have e : min 1 h = 1 := by omega
  have hc : completeFlag 1 h = true := by simpa [completeFlag] using hh
  have hs : s = { s with pRstSent := 0 } := by rw [← h0]
  have hw : 1 - s.pRstSent.toNat = 1 := by rw [h0]; rfl
  simp only [copyStep, hw, e, if_true, hc, memFullFlag]
  exact congrArg (Encoded.mk _ _ _) hs.symm

/-- How many symbols an encoder at this position has not written (R168). -/
theorem streamLeft_length (s : State) :
    (streamLeft s).length = if s.pSt = .sendData then 8 * s.pLen.toNat - bitPos s + 1 else 1 := by
  unfold streamLeft
  cases s.pSt <;> simp

/-- Whatever the host has raced, an encode invocation with room writes as many symbols as are left and fit; its flags
say which of the two ended it; and it leaves the encoder where the next one goes on (R161, R165, R166). -/
theorem invokeEncode_shape {h : Nat} {s : State} {r : Encoded} (e : invokeEncode h s = some r) (h1 : 1 ≤ h)
    (h0 : s.pRstSent = 0) (hp : bitPos s ≤ 8 * s.pLen.toNat) (hr : s.pSt = .sendReset → bitPos s = 0) :
    r.out.length = min h (streamLeft s).length ∧ (∀ x ∈ r.out, isPencSymbol s.params x) ∧
    (r.complete = true ↔ (streamLeft s).length ≤ h) ∧ (r.memFull = true ↔ h ≤ (streamLeft s).length) ∧
    (r.complete = true → encoderInitial r.state = true) ∧
    (r.complete = false → (streamLeft r.state).length = (streamLeft s).length - h) ∧
    bitPos r.state ≤ 8 * s.pLen.toNat ∧ (r.state.pSt = .sendReset → bitPos r.state = 0) ∧
    r.state = { s with
      draws := r.state.draws, memReads := r.state.memReads, pSt := r.state.pSt, pByteIdx := r.state.pByteIdx
      pBitIdx := r.state.pBitIdx } := by
  cases hst : s.pSt with
  | sendReset =>
    have hz := hr hst
    have hb : s.pByteIdx.toNat = 0 ∧ s.pBitIdx.toNat = 0 := by unfold bitPos at hz; omega
    have e1 : s.pByteIdx = 0 := BitVec.eq_of_toNat_eq hb.1
    have e2 : s.pBitIdx = 0 := BitVec.eq_of_toNat_eq hb.2
    have hl : (streamLeft s).length = 1 := by simp [streamLeft_length, hst]
    simp only [invokeEncode, hst, encodeReset, copyStep_room h0 h1, if_true] at e
    cases e
    rw [hl]
    refine ⟨by simp; omega, by simp [isPencSymbol], by simpa using h1, by simp, ?_, by simp, ?_, by simp, ?_⟩
    · intro _
      simp [encoderInitial, e1, e2, h0]
    · show bitPos s ≤ _
      omega
    · rfl
  | sendData =>
    have hl : (streamLeft s).length = 8 * s.pLen.toNat - bitPos s + 1 := by simp [streamLeft_length, hst]
    rw [hl]
    cases hb : bytesStep h s with
    | none => simp [invokeEncode, hst, hb] at e
    | some b =>
      obtain ⟨hlen, hsym, hc, hm, hz, hn, hs⟩ := bytesStep_shape hb hp
      generalize hw : 8 * s.pLen.toNat - bitPos s = w at *
      have hzero : b.complete = true → bitPos b.state = 0 := fun hcc => by
        simp [bitPos, (hz hcc).1, (hz hcc).2]
      have hlen' : b.state.pLen = s.pLen := by rw [hs]
      simp only [invokeEncode, hst, hb] at e
      by_cases hf : b.memFull = true
      · have hh : h ≤ w := by simpa [hm, memFullFlag] using hf
        simp only [hf, if_true, Option.some.injEq] at e
        subst e
        dsimp only
        refine ⟨by omega, hsym, by simp; omega, by simp; omega, by simp, fun _ => ?_, ?_, ?_, ?_⟩
        · by_cases hcc : b.complete = true
          · have : w ≤ h := by simpa [hc, completeFlag] using hcc
            rw [if_pos hcc, streamLeft_length]
            simp
            omega
          · have hcc' : b.complete = false := by simpa using hcc
            have hst' : b.state.pSt = .sendData := by rw [hs]; exact hst
            rw [if_neg hcc, streamLeft_length, hst', hlen', hn hcc']
            simp
            omega
        · split
          · rename_i hcc
            show bitPos b.state ≤ _
            rw [hzero hcc]
            omega
          · rename_i hcc
            have hcc' : b.complete = false := by simpa using hcc
            have : ¬ w ≤ h := by simpa [hc, completeFlag] using hcc'
            rw [hn hcc']
            omega
        · split
          · rename_i hcc
            exact fun _ => hzero hcc
          · intro hst'
            rw [hs, hst] at hst'
            cases hst'
        · split
          · rw [hs]
          · rw [hs]
      · have hf' : b.memFull = false := by simpa using hf
        have hh : ¬ h ≤ w := by simpa [hm, memFullFlag] using hf'
        have hcc : b.complete = true := by simp [hc, completeFlag]; omega
        have h0' : b.state.pRstSent = 0 := by rw [hs]; exact h0
        have hroom := copyStep_room (h := h - b.out.length) (s := { b.state with pSt := .sendReset }) h0' (by omega)
        simp only [hf', Bool.false_eq_true, if_false, hcc, if_true, encodeReset, hroom, Option.some.injEq] at e
        subst e
        have hpar : b.state.build = s.build := by rw [hs]
        refine ⟨by simp; omega, ?_, by simp; omega, by simp; omega, ?_, by simp, ?_, by simp, ?_⟩
        · intro x hx
          rcases List.mem_append.1 hx with hx | hx
          · exact hsym x hx
          · right; right
            simpa [hpar, State.params] using hx
        · intro _
          simp [encoderInitial, hz hcc, h0']
        · show bitPos b.state ≤ _
          rw [hzero hcc]
          omega
        · dsimp only
          rw [hs]

/-- In every state an encode invocation writes only the encoder's position, the reads and the count of draws. -/
theorem invokeEncode_frame {h : Nat} {s : State} {r : Encoded} (e : invokeEncode h s = some r) :
    r.state = { s with
      draws := r.state.draws, memReads := r.state.memReads, pSt := r.state.pSt, pByteIdx := r.state.pByteIdx
      pBitIdx := r.state.pBitIdx, pRstSent := r.state.pRstSent } := by
  have reset_frame : ∀ (out : List Symbol) (k : Nat) (u : State), (encodeReset out k u).state =
      { u with pSt := (encodeReset out k u).state.pSt, pRstSent := (encodeReset out k u).state.pRstSent } := by
    intro out k u
    simp only [encodeReset, copyStep]
    split <;> rfl
  simp only [invokeEncode, bytesStep] at e
  split at e
  · cases e
    rw [reset_frame]
  · split at e
    · cases e
    · rename_i hb
      split at hb
      · cases hb
      · cases hb
        dsimp only at e
        split at e <;> cases e
        · split <;> rfl
        · rw [reset_frame]
          split <;> rfl

/-- An encode invocation answers where the bytes it may read lie in DATA. -/
theorem invokeEncode_answers {h : Nat} {s : State} (hm : s.pBase.toNat + s.pLen.toNat ≤ s.params.memBytes)
    (hp : bitPos s ≤ 8 * s.pLen.toNat) : ∃ r, invokeEncode h s = some r := by
  cases hst : s.pSt with
  | sendReset => exact ⟨_, by simp only [invokeEncode, hst]; rfl⟩
  | sendData =>
    have hk : ∀ k < min (8 * s.pLen.toNat - bitPos s) h, s.pBase.toNat + (bitPos s + k) / 8 < s.params.memBytes := by
      intro k hk
      omega
    obtain ⟨out, g, hl⟩ := bitsLoop_total (fresh := true) (byte := 0)
      (g := { draws := s.draws, reads := s.memReads }) hk
    simp only [invokeEncode, hst, bytesStep, hl]
    split <;> exact ⟨_, rfl⟩

/-- The engine stage's outcomes (R171): nothing to do; or one invocation, whose result it takes or which leaves DATA. -/
theorem engineStage_cases (s : State) :
    (¬ (s.pBusy = true ∧ s.pXDone = false ∧ s.fQ.length < s.params.symCap) ∧
      engineStage s = .next { s with memReads := [] }) ∨
    (s.pBusy = true ∧ s.pXDone = false ∧ s.fQ.length < s.params.symCap ∧
      ((∃ r, invokeEncode (s.params.symCap - s.fQ.length) { s with memReads := [] } = some r ∧
          engineStage s = .next (acceptEncoded r)) ∨
        (invokeEncode (s.params.symCap - s.fQ.length) { s with memReads := [] } = none ∧
          engineStage s = .fault .dataReadOutsideSpace))) := by
  by_cases h : s.pBusy = true ∧ s.pXDone = false ∧ s.fQ.length < s.params.symCap
  · refine .inr ⟨h.1, h.2.1, h.2.2, ?_⟩
    have hc : (s.pBusy && !s.pXDone && decide (0 < s.params.symCap - s.fQ.length)) = true := by
      simp [h.1, h.2.1, h.2.2]
    simp only [engineStage, hc, if_true]
    cases hi : invokeEncode (s.params.symCap - s.fQ.length) { s with memReads := [] } with
    | none => exact .inr ⟨rfl, rfl⟩
    | some r => exact .inl ⟨r, rfl, rfl⟩
  · refine .inl ⟨h, ?_⟩
    have hc : (s.pBusy && !s.pXDone && decide (0 < s.params.symCap - s.fQ.length)) = false := by
      rw [← Bool.not_eq_true]
      simp only [Bool.and_eq_true, Bool.not_eq_true', decide_eq_true_eq]
      exact fun ⟨⟨hb, hx⟩, hl⟩ => h ⟨hb, hx, by omega⟩
    simp only [engineStage, hc, Bool.false_eq_true, if_false]

end Sys2Proof.Machine
end

