-- ==== Sys2Proof/Laws/Line.lean ====
section
/-! SUPPORT. What the line stage can do, said once (spec/43_pulse_generator.md rules R193 to R198). -/

namespace Sys2Proof.Machine

/-- Driving a level writes PGEN's position and `dout` only. -/
theorem lineDrive_eq (s : State) :
    lineDrive s = { s with
      gLoaded := (lineDrive s).gLoaded, gHalf := (lineDrive s).gHalf, gRem := (lineDrive s).gRem
      gDout := if s.gHalf then symLevel1 s.gSym else symLevel0 s.gSym } := by
  unfold lineDrive
  dsimp only
  split
  · rfl
  · split <;> rfl

/-- A half with more than one tick left goes on. -/
theorem lineDrive_same_half {s : State} (h : 1 < s.gRem.toNat) :
    lineDrive s = { s with
      gDout := if s.gHalf then symLevel1 s.gSym else symLevel0 s.gSym, gRem := s.gRem - 1 } := by
  simp only [lineDrive, h, if_true]

/-- Half 0's last tick hands over to half 1. -/
theorem lineDrive_next_half {s : State} (h : ¬ 1 < s.gRem.toNat) (hh : s.gHalf = false) :
    lineDrive s = { s with
      gDout := symLevel0 s.gSym, gHalf := true, gRem := symDuration1 s.gSym } := by
  simp [lineDrive, h, hh]

/-- Half 1's last tick frees PGEN. -/
theorem lineDrive_free {s : State} (h : ¬ 1 < s.gRem.toNat) (hh : s.gHalf = true) :
    lineDrive s = { s with gDout := symLevel1 s.gSym, gLoaded := false } := by
  simp [lineDrive, h, hh]

/-- R193's three cases. -/
theorem lineTick_cases (s : State) :
    (s.gLoaded = true ∧ lineTick s = lineDrive s) ∨
    (s.gLoaded = false ∧ ∃ x rest, s.fQ = x :: rest ∧ lineTick s = lineDrive (lineLoad x rest s)) ∨
    (s.gLoaded = false ∧ s.fQ = [] ∧ lineTick s = lineIdle s) := by
  unfold lineTick
  cases hl : s.gLoaded with
  | true => exact .inl ⟨rfl, rfl⟩
  | false =>
    cases hq : s.fQ with
    | nil => exact .inr (.inr ⟨rfl, rfl, rfl⟩)
    | cons x rest => exact .inr (.inl ⟨rfl, x, rest, rfl, rfl⟩)

/-- Nothing to send: completion, underrun, or idle (R195, R196). -/
theorem lineIdle_cases (s : State) :
    (s.pBusy = true ∧ s.pXDone = true ∧
      lineIdle s = { s with gDout := s.params.idleLevel, pBusy := false, pDone := true, raced := [] }) ∨
    (s.pBusy = true ∧ s.pXDone = false ∧
      lineIdle s = { s with gDout := s.params.idleLevel, err := 6, pBusy := false, raced := [] }) ∨
    (s.pBusy = false ∧ lineIdle s = { s with gDout := s.params.idleLevel }) := by
  unfold lineIdle
  cases hb : s.pBusy <;> cases hx : s.pXDone <;> simp [raiseErr, errNumber]

/-- The line stage: frozen, freezing, or R193's, with or without a draw (R198). -/
theorem lineStage_cases (s : State) :
    (s.hung = true ∧ lineStage s = s) ∨
    (s.hung = false ∧ s.params.phyHang = true ∧ s.pBusy = true ∧
      (lineStage s = { s with hung := true, draws := s.draws + 1 } ∨
        lineStage s = lineTick { s with draws := s.draws + 1 })) ∨
    (s.hung = false ∧ ¬ (s.params.phyHang = true ∧ s.pBusy = true) ∧ lineStage s = lineTick s) := by
  unfold lineStage
  by_cases hh : s.hung = true
  · exact .inl ⟨hh, if_pos hh⟩
  · have hh' : s.hung = false := by simpa using hh
    rw [if_neg hh]
    by_cases hp : s.params.phyHang = true ∧ s.pBusy = true
    · refine .inr (.inl ⟨hh', hp.1, hp.2, ?_⟩)
      rw [if_pos (by simp [hp])]
      split
      · exact .inl rfl
      · exact .inr rfl
    · refine .inr (.inr ⟨hh', hp, ?_⟩)
      rw [if_neg (by simpa using hp)]

/-- Without `PHY_HANG` and unfrozen, the line stage is R193's. -/
theorem lineStage_eq_lineTick {s : State} (hh : s.hung = false) (hp : s.params.phyHang = false) :
    lineStage s = lineTick s := by
  simp [lineStage, hh, hp]

end Sys2Proof.Machine
end

