-- ==== Sys2Proof/Laws/PerInstr.lean ====
section
/-! SUPPORT. Facts about every command as syntax, one lemma per constructor. -/

namespace Sys2Proof.Laws.Row

/-- A mask that covers the opcode and none of the 24 operand bits leaves the opcode. -/
theorem and_opcode_mask (opc : BitVec 8) (x : BitVec 24) :
    ((opc ++ x : BitVec 32) &&& (0xFF#8 ++ 0#24 : BitVec 32)) = (opc ++ 0#24 : BitVec 32) := by
  have h : (opc &&& 0xFF#8) = opc := by
    have := BitVec.and_allOnes (x := opc)
    simpa using this
  have e := BitVec.and_append (x₁ := opc) (x₂ := 0xFF#8) (y₁ := x) (y₂ := 0#24)
  rw [h, BitVec.and_zero] at e
  exact e

/-- A mask that covers the upper 16 bits leaves them. -/
theorem and_upper_mask (hi : BitVec 16) (x : BitVec 16) :
    ((hi ++ x : BitVec 32) &&& (0xFFFF#16 ++ 0#16 : BitVec 32)) = (hi ++ 0#16 : BitVec 32) := by
  have h : (hi &&& 0xFFFF#16) = hi := by
    have := BitVec.and_allOnes (x := hi)
    simpa using this
  have e := BitVec.and_append (x₁ := hi) (x₂ := 0xFFFF#16) (y₁ := x) (y₂ := 0#16)
  rw [h, BitVec.and_zero] at e
  exact e

/-- A mask that covers all but the low 17 bits leaves the upper 15. -/
theorem and_strip_mask (hi : BitVec 15) (r : BitVec 1) (x : BitVec 16) :
    ((hi ++ r ++ x : BitVec 32) &&& (0x7FFF#15 ++ 0#1 ++ 0#16 : BitVec 32)) = (hi ++ 0#1 ++ 0#16 : BitVec 32) := by
  have h : (hi &&& 0x7FFF#15) = hi := by
    have := BitVec.and_allOnes (x := hi)
    simpa using this
  have e := BitVec.and_append (x₁ := hi ++ r) (x₂ := 0x7FFF#15 ++ 0#1) (y₁ := x) (y₂ := 0#16)
  have e' := BitVec.and_append (x₁ := hi) (x₂ := 0x7FFF#15) (y₁ := r) (y₂ := 0#1)
  rw [h, BitVec.and_zero] at e'
  rw [e', BitVec.and_zero] at e
  exact e

/-- The word of the command fits the row of the opcode map (R83) that bears its mnemonic. -/
def Statement (i : Instr) : Prop := ∃ r ∈ opcodeMap, r.mnemonic = mnemonicOf i ∧ rowFits (encode i) r = true

theorem glbNop : Statement .glbNop := ⟨opcodeMap[0], List.getElem_mem .., rfl, by decide⟩
theorem glbClrerr : Statement .glbClrerr := ⟨opcodeMap[1], List.getElem_mem .., rfl, by decide⟩
theorem glbSetie (ied iee : Bool) : Statement (.glbSetie ied iee) := by
  refine ⟨opcodeMap[2], List.getElem_mem .., rfl, ?_⟩
  cases ied <;> cases iee <;> decide
theorem pencCreate : Statement .pencCreate := ⟨opcodeMap[3], List.getElem_mem .., rfl, by decide⟩
theorem pencDispose : Statement .pencDispose := ⟨opcodeMap[4], List.getElem_mem .., rfl, by decide⟩
theorem pencReset : Statement .pencReset := ⟨opcodeMap[5], List.getElem_mem .., rfl, by decide⟩
theorem pencSetbase (imm24 : Addr) : Statement (.pencSetbase imm24) :=
  ⟨opcodeMap[6], List.getElem_mem .., rfl, beq_iff_eq.2 (and_opcode_mask 0x13 imm24)⟩
theorem pencSetlen (imm24 : Addr) : Statement (.pencSetlen imm24) :=
  ⟨opcodeMap[7], List.getElem_mem .., rfl, beq_iff_eq.2 (and_opcode_mask 0x14 imm24)⟩
theorem pencSubmit : Statement .pencSubmit := ⟨opcodeMap[8], List.getElem_mem .., rfl, by decide⟩
theorem pencClrdone : Statement .pencClrdone := ⟨opcodeMap[9], List.getElem_mem .., rfl, by decide⟩
theorem tmapClear : Statement .tmapClear := ⟨opcodeMap[10], List.getElem_mem .., rfl, by decide⟩
theorem tmapAdd (rev : Bool) (len : Idx) : Statement (.tmapAdd rev len) :=
  ⟨opcodeMap[11], List.getElem_mem .., rfl,
    beq_iff_eq.2 (and_strip_mask (0x21#8 ++ 0#7) (BitVec.ofBool rev) len)⟩
theorem tmapSeal : Statement .tmapSeal := ⟨opcodeMap[12], List.getElem_mem .., rfl, by decide⟩
theorem tmapLookup (idx : Idx) : Statement (.tmapLookup idx) :=
  ⟨opcodeMap[13], List.getElem_mem .., rfl, beq_iff_eq.2 (and_upper_mask (0x23#8 ++ 0#8) idx)⟩

end Sys2Proof.Laws.Row
end

