-- ==== Sys2Proof/Laws/Step.lean ====
section
/-! SUPPORT. What an edge can do, said once (spec/00_scope.md rule R13, spec/70_reset_and_hazards.md rule R240). -/

namespace Sys2Proof.Machine

/-- A stage that follows another answers a next state where both do. -/
theorem andThen_eq_next {o : Host.Outcome State Fault Refusal} {f : State → Host.Outcome State Fault Refusal}
    {t : State} : andThen o f = .next t ↔ ∃ s, o = .next s ∧ f s = .next t := by
  cases o <;> simp [andThen]

@[simp] theorem andThen_next (s : State) (f : State → Host.Outcome State Fault Refusal) :
    andThen (.next s) f = f s := rfl

/-- A step with `rst`. -/
theorem step_reset {s : State} (h : (nextInput s).rst = true) :
    step s = .next (resetEdge (nextInput s) (takeInput s)) := by
  simp [step, edge, h]

/-- A step without `rst`. -/
theorem step_no_reset {s : State} (h : (nextInput s).rst = false) :
    step s = andThen
      (cmdStage (acceptedWord (nextInput s)) (hostWrites (nextInput s).writesBefore (takeInput s)))
      (finishEdge (nextInput s)) := by
  simp [step, edge, h]

/-- Everything a step that answers a next state can have done. -/
theorem step_cases {s t : State} (h : step s = .next t) :
    ((nextInput s).rst = true ∧ t = resetEdge (nextInput s) (takeInput s)) ∨
    ((nextInput s).rst = false ∧ ∃ u v,
      cmdStage (acceptedWord (nextInput s)) (hostWrites (nextInput s).writesBefore (takeInput s)) = .next u ∧
      engineStage (hostWrites (nextInput s).writesAt u) = .next v ∧ t = lineStage v) := by
  cases hr : (nextInput s).rst with
  | true =>
    rw [step_reset hr] at h
    cases h
    exact .inl ⟨rfl, rfl⟩
  | false =>
    rw [step_no_reset hr] at h
    obtain ⟨u, hu, hf⟩ := andThen_eq_next.1 h
    obtain ⟨v, hv, ht⟩ := andThen_eq_next.1 hf
    cases ht
    exact .inr ⟨rfl, u, v, hu, hv, rfl⟩

/-- No command stops the machine. -/
theorem exec_answers (i : Instr) (s : State) : ∃ t, exec i s = .next t := by
  cases i <;>
    simp only [exec, execGlbNop, execGlbClrerr, execGlbSetie, execPencCreate, execPencDispose, execPencReset,
      execPencSetbase, execPencSetlen, execPencSubmit, execPencClrdone, execTmapClear, execTmapAdd, execTmapSeal,
      execTmapLookup, whenReadyIdle, failWith] <;>
    repeat' first
      | exact ⟨_, rfl⟩
      | split

/-- The command stage always answers a next state. -/
theorem cmdStage_answers (cmd : Option Word) (s : State) : ∃ t, cmdStage cmd s = .next t := by
  unfold cmdStage
  split
  · exact ⟨_, rfl⟩
  · split
    · exact ⟨_, rfl⟩
    · exact exec_answers ..

/-- A run of any machine goes on from the state its first step answers. -/
theorem run_succ_of_step (M : Host.Core) {s t : M.State} (h : M.step s = .next t) (k : Nat) :
    M.run (k + 1) s = M.run k t := by
  simp only [Host.Core.run, h]

/-- A run of SWRGB, step by step. -/
theorem run_succ {s t : State} (h : step s = .next t) (k : Nat) :
    Sys2Proof.core.run (k + 1) s = Sys2Proof.core.run k t :=
  run_succ_of_step Sys2Proof.core h k

@[simp] theorem run_zero (s : State) : Sys2Proof.core.run 0 s = .next s := by
  simp only [Host.Core.run]

end Sys2Proof.Machine
end

