-- ==== Sys2Proof/Laws/Tmap.lean ====
section
/-! SUPPORT. What the map function gives, case by case (spec/41_topology_mapper.md rules R125 and R127). -/

namespace Sys2Proof.Machine

/-- Inside the topology the map is the walk of R125. -/
theorem mapFn_inside {s : State} {l : Idx} (h : l < s.tTotal) : mapFn s l = mapWalk l.toNat 0 (strips s) := by
  have h0 : s.tTotal ≠ 0 := fun e => by rw [e] at h; exact absurd h (by simp)
  simp only [mapFn, h0, if_false, BitVec.not_le.2 h, strips]

/-- From `T_TOTAL` up, on a topology with an LED, the map is its last physical index (R127). -/
theorem mapFn_beyond {s : State} {l : Idx} (h0 : s.tTotal ≠ 0) (h : s.tTotal ≤ l) : mapFn s l = s.tTotal - 1 := by
  simp only [mapFn, h0, if_false, h, if_true]

/-- On a topology with no LED the map has the model's free value (log entry 15). -/
theorem mapFn_empty {s : State} (h : s.tTotal = 0) (l : Idx) : mapFn s l = Config.mapUndefined l.toNat := by
  simp only [mapFn, h, if_true]

/-- The map depends on the topology alone. -/
theorem mapFn_congr {s t : State} (hn : t.tNStrips = s.tNStrips) (hs : t.tStrip = s.tStrip)
    (ht : t.tTotal = s.tTotal) (l : Idx) : mapFn t l = mapFn s l := by
  simp only [mapFn, hn, hs, ht]

end Sys2Proof.Machine
end

