-- ==== Sys2Proof/Tests/Slice0.lean ====
section
/-! SUPPORT. Tests: expected values from spec/95_test_vectors.md (section 1: X1 to X11; section 2: V-G, V-T, V-PC, the
encode table, V-L, V-E, V-R; section 3: P1 to P5), from the spec's encodings, or worked out by hand from a rule named at
the test; and, for every statement with hypotheses, a concrete case that meets them (the theorems named hyp_…). -/

namespace Sys2Proof.Tests

open Sys2Proof Sys2Proof.Machine

/-! ## Helpers -/

/-- The vectors' parameters: the defaults, with `MEM_BYTES = 256`. -/
def vectorBuild : Build := ⟨{ memBytes := 256 }, by decide⟩

/-- A FIFO of one symbol, so that states in the middle of a transmission stay small. -/
def smallBuild : Build := ⟨{ memBytes := 256, symCap := 1 }, by decide⟩

/-- The same with `PHY_HANG`. -/
def hangBuild : Build := ⟨{ memBytes := 256, symCap := 1, phyHang := true }, by decide⟩

/-- `S_reset` of a block. -/
def fresh (b : Build) : State := State.resetWith b [] [] 0

/-- `S_reset` at the vectors' parameters. -/
def s0 : State := fresh vectorBuild

/-- One field of a next state. -/
def field {α : Type} (f : State → α) : Host.Outcome State Fault Refusal → Option α
  | .next s => some (f s)
  | .fault _ => none
  | .refused _ => none

/-- The commands of some words, one after the other, each through the command stage. -/
def commands : List Word → State → Host.Outcome State Fault Refusal
  | [], s => .next s
  | w :: ws, s => andThen (cmdStage (some w) s) (commands ws)

/-- A state whose coming edge accepts a command word. -/
def given (w : Word) (s : State) : State := { s with inbox := [{ cmdValid := true, cmdData := w }] }

/-- Bit symbols at the default parameters (R153). -/
def bitsOf (l : List Nat) : List Symbol := l.map fun b => if b = 1 then 0x00058008 else 0x00098004

/-! ## WellFormed: a set that breaks one line of R8 each is refused -/

theorem test_defaults_legal : Params.Legal { memBytes := 256 } := by decide
theorem test_t0h_zero_refused : ¬ Params.Legal { memBytes := 256, t0hNs := 0 } := by decide
theorem test_t0l_above_field_refused : ¬ Params.Legal { memBytes := 256, t0lNs := 3276800 } := by decide
theorem test_t1h_above_field_refused : ¬ Params.Legal { memBytes := 256, t1hNs := 3276800 } := by decide
theorem test_t1l_zero_refused : ¬ Params.Legal { memBytes := 256, t1lNs := 0 } := by decide
theorem test_reset_gap_one_tick_refused : ¬ Params.Legal { memBytes := 256, resetNs := 100 } := by decide
theorem test_reset_gap_too_long_refused : ¬ Params.Legal { memBytes := 256, resetNs := 6553500 } := by decide
theorem test_equal_high_times_refused : ¬ Params.Legal { memBytes := 256, t1hNs := 400 } := by decide
theorem test_symcap_zero_refused : ¬ Params.Legal { memBytes := 256, symCap := 0 } := by decide
theorem test_symcap_1025_refused : ¬ Params.Legal { memBytes := 256, symCap := 1025 } := by decide
theorem test_maxstrips_17_refused : ¬ Params.Legal { memBytes := 256, maxStrips := 17 } := by decide
theorem test_no_memory_refused : ¬ Params.Legal { memBytes := 0 } := by decide
theorem test_memory_above_24_bits_refused : ¬ Params.Legal { memBytes := 16777217 } := by decide

/-- R7: ties go upward: 50 ns is half a tick at 10 MHz. -/
theorem test_ticks_tie_upward : ticks 10000000 50 = 1 ∧ ticks 10000000 49 = 0 := by decide

/-- X5, R7: the source's times at 10 MHz. -/
theorem test_default_ticks :
    vectorBuild.val.t0h = 4 ∧ vectorBuild.val.t0l = 9 ∧ vectorBuild.val.t1h = 8 ∧ vectorBuild.val.t1l = 5 ∧
    vectorBuild.val.resetTicks = 800 := by decide

/-! ## Decode: every constructor by a word written out from R81 and R83, bit by bit -/

theorem test_decode_glbNop : decode 0b00000000_000000000000000000000000 = .ok .glbNop := by decide
theorem test_decode_glbClrerr : decode 0b00000001_000000000000000000000000 = .ok .glbClrerr := by decide
theorem test_decode_glbSetie_done : decode 0b00000010_0000000000000000000000_0_1 = .ok (.glbSetie true false) := by
  decide
theorem test_decode_glbSetie_err : decode 0b00000010_0000000000000000000000_1_0 = .ok (.glbSetie false true) := by
  decide
theorem test_decode_pencCreate : decode 0b00010000_000000000000000000000000 = .ok .pencCreate := by decide
theorem test_decode_pencDispose : decode 0b00010001_000000000000000000000000 = .ok .pencDispose := by decide
theorem test_decode_pencReset : decode 0b00010010_000000000000000000000000 = .ok .pencReset := by decide
theorem test_decode_pencSetbase : decode 0b00010011_100000000000000000000001 = .ok (.pencSetbase 0x800001) := by decide
theorem test_decode_pencSetlen : decode 0b00010100_100000000000000000000011 = .ok (.pencSetlen 0x800003) := by decide
theorem test_decode_pencSubmit : decode 0b00010101_000000000000000000000000 = .ok .pencSubmit := by decide
theorem test_decode_pencClrdone : decode 0b00010110_000000000000000000000000 = .ok .pencClrdone := by decide
theorem test_decode_tmapClear : decode 0b00100000_000000000000000000000000 = .ok .tmapClear := by decide
theorem test_decode_tmapAdd : decode 0b00100001_0000000_1_1000000000000101 = .ok (.tmapAdd true 0x8005) := by decide
theorem test_decode_tmapSeal : decode 0b00100010_000000000000000000000000 = .ok .tmapSeal := by decide
theorem test_decode_tmapLookup : decode 0b00100011_00000000_1000000000001010 = .ok (.tmapLookup 0x800A) := by decide

/-- Section 2.1: the `ILLEGAL` words of the table, and the edges of R85's ranges. -/
theorem test_illegal_words :
    ([0x03000000, 0x0F000000, 0x17000000, 0x1F000000, 0x24000000, 0xFF000000] : List Word).all
      (fun w => decode w == .error .unassignedOpcode) = true ∧
    ([0x00000001, 0x02000004, 0x10000001, 0x15000001, 0x21020005, 0x23010000, 0x21FE0000] : List Word).all
      (fun w => decode w == .error .reservedOperandBit) = true := by decide

/-- R83: the table's own numbering is the word's. -/
theorem test_table_word : decodeTableWord 32 0x21010005 = some (.tmapAdd true 5) ∧ decodeTableWord 24 0xFF = none := by
  decide

/-! ## The assembler (R87, R88) -/

theorem test_asm_lines :
    assembleText "  TMAP.Add 5, rev ; a strip".toList = some [0x21010005] ∧
    assembleText "penc.setbase 0x000100".toList = some [0x13000100] ∧
    assembleText "glb.setie 1, 0".toList = some [0x02000001] ∧
    assembleText "; only a comment".toList = some [] ∧
    assembleText "glb.setie 2, 0".toList = none ∧
    assembleText "tmap.add 65536".toList = none ∧
    assembleText "penc.send 0, 0x1000000".toList = none ∧ assembleText "tmap.single 65536".toList = none := by decide

theorem test_asm_pseudo :
    assembleText "penc.send 0x40, 3".toList = some [0x13000040, 0x14000003, 0x15000000] ∧
    assembleText "tmap.single 10".toList = some [0x20000000, 0x2100000A, 0x22000000] ∧
    assembleText "irq.off".toList = some [0x02000000] ∧ assembleText "tmap.rev 5".toList = some [0x21010005] := by
  decide

/-! ## Global commands -/

/-- V-G6. -/
theorem test_glbNop : field (· == s0) (exec .glbNop s0) = some true := by decide

/-- V-G1: `GLB.CLRERR` clears the error and `irq`'s error term. -/
theorem test_glbClrerr :
    field (fun s => (s.err, irq s)) (exec .glbClrerr { s0 with err := 5, ieErr := true }) = some (0, false) := by decide

/-- V-G3: enabling `IE_DONE` while `P_DONE` = 1 raises `irq`. -/
theorem test_glbSetie :
    field (fun s => (s.ieDone, s.ieErr, irq s)) (exec (.glbSetie true false) { s0 with pDone := true }) =
      some (true, false, true) := by decide

/-- V-G5, P4 edge 1: an illegal word with `IE_ERR` = 1. -/
theorem test_illegal_status :
    field (fun s => readPort s 0) (commands [0x02000002, 0xFF000000] s0) = some 0x00006200 := by decide

/-- P4 edges 2 to 7: back to `S_reset` in every variable. -/
theorem test_p4_end :
    field (· == s0)
      (commands [0x02000002, 0xFF000000, 0x01000000, 0x02000004, 0x00000001, 0x23000000, 0x01000000, 0x02000000] s0) =
      some true := by decide

/-- V-E1, V-E2: the last error wins, and a command that succeeds leaves it. -/
theorem test_last_error_wins :
    field (·.err) (commands [0x23000000, 0xFF000000, 0x10000000] s0) = some 2 := by decide

/-! ## Topology mapper -/

/-- Strips `[(10, 0), (5, 1)]` (V-T1), unsealed. -/
def twoStrips : State :=
  { s0 with
    tNStrips := 2, tTotal := 15
    tStrip := [⟨10, false⟩, ⟨5, true⟩, ⟨0, false⟩, ⟨0, false⟩, ⟨0, false⟩, ⟨0, false⟩, ⟨0, false⟩, ⟨0, false⟩] }

/-- The same, sealed (V-T6). -/
def sealedStrips : State := { twoStrips with tSealed := true }

/-- V-T1: two additions. -/
theorem test_tmapAdd : field (· == twoStrips) (commands [0x2100000A, 0x21010005] s0) = some true := by decide

/-- V-T11: a full table with a full total: the table check is first. -/
theorem test_tmapAdd_full :
    field (fun s => (s.err, s.tNStrips)) (exec (.tmapAdd false 1) { s0 with tNStrips := 8, tTotal := 65535 }) =
      some (3, 8) := by decide

/-- V-T4, V-T5: 65535 + 1 is refused, computed in 17 bits; an empty strip is not. -/
theorem test_tmapAdd_total :
    field (fun s => (s.err, s.tTotal)) (commands [0x2100FFFF, 0x21000001] s0) = some (4, 65535) ∧
    field (fun s => (s.err, s.tNStrips)) (commands [0x2100FFFF, 0x21000000] s0) = some (0, 2) := by decide

/-- V-T2. -/
theorem test_tmapClear :
    field (fun s => (s.tNStrips, s.tTotal, readPort s 0x10)) (exec .tmapClear twoStrips) = some (0, 0, 0) := by decide

/-- V-T8, and V-T9: the format check comes before the seal check. -/
theorem test_tmap_sealed :
    field (fun s => (s.err, s.tTotal)) (exec .tmapClear sealedStrips) = some (5, 15) ∧
    field (·.err) (commands [0x21FE0000] sealedStrips) = some 2 := by decide

/-- V-T6. -/
theorem test_tmapSeal : field (fun s => readPort s 0) (commands [0x22000000, 0x22000000] twoStrips) = some 0x80 := by
  decide

/-- X1, X2, V-T14, P1 edge 6. -/
theorem test_tmapLookup :
    field (·.tResult) (exec (.tmapLookup 10) sealedStrips) = some 14 ∧
    field (·.tResult) (exec (.tmapLookup 11) sealedStrips) = some 13 ∧
    field (fun s => (s.tResult, s.err)) (exec (.tmapLookup 20) sealedStrips) = some (14, 0) := by decide

/-- V-T12, V-T13. -/
theorem test_tmapLookup_refused :
    field (fun s => (s.err, s.tResult)) (exec (.tmapLookup 3) twoStrips) = some (5, 0) ∧
    field (fun s => (s.err, s.tResult)) (commands [0x22000000, 0x23000000] s0) = some (5, 0) := by decide

/-- The map of some strips, at some indices (section 2.3). -/
def mapOf (l : List Strip) (total : Nat) (at_ : List Nat) : List Idx :=
  at_.map fun i => mapFn { s0 with tStrip := l, tNStrips := BitVec.ofNat 5 l.length, tTotal := BitVec.ofNat 16 total } (BitVec.ofNat 16 i)

theorem test_map_empty_strips :
    mapOf [⟨0, false⟩, ⟨3, true⟩, ⟨0, true⟩, ⟨2, false⟩] 5 [0, 1, 2, 3, 4, 5, 100] = [2, 1, 0, 3, 4, 4, 4] := by decide

theorem test_map_reversed :
    mapOf [⟨3, true⟩] 3 [0, 1, 2, 3] = [2, 1, 0, 2] ∧ mapOf [⟨1, true⟩] 1 [0, 1] = [0, 0] ∧
    mapOf [⟨4, true⟩, ⟨4, true⟩] 8 [0, 3, 4, 7, 8] = [3, 0, 7, 4, 7] ∧
    mapOf [⟨65535, true⟩] 65535 [0, 1, 65534, 65535] = [65534, 65533, 0, 65534] := by decide

/-- V-T15 to V-T17: the map port. -/
theorem test_map_port :
    (mapOut sealedStrips 12, mapOut sealedStrips 15, mapValid sealedStrips) = (12, 14, true) ∧
    (mapOut twoStrips 0, mapValid twoStrips) = (0, false) := by decide

/-! ## Encoder commands -/

/-- An encoder that exists and is idle. -/
def ready : State := { s0 with pLc := .ready }

/-- DATA of section 2.5: `FF 00 A5 80 01 3C 00 00`. -/
def vectorData : Memory := [(0, 0xFF), (1, 0x00), (2, 0xA5), (3, 0x80), (4, 0x01), (5, 0x3C), (6, 0x00), (7, 0x00)]

/-- V-PC1, V-PC2. -/
theorem test_pencCreate :
    field (fun s => readPort s 0) (exec .pencCreate s0) = some 0x10 ∧
    field (· == ready) (exec .pencCreate ready) = some true := by decide

/-- V-PC3, V-PC17: `DONE` stays. -/
theorem test_pencDispose :
    field (· == s0) (exec .pencDispose s0) = some true ∧
    field (fun s => readPort s 0) (exec .pencDispose { ready with pDone := true }) = some 0x02 := by decide

/-- V-PC4, and R156 on an encoder away from its initial state. -/
theorem test_pencReset :
    field (·.err) (exec .pencReset s0) = some 5 ∧
    field (fun s => readPort s 3)
      (exec .pencReset { ready with pSt := .sendReset, pByteIdx := 7, pBitIdx := 3 }) = some 0 := by decide

/-- V-PC6, V-PC4. -/
theorem test_pencSetbase :
    field (fun s => (readPort s 1, s.err)) (exec (.pencSetbase 0xFFFFFF) ready) = some (0x00FFFFFF, 0) ∧
    field (fun s => (s.pBase, s.err)) (exec (.pencSetbase 9) s0) = some (0, 5) := by decide

/-- R158's example, V-PC12. -/
theorem test_pencSetlen :
    field (fun s => readPort s 2) (exec (.pencSetlen 3) ready) = some 3 ∧
    field (fun s => (s.pLen, s.err)) (exec (.pencSetlen 3) { ready with pBusy := true }) = some (0, 5) := by decide

/-- V-PC7, V-PC8, V-PC10: outside DATA, in 25 bits. -/
theorem test_pencSubmit_outside :
    field (·.err) (exec .pencSubmit { ready with pBase := 0xFFFFFF, pLen := 2 }) = some 4 ∧
    field (·.err) (exec .pencSubmit { ready with pBase := 0xFFFFFF, pLen := 0xFFFFFF }) = some 4 ∧
    field (·.err) (exec .pencSubmit { ready with pBase := 233, pLen := 24 }) = some 4 := by decide

/-- V-PC9, V-PC11, V-PC14, X9. -/
theorem test_pencSubmit :
    field (fun s => (s.pBusy, s.err)) (exec .pencSubmit { ready with pBase := 232, pLen := 24 }) = some (true, 0) ∧
    field (fun s => (s.pBusy, s.err)) (exec .pencSubmit { ready with pBase := 256, pLen := 0 }) = some (true, 0) ∧
    field (fun s => (s.pBusy, s.err)) (exec .pencSubmit { ready with pBitIdx := 1 }) = some (false, 5) ∧
    field (fun s => (s.pBusy, s.err)) (exec .pencSubmit s0) = some (false, 5) := by decide

/-- V-PC16, V-PC5. -/
theorem test_pencClrdone :
    field (fun s => (s.pDone, s.err)) (exec .pencClrdone { s0 with pDone := true }) = some (false, 0) := by decide

/-- V-PC15, P2 edge 4: a whole edge with `PENC.SUBMIT`. -/
theorem test_submit_edge :
    field (fun s => [readPort s 0, readPort s 4, readPort s 5, readPort s 0x0D])
      (step (given 0x15000000 { ready with pLen := 3, mem := vectorData })) =
      some [0x35, 25, 24, 0x00070005] := by decide

/-- P3 edge 4: a zero-length transmission. -/
theorem test_submit_empty :
    field (fun s => [readPort s 0, readPort s 4, readPort s 5, readPort s 0x0D]) (step (given 0x15000000 ready)) =
      some [0x35, 1, 0, 0x018F0001] := by decide

/-- Section 2.5's engine schedule for `P_LEN` = 10: `S_T` has `PPOS` = 8 and `FIFOCNT` = 63. -/
theorem test_submit_long :
    field (fun s => [readPort s 3, readPort s 5, readPort s 4])
      (step (given 0x15000000 { ready with pLen := 10, mem := vectorData })) = some [0x8, 63, 64] := by decide

/-! ## The encode function: rows of section 2.5 -/

/-- What a row of the table says of an invocation: the symbols, `c`, `f`, the position after, whether it stands in
`SEND_RESET`, and the reads. -/
structure Row where
  out : List Symbol
  c : Bool
  f : Bool
  byteIdx : Addr
  bitIdx : BitVec 3
  inReset : Bool
  reads : List Addr
  deriving DecidableEq

/-- An invocation on `P_LEN` bytes of the vectors' DATA from a position. -/
def encodeRow (len : Addr) (st : EncState) (byteIdx : Addr) (bitIdx : BitVec 3) (h : Nat) : Option Row :=
  (invokeEncode h { ready with pLen := len, pSt := st, pByteIdx := byteIdx, pBitIdx := bitIdx, mem := vectorData }).map
    fun r => ⟨r.out, r.complete, r.memFull, r.state.pByteIdx, r.state.pBitIdx, decide (r.state.pSt = .sendReset),
      r.state.memReads⟩

/-- Row 1. -/
theorem test_encode_whole :
    encodeRow 3 .sendData 0 0 64 =
      some ⟨bitsOf [1,1,1,1,1,1,1,1, 0,0,0,0,0,0,0,0, 1,0,1,0,0,1,0,1] ++ [0x01900190], true, false,
        0, 0, false, [0, 1, 2]⟩ := by decide

/-- Rows 2 and 3: exact fills. -/
theorem test_encode_exact :
    (encodeRow 3 .sendData 0 0 25).map (fun r => (r.out.length, r.c, r.f, r.inReset)) = some (25, true, true, false) ∧
    (encodeRow 3 .sendData 0 0 24).map (fun r => (r.out.length, r.c, r.f, r.inReset)) = some (24, false, true, true) := by decide

/-- Rows 4 and 5. -/
theorem test_encode_reset :
    encodeRow 3 .sendReset 0 0 1 = some ⟨[0x01900190], true, true, 0, 0, false, []⟩ ∧
    encodeRow 3 .sendReset 0 0 5 = some ⟨[0x01900190], true, false, 0, 0, false, []⟩ := by decide

/-- Rows 6 and 9: in the middle of a byte. -/
theorem test_encode_middle :
    encodeRow 3 .sendData 0 0 10 = some ⟨bitsOf [1,1,1,1,1,1,1,1, 0,0], false, true, 1, 2, false, [0, 1]⟩ ∧
    encodeRow 3 .sendData 1 2 13 =
      some ⟨bitsOf [0,0,0,0,0,0, 1,0,1,0,0,1,0], false, true, 2, 7, false, [1, 2]⟩ := by decide

/-- Rows 10 and 11: the empty buffer. -/
theorem test_encode_empty :
    encodeRow 0 .sendData 0 0 64 = some ⟨[0x01900190], true, false, 0, 0, false, []⟩ ∧
    encodeRow 0 .sendData 0 0 1 = some ⟨[0x01900190], true, true, 0, 0, false, []⟩ := by decide

/-- R171, R36: the 64 bits fill the FIFO, so the stage keeps `COMPLETE` = 0 and `MEM_FULL` = 1 (R172, row `P_LEN` = 8); the last
symbol with room to spare gives 1 and 0 (row `P_LEN` = 3). -/
theorem test_engine_flags :
    field (fun s => (s.pLastComplete, s.pLastMemFull, s.pXDone, s.pSymCnt, s.fQ.length))
      (engineStage { ready with pBusy := true, pLen := 8, mem := vectorData }) = some (false, true, false, 64, 64) ∧
    field (fun s => (s.pLastComplete, s.pLastMemFull, s.pXDone, s.pSymCnt, s.fQ.length))
      (engineStage { ready with pBusy := true, pLen := 3, mem := vectorData }) = some (true, false, true, 25, 25) := by
  decide

/-- R70: a read of a byte that the host has raced is a free draw, and the next one another. -/
theorem test_raced_reads :
    (bitsLoop { ready with pLen := 2, mem := vectorData, raced := [0, 1] } 9 true 0 0 ⟨4, []⟩).map (fun r => r.2.draws) =
      some 6 := by decide

/-! ## The line: V-L1 to V-L3 -/

/-- A line that takes a symbol at its next stage. -/
def lineWith (x : Symbol) : State := { s0 with pBusy := true, fQ := [x] }

/-- `PGENST` after some line stages. -/
def pgenstAfter (n : Nat) (s : State) : Word := readPort (lineStage^[n] s) 0x0D

theorem test_line_bit1 :
    pgenstAfter 1 (lineWith 0x00058008) = 0x00070005 ∧ pgenstAfter 8 (lineWith 0x00058008) = 0x00050007 ∧
    pgenstAfter 12 (lineWith 0x00058008) = 0x00010003 ∧ pgenstAfter 13 (lineWith 0x00058008) = 0x00010002 := by decide

theorem test_line_bit0_reset :
    pgenstAfter 1 (lineWith 0x00098004) = 0x00030005 ∧ pgenstAfter 1 (lineWith 0x01900190) = 0x018F0001 := by decide

/-- V-R1, V-R2: the read port after reset. -/
theorem test_read_port_reset :
    ((List.range 32).map fun i => readPort s0 (BitVec.ofNat 5 i)) =
      [0, 0, 0, 0, 0, 0, 0x00090004, 0x00050008, 0x00000320, 0x00080040, 0, 0, 0, 0, 0x52470001, 0] ++
        List.replicate 16 0 := by decide

/-- P1's end: `TSTRIP0`, `TSTRIP1`, `TNSTRIPS`, `TTOTAL`. -/
theorem test_read_port_topology :
    [0x10, 0x11, 0x12, 0x0A, 0x0B].map (readPort twoStrips) = [0x0000000A, 0x00010005, 0, 2, 15] := by decide

/-! ## The hardware's step on a command that the host's interface places -/

/-- From `State.reset`, `withFetchWord` puts the word on the command port of the very next edge. -/
theorem test_withFetchWord :
    field (fun s => (s.tNStrips, s.tTotal)) (step (State.reset.withFetchWord 32 0x2100000A)) = some (1, 10) := by decide

/-! ## The hypotheses of the statements, met by concrete cases -/

/-! ### States -/

/-- An idle encoder on a FIFO of one symbol, one byte to send. -/
def smallReady : State := { fresh smallBuild with pLc := .ready, pLen := 1, mem := [(0, 0xFF)] }

/-- One edge into the transmission of that byte: its first bit is on the line. -/
def inFlight : State :=
  { smallReady with
    pBusy := true, pBitIdx := 1, pSymCnt := 1, pLastMemFull := true, gLoaded := true, gSym := 0x00058008, gRem := 7
    gDout := true, memReads := [0] }

/-- The state of the transmission of no bytes at which the reset symbol's last tick is being driven. -/
def lastTick : State :=
  { fresh smallBuild with
    pLc := .ready, pBusy := true, pXDone := true, pSymCnt := 1, pLastComplete := true, gSym := 0x01900190
    gHalf := true, gRem := 1 }

/-- The same transmission on a block that may hang, frozen. -/
def frozen : State :=
  { fresh hangBuild with
    pLc := .ready, pBusy := true, pXDone := true, pSymCnt := 1, pLastComplete := true, gLoaded := true
    gSym := 0x01900190, gRem := 7, hung := true }

/-- An idle safe state away from reset: a sealed topology, an encoder, an error, a finished transmission. -/
def finished : State := { sealedStrips with pLc := .ready, pDone := true, pXDone := true, pSymCnt := 25, err := 5 }

/-- An input that keeps to R250: a command, and a write outside the range. -/
def politeInput : EdgeInput := { cmdValid := true, cmdData := 0, writesBefore := [⟨200, 1⟩], writesAt := [⟨1, 2⟩] }

/-- A transmission's first edge, as the rules give it (R171, R193). -/
theorem test_inFlight_reached : field (· == inFlight) (step (given 0x15000000 smallReady)) = some true := by decide

theorem hyp_Inv_inFlight : Inv inFlight := by
  constructor
  case topology => constructor <;> decide
  case fifo_symbols => intro x hx; cases hx
  case held_symbol => exact fun _ => Or.inr (Or.inl (by decide))
  all_goals decide

theorem hyp_Inv_lastTick : Inv lastTick := by
  constructor
  case topology => constructor <;> decide
  case fifo_symbols => intro x hx; cases hx
  case held_symbol => intro h; cases h
  all_goals decide

theorem hyp_Inv_frozen : Inv frozen := by
  constructor
  case topology => constructor <;> decide
  case fifo_symbols => intro x hx; cases hx
  case held_symbol => exact fun _ => Or.inr (Or.inr (by decide))
  all_goals decide

theorem hyp_Inv_finished : Inv finished := by
  constructor
  case topology => constructor <;> decide
  case fifo_symbols => intro x hx; cases hx
  case held_symbol => intro h; cases h
  all_goals decide

theorem hyp_Inv_smallReady : Inv { smallReady with inbox := [{ cmdValid := true, cmdData := 0x15000000 }, politeInput] } := by
  constructor
  case topology => constructor <;> decide
  case fifo_symbols => intro x hx; cases hx
  case held_symbol => intro h; cases h
  all_goals decide

theorem hyp_quiet_polite : quietInput { inFlight with inbox := [politeInput] } politeInput := by
  unfold quietInput
  decide

/-! ### Encodings -/

theorem hyp_EncodeOfDecode : decode 0x21010005 = .ok (.tmapAdd true 5) := by decide

theorem hyp_DecodeIsTheTableSearch_fits : ∃ r ∈ opcodeMap, (0x2101FFFF : Word) &&& r.mask = r.pattern :=
  ⟨opcodeMap[11], List.getElem_mem _, by decide⟩

theorem hyp_DecodeIsTheTableSearch_none : ∀ r ∈ opcodeMap, (0x21020000 : Word) &&& r.mask ≠ r.pattern := by
  intro r hr
  obtain ⟨k, rfl⟩ := List.mem_iff_get.1 hr
  clear hr
  revert k
  decide

theorem hyp_IllegalWords_unassigned :
    opcUnassigned (opcField 0x03000000) ∧ opcUnassigned (opcField 0x0FFFFFFF) ∧ opcUnassigned (opcField 0x17000000) ∧
    opcUnassigned (opcField 0x1F000000) ∧ opcUnassigned (opcField 0x24000000) ∧ opcUnassigned (opcField 0xFF000000) := by
  unfold opcUnassigned
  decide

theorem hyp_IllegalWords_reserved :
    (0x02000004 : Word) &&& reservedBits (opcField 0x02000004) ≠ 0 ∧
    (0x21020000 : Word) &&& reservedBits (opcField 0x21020000) ≠ 0 ∧
    (0x23010000 : Word) &&& reservedBits (opcField 0x23010000) ≠ 0 ∧
    (0x15800000 : Word) &&& reservedBits (opcField 0x15800000) ≠ 0 := by decide

theorem hyp_IllegalWords_legal :
    ¬ opcUnassigned (opcField 0x13FFFFFF) ∧ (0x13FFFFFF : Word) &&& reservedBits (opcField 0x13FFFFFF) = 0 ∧
    ¬ opcUnassigned (opcField 0x2101FFFF) ∧ (0x2101FFFF : Word) &&& reservedBits (opcField 0x2101FFFF) = 0 := by
  unfold opcUnassigned
  decide

theorem hyp_AssembledCommands :
    (∀ w, AsmLine.pencSend 0xFFFFFF 0 ≠ .word w) ∧
    assemble (.pencSend 0xFFFFFF 0) = some [0x13FFFFFF, 0x14000000, 0x15000000] ∧
    (2 ^ 24 ≤ 16777216 ∨ 2 ^ 24 ≤ 0) ∧ (2 ^ 24 ≤ 0 ∨ 2 ^ 24 ≤ 16777216) ∧ 2 ^ 16 ≤ 65536 := by
  refine ⟨fun w h => ?_, by decide⟩
  cases h

theorem hyp_PseudoInstructions : 16777215 < 2 ^ 24 ∧ 65535 < 2 ^ 16 := by decide

/-! ### The edge -/

theorem hyp_StepRunsDecodedCommand :
    (nextInput (given 0x21010005 s0)).rst = false ∧ (nextInput (given 0x21010005 s0)).cmdValid = true ∧
    decode (nextInput (given 0x21010005 s0)).cmdData = .ok (.tmapAdd true 5) := by decide

/-- An edge with `cmd_valid` = 0 and a word that would be a command on `cmd_data`. -/
theorem hyp_StepRunsNoCommand :
    let s := { inFlight with inbox := [{ cmdData := 0x11000000, writesAt := [⟨200, 1⟩] }] }
    (nextInput s).rst = false ∧ (nextInput s).cmdValid = false := by decide

theorem hyp_ResetEdge :
    (nextInput { inFlight with inbox := [{ rst := true, writesAt := [⟨0, 7⟩] }, { rst := true }] }).rst = true ∧
    field nextInput (step { inFlight with inbox := [{ rst := true, writesAt := [⟨0, 7⟩] }, { rst := true }] }) =
      some { rst := true } := by decide

/-! ### Commands -/

/-- Words that share a command's opcode, one the command and one not, for each command without operands. -/
theorem hyp_OnlyWord :
    ([0x00, 0x01, 0x10, 0x11, 0x12, 0x15, 0x16, 0x20, 0x22] : List Nat).all (fun opc =>
      opcField (BitVec.ofNat 32 (opc * 2 ^ 24 + 1)) == opcField (BitVec.ofNat 32 (opc * 2 ^ 24)) &&
      BitVec.ofNat 32 (opc * 2 ^ 24 + 1) != BitVec.ofNat 32 (opc * 2 ^ 24)) = true := by decide

theorem hyp_format :
    (opcField 0x02000004 = 0x02 ∧ (0x02000004 : Word) &&& 0x00FFFFFC ≠ 0) ∧
    (opcField 0x21020005 = 0x21 ∧ (0x21020005 : Word) &&& 0x00FE0000 ≠ 0) ∧
    (opcField 0x23010000 = 0x23 ∧ (0x23010000 : Word) &&& 0x00FF0000 ≠ 0) := by decide

theorem hyp_TmapClear : sealedStrips.tSealed = true ∧ twoStrips.tSealed = false := by decide

theorem hyp_TmapAdd :
    sealedStrips.tSealed = true ∧
    (let s := { s0 with tNStrips := 8, tTotal := 65535 }
     s.tSealed = false ∧ s.tNStrips.toNat = s.params.maxStrips) ∧
    (let s := { s0 with tNStrips := 7, tTotal := 65535 }
     s.tSealed = false ∧ s.tNStrips.toNat ≠ s.params.maxStrips ∧ 65535 < s.tTotal.toNat + (1 : Idx).toNat) ∧
    (let s := { s0 with tNStrips := 7, tTotal := 65535 }
     s.tSealed = false ∧ s.tNStrips.toNat ≠ s.params.maxStrips ∧ s.tTotal.toNat + (0 : Idx).toNat ≤ 65535 ∧
       s.tNStrips.toNat < s.tStrip.length) := by decide

theorem hyp_TmapSeal : sealedStrips.tSealed = true := by decide

theorem hyp_TmapLookup :
    twoStrips.tSealed = false ∧ s0.tTotal = 0 ∧ sealedStrips.tSealed = true ∧ sealedStrips.tTotal ≠ 0 := by decide

theorem hyp_lifecycle :
    s0.pLc = .absent ∧ ready.pLc = .ready ∧ ready.pBusy = false ∧ inFlight.pLc = .ready ∧ inFlight.pBusy = true := by
  decide

theorem hyp_PencSubmit :
    ¬ ((let s := { ready with pBitIdx := 1 }
        s.pSt = .sendData ∧ s.pByteIdx = 0 ∧ s.pBitIdx = 0 ∧ s.pRstSent = 0)) ∧
    (let s := { ready with pBase := 233, pLen := 24 }
     s.pLc = .ready ∧ s.pBusy = false ∧ (s.pSt = .sendData ∧ s.pByteIdx = 0 ∧ s.pBitIdx = 0 ∧ s.pRstSent = 0) ∧
       s.params.memBytes < s.pBase.toNat + s.pLen.toNat) ∧
    (let s := { ready with pBase := 232, pLen := 24 }
     s.pLc = .ready ∧ s.pBusy = false ∧ (s.pSt = .sendData ∧ s.pByteIdx = 0 ∧ s.pBitIdx = 0 ∧ s.pRstSent = 0) ∧
       s.pBase.toNat + s.pLen.toNat ≤ s.params.memBytes) := by decide

theorem hyp_PencClrdone :
    let s := given 0x16000000 lastTick
    s.pBusy = true ∧ s.pXDone = true ∧ s.fQ = [] ∧ s.gLoaded = false ∧ s.hung = false ∧ s.params.phyHang = false ∧
      nextInput s = { cmdValid := true, cmdData := 0x16000000 } := by decide

/-- One word for every cell of R215's table. -/
theorem hyp_FirstFailedCheck :
    wordError 0xFF000000 s0 = some .formatInvalid ∧ wordError 0x12000000 s0 = some .invalidState ∧
    wordError 0x11000000 inFlight = some .invalidState ∧ wordError 0x13000000 inFlight = some .invalidState ∧
    wordError 0x15000000 s0 = some .invalidState ∧ wordError 0x15000000 inFlight = some .invalidState ∧
    wordError 0x15000000 { ready with pBitIdx := 1 } = some .invalidState ∧
    wordError 0x15000000 { ready with pBase := 257 } = some .invalidArgument ∧
    wordError 0x20000000 sealedStrips = some .invalidState ∧ wordError 0x21000001 sealedStrips = some .invalidState ∧
    wordError 0x21000001 { s0 with tNStrips := 8 } = some .resourceExhausted ∧
    wordError 0x21000001 { s0 with tTotal := 65535 } = some .invalidArgument ∧
    wordError 0x23000000 twoStrips = some .invalidState ∧
    wordError 0x23000000 { s0 with tSealed := true } = some .invalidState ∧
    wordError 0x23000003 sealedStrips = none ∧ wordError 0x11000000 s0 = none ∧
    (let s := given 0x23000000 twoStrips
     (nextInput s).rst = false ∧ (nextInput s).cmdValid = true ∧ (nextInput s).cmdData = 0x23000000 ∧
       wordError 0x23000000 (hostWrites (nextInput s).writesBefore (takeInput s)) = some .invalidState) := by decide

/-! ### Frames -/

theorem hyp_CommandsWriteOnly : (∃ t, exec .pencSubmit ready = .next t) ∧ (∃ t, exec (.tmapAdd true 5) s0 = .next t) :=
  ⟨⟨_, rfl⟩, ⟨_, rfl⟩⟩

theorem hyp_engineStage : ∃ t, engineStage inFlight = .next t := ⟨_, rfl⟩

theorem hyp_step : ∃ t, step { inFlight with inbox := [politeInput] } = .next t := ⟨_, rfl⟩

theorem hyp_BlockNeverWrites : ∀ w ∈ politeInput.writesBefore ++ politeInput.writesAt, w.addr.toNat ≠ 0 := by decide

theorem hyp_SealedTopology :
    sealedStrips.tSealed = true ∧ (nextInput sealedStrips).rst = false ∧ (∃ t, step sealedStrips = .next t) :=
  ⟨by decide, by decide, _, rfl⟩

/-! ### The topology mapper -/

theorem hyp_TopologyOk : TopologyOk sealedStrips ∧ 0 < sealedStrips.tTotal.toNat := by
  refine ⟨?_, by decide⟩
  constructor <;> decide

theorem hyp_map_in_range : (0 : Idx) < sealedStrips.tTotal ∧ (9 : Idx) < sealedStrips.tTotal ∧
    (10 : Idx) < sealedStrips.tTotal ∧ (14 : Idx) < sealedStrips.tTotal := by decide

theorem hyp_OutOfRangeIndex :
    sealedStrips.tTotal ≠ 0 ∧ sealedStrips.tTotal ≤ 15 ∧ sealedStrips.tTotal ≤ 65535 ∧ sealedStrips.tSealed = true := by
  decide

theorem hyp_MapPort :
    sealedStrips.tSealed = true ∧ sealedStrips.tTotal ≠ 0 ∧ twoStrips.tSealed = false ∧ s0.tTotal = 0 := by decide

theorem hyp_ReversalExample : strips twoStrips = [⟨10, false⟩, ⟨5, true⟩] ∧ twoStrips.tTotal = 15 := by decide

theorem hyp_EmptyStrips : (3 : Nat) ≤ 3 := by decide

/-! ### The encoder -/

/-- One room short of the end, and at it: the two sides of `COMPLETE` and `MEM_FULL`. -/
theorem hyp_encoder :
    (1 ≤ 7 ∧ inFlight.pBase.toNat + inFlight.pLen.toNat ≤ inFlight.params.memBytes ∧ inFlight.raced = [] ∧
      inFlight.pRstSent = 0 ∧ bitPos inFlight ≤ 8 * inFlight.pLen.toNat ∧
      (inFlight.pSt = .sendReset → bitPos inFlight = 0)) ∧
    (let s := { inFlight with pSt := .sendReset, pBitIdx := 0 }
     1 ≤ 1 ∧ s.pBase.toNat + s.pLen.toNat ≤ s.params.memBytes ∧ s.raced = [] ∧ s.pRstSent = 0 ∧
      bitPos s ≤ 8 * s.pLen.toNat ∧ s.pSt = .sendReset ∧ bitPos s = 0) := by decide

theorem hyp_Chunking :
    (∀ h ∈ [3, 4, 2], 1 ≤ h) ∧ encoderInitial smallReady = true ∧ smallReady.raced = [] ∧
    smallReady.pBase.toNat + smallReady.pLen.toNat ≤ smallReady.params.memBytes := by decide

/-- A stage with room, at a state that answers an invocation; the three ways to have none to make. -/
theorem hyp_EngineStage :
    (inFlight.pBusy = true ∧ inFlight.pXDone = false ∧ inFlight.fQ.length < inFlight.params.symCap ∧
      ∃ r, invokeEncode (inFlight.params.symCap - inFlight.fQ.length) { inFlight with memReads := [] } = some r) ∧
    s0.pBusy = false ∧ lastTick.pXDone = true ∧
    (let s := { inFlight with fQ := [0x00058008] }
     s.params.symCap ≤ s.fQ.length) :=
  ⟨⟨by decide, by decide, by decide, _, rfl⟩, by decide⟩

theorem hyp_ReadsStay :
    s0.pBusy = false ∧ lastTick.pXDone = true ∧ (∃ t, engineStage s0 = .next t) ∧ (∃ t, engineStage lastTick = .next t) :=
  ⟨by decide, by decide, ⟨_, rfl⟩, ⟨_, rfl⟩⟩

theorem hyp_FinishedTransmission :
    lastTick.pBusy = true ∧ (nextInput lastTick).rst = false ∧ field (·.pBusy) (step lastTick) = some false := by decide

/-- The first and the last byte of the range, and the bytes beside it. -/
theorem hyp_RacedReads :
    let s := { inFlight with pBase := 10, pLen := 4, raced := [10] }
    (10 : Addr).toNat < s.params.memBytes ∧ s.pBusy = true ∧ inRange s 10 = true ∧ inRange s 13 = true ∧
      inRange s 9 = false ∧ inRange s 14 = false ∧ 10 ∈ s.raced ∧ 11 ∉ s.raced ∧ (nextInput s).rst = false ∧
      field (·.pBusy) (step { inFlight with raced := [0] }) = some true := by decide

/-! ### The line -/

theorem hyp_SymbolDrives :
    let s := lineWith 0x00058008
    s.gLoaded = false ∧ s.fQ = [0x00058008] ∧ s.hung = false ∧ s.params.phyHang = false ∧
      1 ≤ (symDuration0 0x00058008).toNat ∧ 1 ≤ (symDuration1 0x00058008).toNat ∧
      12 < (symDuration0 0x00058008).toNat + (symDuration1 0x00058008).toNat := by decide

theorem hyp_LineWithNothing :
    (lastTick.gLoaded = false ∧ lastTick.fQ = [] ∧ lastTick.hung = false ∧ lastTick.params.phyHang = false ∧
      lastTick.pBusy = true ∧ lastTick.pXDone = true) ∧
    (let s := { lastTick with pXDone := false }
     s.gLoaded = false ∧ s.fQ = [] ∧ s.hung = false ∧ s.params.phyHang = false ∧ s.pBusy = true ∧ s.pXDone = false) ∧
    (s0.gLoaded = false ∧ s0.fQ = [] ∧ s0.hung = false ∧ s0.params.phyHang = false ∧ s0.pBusy = false) := by decide

theorem hyp_HungLine :
    s0.params.phyHang = false ∧ s0.hung = false ∧ frozen.hung = true ∧ (nextInput frozen).rst = false ∧
    (∃ t, step frozen = .next t) ∧ (nextInput { frozen with inbox := [{ rst := true }] }).rst = true :=
  ⟨by decide, by decide, by decide, by decide, ⟨_, rfl⟩, by decide⟩

/-- In the middle of a transmission, and at its last edge. -/
theorem hyp_StepDrives :
    (let s := { inFlight with inbox := [politeInput] }
     s.pBusy = true ∧ s.params.phyHang = false ∧ s.raced = [] ∧ nextInput s = politeInput) ∧
    (lastTick.pBusy = true ∧ lastTick.params.phyHang = false ∧ lastTick.raced = [] ∧ lineFuture lastTick = []) := by decide

theorem hyp_SubmitSends :
    let s := { smallReady with inbox := [{ cmdValid := true, cmdData := 0x15000000 }, politeInput] }
    s.pLc = .ready ∧ s.pBusy = false ∧ s.params.phyHang = false ∧
      s.pBase.toNat + s.pLen.toNat ≤ s.params.memBytes ∧
      nextInput s = { cmdValid := true, cmdData := 0x15000000 } ∧ s.inbox.tail = [politeInput] ∧
      (∀ w ∈ politeInput.writesBefore ++ politeInput.writesAt, inRange s w.addr.toNat = false) := by decide

theorem hyp_Waveform :
    s0.params.tickHz = 10000000 ∧ s0.params.t0hNs = 400 ∧ s0.params.t0lNs = 900 ∧ s0.params.t1hNs = 800 ∧
    s0.params.t1lNs = 500 ∧ s0.params.resetNs = 80000 := by decide

/-! ### The whole machine -/

theorem hyp_NoCommandStops : (∃ t, exec .pencReset inFlight = .next t) ∧ (nextInput inFlight).rst = false ∧
    (∃ t, step inFlight = .next t) := ⟨⟨_, rfl⟩, by decide, ⟨_, rfl⟩⟩

theorem hyp_FailingCommand :
    let s := given 0x14000003 inFlight
    (nextInput s).rst = false ∧ (nextInput s).cmdValid = true ∧
      wordError (nextInput s).cmdData (hostWrites (nextInput s).writesBefore (takeInput s)) = some .invalidState ∧
      field (fun t => t.pBusy) (step { s with inbox := { nextInput s with cmdData := 0 } :: s.inbox.tail }) =
        some true := by decide

theorem hyp_Quiescent : finished.pBusy = false ∧ nextInput finished = {} := by decide

theorem hyp_ParameterRegisters : s0.params = { memBytes := s0.params.memBytes } := by decide

theorem hyp_Outputs : (nextInput { inFlight with inbox := [{ rst := true }] }).rst = true := by decide

theorem hyp_OtherRegisters : (15 : Nat) < 16 := by decide

end Sys2Proof.Tests
end

section
/-! PROOFS. The statements of spec/00_scope.md: the stages of an edge (R13), the parameter registers (R45) and the
length of the waveform (R200). -/

namespace Sys2Proof.Machine

/-! ### The edge -/

theorem hostWrites_append (ws vs : List HostWrite) (s : State) :
    hostWrites (ws ++ vs) s = hostWrites vs (hostWrites ws s) :=
  List.foldl_append

/-- A command stage that accepts a legal word runs its command (R101). -/
theorem cmdStage_of_decode {w : Word} {i : Instr} (h : decode w = .ok i) (s : State) :
    cmdStage (some w) s = exec i s := by
  simp only [cmdStage, h]

theorem acceptedWord_valid {i : EdgeInput} (h : i.cmdValid = true) : acceptedWord i = some i.cmdData := by
  simp [acceptedWord, h]

theorem acceptedWord_invalid {i : EdgeInput} (h : i.cmdValid = false) : acceptedWord i = none := by
  simp [acceptedWord, h]

/-- An edge that accepts no command goes straight to its later stages, with all its host writes done (R100, R101). -/
theorem step_no_command {s : State} (hr : (nextInput s).rst = false) (hv : (nextInput s).cmdValid = false) :
    step s =
      andThen (engineStage (hostWrites ((nextInput s).writesBefore ++ (nextInput s).writesAt) (takeInput s)))
        fun t => .next (lineStage t) := by
  rw [step_no_reset hr, acceptedWord_invalid hv, hostWrites_append]
  rfl

/-- Settles O8: with a command, from `step_no_reset` and the decoded word; without one, from `step_no_command` on the
state that presents another `cmd_data`. -/
theorem stepRunsDecodedCommand : Obligations.StepRunsDecodedCommand := by
  refine ⟨fun s i hr hv hd => ?_, fun s w hr hv => ?_⟩
  · rw [step_no_reset hr, acceptedWord_valid hv, cmdStage_of_decode hd]
    rfl
  · exact step_no_command (s := { s with inbox := { nextInput s with cmdData := w } :: s.inbox.tail }) hr hv

/-! ### The parameter registers -/

theorem placeField_toNat {n : Nat} (v : BitVec n) {lo : Nat} (h : lo + n ≤ 32) :
    (placeField v lo).toNat = 2 ^ lo * v.toNat := by
  have hv : v.toNat * 2 ^ lo < 2 ^ 32 := calc
    v.toNat * 2 ^ lo < 2 ^ n * 2 ^ lo := Nat.mul_lt_mul_of_pos_right v.isLt (Nat.two_pow_pos lo)
    _ = 2 ^ (lo + n) := by rw [← Nat.pow_add, Nat.add_comm]
    _ ≤ 2 ^ 32 := Nat.pow_le_pow_right (by decide) h
  rw [placeField, BitVec.toNat_shiftLeft, BitVec.toNat_setWidth_of_le (by omega), Nat.shiftLeft_eq,
    Nat.mod_eq_of_lt hv, Nat.mul_comm]

/-- A field placed above everything that the word holds so far adds to it. -/
theorem or_placeField_toNat {n : Nat} {w : Word} (v : BitVec n) {lo : Nat} (hw : w.toNat < 2 ^ lo)
    (h : lo + n ≤ 32) : (w ||| placeField v lo).toNat = w.toNat + 2 ^ lo * v.toNat := by
  rw [BitVec.toNat_or, placeField_toNat v h, Nat.or_comm, ← Nat.two_pow_add_eq_or_of_lt hw, Nat.add_comm]

/-- A register of two fields of numbers that fit them (R45). -/
theorem twoFields_toNat {m n x y : Nat} (hx : x < 2 ^ m) (hy : y < 2 ^ n) (hm : m ≤ 16) (hn : n ≤ 16) :
    (placeField (BitVec.ofNat m x) 0 ||| placeField (BitVec.ofNat n y) 16).toNat = x + 2 ^ 16 * y := by
  have hx' : (placeField (BitVec.ofNat m x) 0).toNat = x := by
    rw [placeField_toNat _ (by omega), BitVec.toNat_ofNat, Nat.mod_eq_of_lt hx, Nat.pow_zero, Nat.one_mul]
  have hx16 : x < 2 ^ 16 := hx.trans_le (Nat.pow_le_pow_right (by decide) hm)
  rw [or_placeField_toNat _ (by rwa [hx']) (by omega), hx', BitVec.toNat_ofNat, Nat.mod_eq_of_lt hy]

/-- R8: a block is built with legal parameters only. -/
theorem State.params_legal (s : State) : s.params.Legal := s.build.property

theorem readPort_timing0 (s : State) : (readPort s 6).toNat = s.params.t0h + 2 ^ 16 * s.params.t0l := by
  obtain ⟨⟨-, h0h⟩, ⟨-, h0l⟩, -⟩ := s.params_legal
  exact twoFields_toNat (by omega) (by omega) le_rfl le_rfl

theorem readPort_timing1 (s : State) : (readPort s 7).toNat = s.params.t1h + 2 ^ 16 * s.params.t1l := by
  obtain ⟨-, -, ⟨-, h1h⟩, ⟨-, h1l⟩, -⟩ := s.params_legal
  exact twoFields_toNat (by omega) (by omega) le_rfl le_rfl

theorem readPort_resett (s : State) : (readPort s 8).toNat = s.params.resetTicks := by
  obtain ⟨-, -, -, -, ⟨-, hreset⟩, -⟩ := s.params_legal
  change (placeField (BitVec.ofNat 16 s.params.resetTicks) 0).toNat = _
  rw [placeField_toNat _ (by decide), BitVec.toNat_ofNat]
  omega

theorem readPort_config (s : State) : (readPort s 9).toNat = s.params.symCap + 2 ^ 16 * s.params.maxStrips := by
  obtain ⟨-, -, -, -, -, -, ⟨-, hcap⟩, ⟨-, hstrips⟩, -⟩ := s.params_legal
  exact twoFields_toNat (by omega) (by omega) (by decide) (by decide)

/-- The times of `p` are R6's, at R6's tick rate. -/
structure SourceTimes (p : Params) : Prop where
  tickHz : p.tickHz = 10000000
  t0hNs : p.t0hNs = 400
  t0lNs : p.t0lNs = 900
  t1hNs : p.t1hNs = 800
  t1lNs : p.t1lNs = 500
  resetNs : p.resetNs = 80000

section
variable {p : Params} (h : SourceTimes p)
include h

/-! R7's tick counts at the source's times. -/

theorem SourceTimes.t0h_eq : p.t0h = 4 := by rw [Params.t0h, h.tickHz, h.t0hNs]; rfl
theorem SourceTimes.t0l_eq : p.t0l = 9 := by rw [Params.t0l, h.tickHz, h.t0lNs]; rfl
theorem SourceTimes.t1h_eq : p.t1h = 8 := by rw [Params.t1h, h.tickHz, h.t1hNs]; rfl
theorem SourceTimes.t1l_eq : p.t1l = 5 := by rw [Params.t1l, h.tickHz, h.t1lNs]; rfl
theorem SourceTimes.resetTicks_eq : p.resetTicks = 800 := by rw [Params.resetTicks, h.tickHz, h.resetNs]; rfl

/-- R153's words of the three symbols. -/
theorem SourceTimes.symbols :
    bit0Sym p = 0x00098004 ∧ bit1Sym p = 0x00058008 ∧ resetSym p = 0x01900190 := by
  rw [bit0Sym, bit1Sym, resetSym, h.t0h_eq, h.t0l_eq, h.t1h_eq, h.t1l_eq, h.resetTicks_eq]
  decide

end

theorem sourceTimes_default (m : Nat) : SourceTimes { memBytes := m } := ⟨rfl, rfl, rfl, rfl, rfl, rfl⟩

/-- Settles O56: the legal ranges of R8 make every parameter fit its field; the words at the defaults are those
numbers evaluated. -/
theorem parameterRegisters : Obligations.ParameterRegisters := by
  intro s
  refine ⟨readPort_timing0 s, readPort_timing1 s, readPort_resett s, readPort_config s, fun hp => ?_⟩
  have ht : SourceTimes s.params := hp ▸ sourceTimes_default s.params.memBytes
  have hcap : s.params.symCap = 64 := congrArg Params.symCap hp
  have hstrips : s.params.maxStrips = 8 := congrArg Params.maxStrips hp
  refine ⟨?timing0, ?timing1, ?resett, ?config, ht.symbols⟩ <;> apply BitVec.eq_of_toNat_eq
  case timing0 => rw [readPort_timing0, ht.t0h_eq, ht.t0l_eq]; rfl
  case timing1 => rw [readPort_timing1, ht.t1h_eq, ht.t1l_eq]; rfl
  case resett => rw [readPort_resett, ht.resetTicks_eq]; rfl
  case config => rw [readPort_config, hcap, hstrips]; rfl

/-! ### The length of the waveform -/

theorem bitLevels_length (p : Params) (b : Bool) :
    (bitLevels p b).length = if b then p.t1h + p.t1l else p.t0h + p.t0l := by
  cases b <;> simp [bitLevels]

/-- Where both bits take `k` ticks, the waveform's length depends on the number of bytes alone. -/
theorem waveform_length_of_equal_bits {s : State} {k : Nat} (h : ∀ b, (bitLevels s.params b).length = k) :
    (waveform s).length = 8 * s.pLen.toNat * k + s.params.resetTicks := by
  simp [waveform, List.length_flatMap, h]

/-- Settles O47: at the source's times either bit takes 13 ticks and the reset gap takes 800. -/
theorem waveformLasts104nPlus800Ticks : Obligations.WaveformLasts104nPlus800Ticks := by
  intro s hz h0h h0l h1h h1l hreset
  have ht : SourceTimes s.params := ⟨hz, h0h, h0l, h1h, h1l, hreset⟩
  have hbit : ∀ b, (bitLevels s.params b).length = 13 := fun b => by
    rw [bitLevels_length, ht.t0h_eq, ht.t0l_eq, ht.t1h_eq, ht.t1l_eq, ite_self]
  rw [waveform_length_of_equal_bits hbit, ht.resetTicks_eq]
  omega

end Sys2Proof.Machine
end

section
/-! PROOFS. What the command stage can do, said once: a command either fails one of R215's checks and records that
error, or has its effect (spec/40_command_port.md rules R101 to R104). -/

namespace Sys2Proof.Machine

/-- The writes of a command that passes its checks (R105 to R107, R121 to R124, R154 to R160). -/
def commandEffect (i : Instr) (s : State) : State :=
  match i with
  | .glbNop => s
  | .glbClrerr => clearErr s
  | .glbSetie ied iee => { s with ieDone := ied, ieErr := iee }
  | .pencCreate => if s.pLc = .ready then s else initEncoder { s with pLc := .ready }
  | .pencDispose => if s.pLc = .absent then s else initEncoder { s with pLc := .absent }
  | .pencReset => initEncoder s
  | .pencSetbase imm24 => { s with pBase := imm24 }
  | .pencSetlen imm24 => { s with pLen := imm24 }
  | .pencSubmit => startTransmission s
  | .pencClrdone => { s with pDone := false }
  | .tmapClear => clearTopology s
  | .tmapAdd rev len => appendStrip ⟨len, rev⟩ s
  | .tmapSeal => { s with tSealed := true }
  | .tmapLookup idx => { s with tResult := mapFn s idx }

/-- What becomes of a command: its first failing check decides the error, and without one it has its effect. -/
def commandOutcome (failed : Option ErrCode) (i : Instr) (s : State) : State :=
  match failed with
  | some e => raiseErr e s
  | none => commandEffect i s

/-- The shared checks of R215 in the table's order: the lifecycle, then `P_BUSY`. -/
theorem whenReadyIdle_eq (k : State → Host.Outcome State Fault Refusal) (s : State) :
    whenReadyIdle k s =
      if s.pLc = .absent then failWith .invalidState s else if s.pBusy then failWith .invalidState s else k s := by
  unfold whenReadyIdle
  cases s.pLc <;> rfl

/-- Every command follows R215's table. -/
theorem exec_eq (i : Instr) (s : State) : exec i s = .next (commandOutcome (commandError i s) i s) := by
  cases i with
  | glbNop | glbClrerr | glbSetie | pencClrdone | tmapSeal => rfl
  | pencCreate =>
    simp only [exec, execPencCreate, commandError, commandOutcome, commandEffect]
    split <;> rfl
  | pencDispose =>
    simp only [exec, execPencDispose, commandError]
    by_cases hl : s.pLc = .absent
    · simp only [hl, if_true, commandOutcome, commandEffect]
    · simp only [hl, if_false]
      split
      · rfl
      · simp only [commandOutcome, commandEffect, hl, if_false]
  | pencReset | pencSetbase | pencSetlen =>
    simp only [exec, execPencReset, execPencSetbase, execPencSetlen, whenReadyIdle_eq, commandError]
    split
    · rfl
    · split <;> rfl
  | pencSubmit =>
    simp only [exec, execPencSubmit, whenReadyIdle_eq, commandError, sum25_toNat, Bool.not_eq_true']
    repeat' (split; · rfl)
    rfl
  | tmapClear | tmapLookup =>
    simp only [exec, execTmapClear, execTmapLookup, commandError]
    repeat' (split; · rfl)
    rfl
  | tmapAdd rev len =>
    simp only [exec, execTmapAdd, commandError, sum17_gt]
    repeat' (split; · rfl)
    rfl

/-- What a command can have done. -/
theorem exec_cases {i : Instr} {s t : State} (h : exec i s = .next t) :
    (∃ e, commandError i s = some e ∧ t = raiseErr e s) ∨ (commandError i s = none ∧ t = commandEffect i s) := by
  rw [exec_eq] at h
  cases h
  cases hc : commandError i s with
  | some e => exact .inl ⟨e, rfl, rfl⟩
  | none => exact .inr ⟨rfl, rfl⟩

/-- What a command stage can have done (R101, R102). -/
theorem cmdStage_cases {cmd : Option Word} {s t : State} (h : cmdStage cmd s = .next t) :
    (cmd = none ∧ t = s) ∨
    (∃ w e, cmd = some w ∧ wordError w s = some e ∧ t = raiseErr e s) ∨
    (∃ w i, cmd = some w ∧ decode w = .ok i ∧ commandError i s = none ∧ t = commandEffect i s) := by
  cases cmd with
  | none =>
    cases h
    exact .inl ⟨rfl, rfl⟩
  | some w =>
    cases hd : decode w with
    | error r =>
      simp only [cmdStage, hd, failWith] at h
      cases h
      exact .inr (.inl ⟨w, .formatInvalid, rfl, by simp only [wordError, hd], rfl⟩)
    | ok i =>
      rw [cmdStage_of_decode hd] at h
      rcases exec_cases h with ⟨e, he, ht⟩ | ⟨hn, ht⟩
      · exact .inr (.inl ⟨w, e, rfl, by simp only [wordError, hd, he], ht⟩)
      · exact .inr (.inr ⟨w, i, rfl, hd, hn, ht⟩)

/-- Settles O22: a failing command writes `ERR` only, and the effect of each other command writes what its rule
lists. -/
theorem commandsWriteOnlyTheirVariables : Obligations.CommandsWriteOnlyTheirVariables := by
  intro i s t h
  rcases exec_cases h with ⟨e, -, rfl⟩ | ⟨-, rfl⟩
  · simp [dataByte]
  · cases i with
    | pencCreate | pencDispose =>
      simp only [commandEffect]
      split <;> simp [dataByte]
    | _ => simp [commandEffect, dataByte]

end Sys2Proof.Machine
end

section
/-! PROOFS. What the engine and line stages leave alone (spec/10_state.md rule R49), the engine stage's one invocation
(spec/42_protocol_encoder.md rule R171), and what the topology owes to `T_SEALED` (R28). -/

namespace Sys2Proof.Machine

/-! ### The engine stage -/

/-- What the engine stage leaves of an encode invocation made on the emptied memory port (R171). -/
theorem acceptEncoded_eq {h : Nat} {s : State} {r : Encoded} (e : invokeEncode h { s with memReads := [] } = some r) :
    acceptEncoded r = { r.state with
      fQ := s.fQ ++ r.out, pSymCnt := s.pSymCnt + BitVec.ofNat 32 r.out.length
      pLastComplete := r.complete, pLastMemFull := r.memFull, pXDone := if r.complete then true else s.pXDone } := by
  have hf := invokeEncode_frame e
  have hq : r.state.fQ = s.fQ := by rw [hf]
  have hn : r.state.pSymCnt = s.pSymCnt := by rw [hf]
  have hx : r.state.pXDone = s.pXDone := by rw [hf]
  simp only [acceptEncoded, hq, hn, hx]

/-- An invocation that is taken sets `P_XDONE` exactly when it reports `COMPLETE`. -/
theorem acceptEncoded_pXDone {h : Nat} {s : State} {r : Encoded}
    (e : invokeEncode h { s with memReads := [] } = some r) (hx : s.pXDone = false) :
    (acceptEncoded r).pXDone = r.complete := by
  rw [acceptEncoded_eq e, hx]
  cases r.complete <;> rfl

/-- The engine stage writes the encoder's variables, the reads and the draws, and appends to the FIFO. -/
theorem engineStage_frame {s t : State} (h : engineStage s = .next t) :
    t = { s with
      pSt := t.pSt, pByteIdx := t.pByteIdx, pBitIdx := t.pBitIdx, pRstSent := t.pRstSent, pXDone := t.pXDone
      pLastComplete := t.pLastComplete, pLastMemFull := t.pLastMemFull, pSymCnt := t.pSymCnt, fQ := t.fQ
      memReads := t.memReads, draws := t.draws } ∧
    ∃ out, t.fQ = s.fQ ++ out := by
  rcases engineStage_cases s with ⟨-, he⟩ | ⟨-, -, -, ⟨r, hr, he⟩ | ⟨-, he⟩⟩ <;> rw [he] at h <;> cases h
  · exact ⟨rfl, [], (List.append_nil _).symm⟩
  · refine ⟨?_, r.out, by rw [acceptEncoded_eq hr]⟩
    rw [acceptEncoded_eq hr, invokeEncode_frame hr]

/-! ### The line stage -/

/-- R193's stage writes PGEN, `ERR`, `P_BUSY`, `P_DONE` and the race memory, and takes at most the FIFO's head. -/
theorem lineTick_frame (s : State) :
    lineTick s = { s with
      err := (lineTick s).err, pBusy := (lineTick s).pBusy, pDone := (lineTick s).pDone, fQ := (lineTick s).fQ
      gLoaded := (lineTick s).gLoaded, gSym := (lineTick s).gSym, gHalf := (lineTick s).gHalf
      gRem := (lineTick s).gRem, gDout := (lineTick s).gDout, raced := (lineTick s).raced } ∧
    ((lineTick s).fQ = s.fQ ∨ (lineTick s).fQ = s.fQ.tail) ∧
    ((lineTick s).err = s.err ∨ (lineTick s).err = 6) := by
  rcases lineTick_cases s with ⟨-, he⟩ | ⟨-, x, rest, hq, he⟩ | ⟨-, -, he⟩ <;> rw [he]
  · rw [lineDrive_eq]
    exact ⟨rfl, .inl rfl, .inl rfl⟩
  · rw [lineDrive_eq]
    exact ⟨rfl, .inr (by rw [hq]; rfl), .inl rfl⟩
  · rcases lineIdle_cases s with ⟨-, -, hi⟩ | ⟨-, -, hi⟩ | ⟨-, hi⟩ <;> rw [hi]
    · exact ⟨rfl, .inl rfl, .inl rfl⟩
    · exact ⟨rfl, .inl rfl, .inr rfl⟩
    · exact ⟨rfl, .inl rfl, .inl rfl⟩

/-- The line stage writes what R193's does, the freeze and the draws. -/
theorem lineStage_frame (s : State) :
    lineStage s = { s with
      err := (lineStage s).err, pBusy := (lineStage s).pBusy, pDone := (lineStage s).pDone, fQ := (lineStage s).fQ
      gLoaded := (lineStage s).gLoaded, gSym := (lineStage s).gSym, gHalf := (lineStage s).gHalf
      gRem := (lineStage s).gRem, gDout := (lineStage s).gDout, raced := (lineStage s).raced
      hung := (lineStage s).hung, draws := (lineStage s).draws } ∧
    ((lineStage s).fQ = s.fQ ∨ (lineStage s).fQ = s.fQ.tail) ∧
    ((lineStage s).err = s.err ∨ (lineStage s).err = 6) := by
  rcases lineStage_cases s with ⟨-, he⟩ | ⟨-, -, -, he | he⟩ | ⟨-, -, he⟩ <;> rw [he]
  · exact ⟨rfl, .inl rfl, .inl rfl⟩
  · exact ⟨rfl, .inl rfl, .inl rfl⟩
  · obtain ⟨hf, hq, herr⟩ := lineTick_frame { s with draws := s.draws + 1 }
    exact ⟨by rw [hf], hq, herr⟩
  · obtain ⟨hf, hq, herr⟩ := lineTick_frame s
    exact ⟨by rw [hf], hq, herr⟩

/-- Settles O23: the frames of the two stages, `engineStage_frame` and `lineStage_frame`. -/
theorem stagesWriteOnlyTheirVariables : Obligations.StagesWriteOnlyTheirVariables := by
  refine ⟨fun s t h => engineStage_frame h, fun s t h => ?_⟩
  subst h
  exact lineStage_frame s

/-! ### The sealed topology -/

/-- The variables of the topology that a seal fixes (R28). -/
def topologyOf (s : State) : Bool × BitVec 5 × List Strip × Idx := (s.tSealed, s.tNStrips, s.tStrip, s.tTotal)

theorem topologyOf_eq {s t : State} :
    topologyOf t = topologyOf s ↔
      t.tSealed = s.tSealed ∧ t.tNStrips = s.tNStrips ∧ t.tStrip = s.tStrip ∧ t.tTotal = s.tTotal := by
  simp only [topologyOf, Prod.mk.injEq]

theorem topologyOf_hostWrites (ws : List HostWrite) (s : State) : topologyOf (hostWrites ws s) = topologyOf s := by
  rw [hostWrites_eq]
  rfl

theorem topologyOf_engineStage {s t : State} (h : engineStage s = .next t) : topologyOf t = topologyOf s := by
  rw [(engineStage_frame h).1]
  rfl

theorem topologyOf_lineStage (s : State) : topologyOf (lineStage s) = topologyOf s := by
  rw [(lineStage_frame s).1]
  rfl

/-- On a sealed topology `TMAP.CLEAR` and `TMAP.ADD` fail, `TMAP.SEAL` changes nothing, and no other command writes
it (R28, R215). -/
theorem topologyOf_exec {i : Instr} {s t : State} (hs : s.tSealed = true) (h : exec i s = .next t) :
    topologyOf t = topologyOf s := by
  rcases exec_cases h with ⟨e, -, rfl⟩ | ⟨hc, rfl⟩
  · rfl
  · cases i with
    | tmapClear | tmapAdd => simp [commandError, hs] at hc
    | tmapSeal => simp only [topologyOf, commandEffect, hs]
    | pencCreate | pencDispose =>
      simp only [commandEffect]
      split <;> rfl
    | _ => rfl

theorem topologyOf_cmdStage {cmd : Option Word} {s t : State} (hs : s.tSealed = true)
    (h : cmdStage cmd s = .next t) : topologyOf t = topologyOf s := by
  rcases cmdStage_cases h with ⟨-, rfl⟩ | ⟨w, e, -, -, rfl⟩ | ⟨w, i, rfl, hd, -, -⟩
  · rfl
  · rfl
  · exact topologyOf_exec hs ((cmdStage_of_decode hd s).symm.trans h)

/-- A sealed topology is the same after every edge without `rst`. -/
theorem topologyOf_step {s t : State} (hs : s.tSealed = true) (hr : (nextInput s).rst = false)
    (h : step s = .next t) : topologyOf t = topologyOf s := by
  rcases step_cases h with ⟨hr', -⟩ | ⟨-, u, v, hu, hv, rfl⟩
  · rw [hr] at hr'
    cases hr'
  · have hbefore := topologyOf_hostWrites (nextInput s).writesBefore (takeInput s)
    have hsealed := (topologyOf_eq.1 hbefore).1.trans hs
    calc topologyOf (lineStage v)
      _ = topologyOf v := topologyOf_lineStage v
      _ = topologyOf (hostWrites (nextInput s).writesAt u) := topologyOf_engineStage hv
      _ = topologyOf u := topologyOf_hostWrites ..
      _ = topologyOf (hostWrites (nextInput s).writesBefore (takeInput s)) := topologyOf_cmdStage hsealed hu
      _ = topologyOf s := hbefore

/-- The map port's output depends on the topology alone. -/
theorem mapOut_congr {s t : State} (h : topologyOf t = topologyOf s) (l : Idx) : mapOut t l = mapOut s l := by
  obtain ⟨hsealed, hn, hstrips, htotal⟩ := topologyOf_eq.1 h
  have hvalid : mapValid t = mapValid s := by rw [mapValid, mapValid, hsealed, htotal]
  rw [mapOut, mapOut, hvalid, mapFn_congr hn hstrips htotal]

/-- Settles O26: no stage of an edge without `rst` changes a sealed topology, and the map depends on it alone. -/
theorem sealedTopologyIsImmutable : Obligations.SealedTopologyIsImmutable := by
  intro s t hs hr h
  have ht := topologyOf_step hs hr h
  obtain ⟨hsealed, hn, hstrips, htotal⟩ := topologyOf_eq.1 ht
  exact ⟨hsealed.trans hs, hn, hstrips, htotal, fun l => ⟨mapFn_congr hn hstrips htotal l, mapOut_congr ht l⟩⟩

end Sys2Proof.Machine
end

section
/-! PROOFS. The invariant of spec/10_state.md rule R50: reset has it, and each part of an edge keeps it. -/

namespace Sys2Proof.Machine

/-! ### Facts about the invariant's terms -/

theorem encoderInitial_iff {s : State} :
    encoderInitial s = true ↔ s.pSt = .sendData ∧ s.pByteIdx = 0 ∧ s.pBitIdx = 0 ∧ s.pRstSent = 0 := by
  simp only [encoderInitial, decide_eq_true_eq]

@[simp] theorem encoderInitial_initEncoder (s : State) : encoderInitial (initEncoder s) = true :=
  encoderInitial_iff.2 ⟨rfl, rfl, rfl, rfl⟩

/-- An encoder in its initial state stands before the first bit (R32, R164). -/
theorem bitPos_initial {s : State} (h : encoderInitial s = true) : bitPos s = 0 := by
  obtain ⟨-, hbyte, hbit, -⟩ := encoderInitial_iff.1 h
  simp [bitPos, hbyte, hbit]

/-- An encoder in its initial state has the whole stream to write. -/
theorem streamLeft_length_initial {s : State} (h : encoderInitial s = true) :
    (streamLeft s).length = 8 * s.pLen.toNat + 1 := by
  rw [streamLeft_length, if_pos (encoderInitial_iff.1 h).1, bitPos_initial h, Nat.sub_zero]

/-- While the encoder has not completed, what is pending is what is left of the stream. -/
theorem pendingStream_unfinished {s : State} (hb : s.pBusy = true) (hx : s.pXDone = false) :
    pendingStream s = streamLeft s := by
  simp [pendingStream, hb, hx]

/-- Once the encoder has completed nothing is pending. -/
theorem pendingStream_finished {s : State} (hx : s.pXDone = true) : pendingStream s = [] := by
  simp [pendingStream, hx]

/-- The number of pending symbols depends on the flags, the position and the buffer's length, not on DATA. -/
theorem pendingStream_length (s : State) : (pendingStream s).length =
    if s.pBusy && !s.pXDone then (if s.pSt = .sendData then 8 * s.pLen.toNat - bitPos s + 1 else 1) else 0 := by
  rw [← streamLeft_length, pendingStream]
  split <;> rfl

/-- A symbol of two durations that fit their fields and last at least one tick gives both back. -/
theorem mkSymbol_durations_pos (l0 l1 : Bool) {d0 d1 : Nat} (h0 : 1 ≤ d0 ∧ d0 ≤ 32767) (h1 : 1 ≤ d1 ∧ d1 ≤ 32767) :
    1 ≤ (symDuration0 (mkSymbol l0 d0 l1 d1)).toNat ∧ 1 ≤ (symDuration1 (mkSymbol l0 d0 l1 d1)).toNat := by
  rw [symDuration0_mkSymbol _ _ (by omega), symDuration1_mkSymbol _ _ (by omega)]
  exact ⟨h0.1, h1.1⟩

/-- Both halves of each of PENC's symbols last at least one tick (R8, R153). -/
theorem isPencSymbol_durations {p : Params} (hp : p.Legal) {x : Symbol} (hx : isPencSymbol p x) :
    1 ≤ (symDuration0 x).toNat ∧ 1 ≤ (symDuration1 x).toNat := by
  obtain ⟨h0h, h0l, h1h, h1l, hreset, -⟩ := hp
  rcases hx with rfl | rfl | rfl
  · exact mkSymbol_durations_pos _ _ h0h h0l
  · exact mkSymbol_durations_pos _ _ h1h h1l
  · exact mkSymbol_durations_pos _ _ (by omega) (by omega)

/-! ### The topology -/

/-- A table of empty entries is a topology without strips. -/
theorem topologyOk_empty {s : State} (hn : s.tNStrips = 0) (ht : s.tTotal = 0)
    (hs : s.tStrip = List.replicate s.params.maxStrips ⟨0, false⟩) : TopologyOk s where
  size := by rw [hs, List.length_replicate]
  count := by rw [hn]; exact Nat.zero_le _
  total := by rw [ht, strips, hn]; rfl
  rest := fun st hst => List.eq_of_mem_replicate (hs ▸ List.mem_of_mem_drop hst)

/-- A strip that `TMAP.ADD` accepts joins the topology (R122). -/
theorem topologyOk_appendStrip {s : State} (h : TopologyOk s) (st : Strip)
    (hn : s.tNStrips.toNat ≠ s.params.maxStrips) (ht : s.tTotal.toNat + st.len.toNat ≤ 65535) :
    TopologyOk (appendStrip st s) := by
  obtain ⟨-, -, -, -, -, -, -, ⟨-, hmax⟩, -⟩ := s.params_legal
  obtain ⟨hsize, hcount, htotal, hrest⟩ := h
  have hroom : s.tNStrips.toNat < s.tStrip.length := by omega
  have hnew : (appendStrip st s).tNStrips.toNat = s.tNStrips.toNat + 1 := by
    rw [appendStrip_tNStrips, BitVec.toNat_add]
    change (s.tNStrips.toNat + 1) % 2 ^ 5 = _
    omega
  have hstrips : strips (appendStrip st s) = strips s ++ [st] := by
    rw [strips, hnew, appendStrip_tStrip, List.take_succ_eq_append_getElem (by simpa using hroom),
      List.take_set_of_le le_rfl, List.getElem_set_self]
    rfl
  refine ⟨?size, ?count, ?total, ?rest⟩
  case size => rw [appendStrip_tStrip, List.length_set]; exact hsize
  case count => rw [hnew]; change _ ≤ s.params.maxStrips; omega
  case total =>
    have hsum : ledSum (strips s ++ [st]) = ledSum (strips s) + st.len.toNat := by simp [ledSum]
    rw [hstrips, hsum, ← htotal, appendStrip_tTotal, BitVec.toNat_add]
    omega
  case rest =>
    rw [hnew, appendStrip_tStrip, List.drop_set_of_lt (Nat.lt_succ_self _)]
    exact fun u hu => hrest u (List.drop_subset_drop_left _ (Nat.le_succ _) hu)

/-! ### Reset -/

/-- Reset makes every state safe whose DATA is canonical and in range (R51, R242). -/
theorem inv_resetWith {b : Build} {m : Memory} {inbox : List EdgeInput} {draws : Nat} (hm : Memory.wf m)
    (hr : ∀ c ∈ m, c.1 < b.val.memBytes) : Inv (State.resetWith b m inbox draws) where
  idle_line _ := ⟨rfl, rfl⟩
  done_idle _ := rfl
  xdone_initial _ := rfl
  rst_sent := rfl
  idle_initial _ := rfl
  topology := topologyOk_empty rfl rfl rfl
  absent_idle _ := rfl
  in_data := nofun
  err_code := Nat.zero_le _
  fifo_fits := Nat.zero_le _
  fifo_symbols := nofun
  held_symbol := nofun
  held_rem := nofun
  pos_bound := nofun
  reset_pos := nofun
  symcnt := nofun
  idle_level _ := rfl
  mem_wf := hm
  mem_range := hr
  hung_busy := nofun
  raced_busy _ := rfl

/-- Settles O48: `State.reset` is a reset with no DATA byte written. -/
theorem invHoldsAtReset : Obligations.InvHoldsAtReset :=
  inv_resetWith List.Pairwise.nil nofun

/-! ### The input and the host's writes -/

theorem Inv.after_takeInput {s : State} (h : Inv s) : Inv (takeInput s) :=
  { h with topology := { h.topology with } }

theorem Inv.after_hostWrites {s : State} (h : Inv s) (ws : List HostWrite) : Inv (hostWrites ws s) := by
  have hwf := hostWrites_wf (ws := ws) h.mem_wf
  have hrange := hostWrites_range (ws := ws) h.mem_range
  have hraced := fun hb => (hostWrites_raced_idle (ws := ws) hb).trans (h.raced_busy hb)
  have hcount := h.symcnt
  rw [pendingStream_length] at hcount
  rw [hostWrites_eq]
  exact { h with
    topology := { h.topology with }
    symcnt := fun hb => by rw [pendingStream_length]; exact hcount hb
    mem_wf := hwf
    mem_range := hrange
    raced_busy := hraced }

theorem Inv.after_resetEdge {s : State} (h : Inv s) (i : EdgeInput) : Inv (resetEdge i s) := by
  have hw := Inv.after_hostWrites (Inv.after_hostWrites h i.writesBefore) i.writesAt
  exact inv_resetWith hw.mem_wf hw.mem_range

/-! ### The command stage -/

theorem errNumber_le_five {e : ErrCode} (h : e ≠ .ioFailure) : (errNumber e).toNat ≤ 5 := by
  cases e with
  | ioFailure => exact absurd rfl h
  | _ => decide

/-- No command raises `IO_FAILURE` (R215). -/
theorem wordError_ne_ioFailure (w : Word) (s : State) : wordError w s ≠ some .ioFailure := by
  unfold wordError
  split
  · nofun
  · unfold commandError
    split <;> repeat' split
    all_goals nofun

theorem Inv.after_raiseErr {s : State} (h : Inv s) {e : ErrCode} (he : (errNumber e).toNat ≤ 5) :
    Inv (raiseErr e s) :=
  { h with topology := { h.topology with }, err_code := he }

/-- `PENC.RESET`, and with the same checks `PENC.SETBASE` and `PENC.SETLEN`, pass only between transmissions. -/
theorem idle_of_pencReset {s : State} (h : commandError .pencReset s = none) : s.pBusy = false := by
  simp only [commandError] at h
  repeat' (split at h; · cases h)
  rename_i _ hb
  simpa using hb

/-- The checks that `PENC.SUBMIT` passes (R159). -/
theorem pencSubmit_checks {s : State} (h : commandError .pencSubmit s = none) :
    s.pLc ≠ .absent ∧ encoderInitial s = true ∧ s.pBase.toNat + s.pLen.toNat ≤ s.params.memBytes := by
  simp only [commandError] at h
  repeat' (split at h; · cases h)
  rename_i hl _ hi hm
  exact ⟨hl, by simpa using hi, Nat.le_of_not_lt hm⟩

/-- An accepted strip has an entry in the table and fits the total (R122). -/
theorem tmapAdd_checks {rev : Bool} {len : Idx} {s : State} (h : commandError (.tmapAdd rev len) s = none) :
    s.tNStrips.toNat ≠ s.params.maxStrips ∧ s.tTotal.toNat + len.toNat ≤ 65535 := by
  simp only [commandError] at h
  repeat' (split at h; · cases h)
  rename_i _ hn ht
  exact ⟨hn, Nat.le_of_not_lt ht⟩

section
variable {s : State} (h : Inv s)
include h

/-- Between transmissions the encoder may be put into its initial state, in either lifecycle (R154 to R156). -/
theorem Inv.initEncoder_idle (hb : s.pBusy = false) (l : Lifecycle) : Inv (initEncoder { s with pLc := l }) :=
  { h with
    xdone_initial := fun _ => encoderInitial_initEncoder _
    rst_sent := rfl
    idle_initial := fun _ => encoderInitial_initEncoder _
    topology := { h.topology with }
    absent_idle := fun _ => hb
    pos_bound := fun hb' => Bool.noConfusion (hb.symm.trans hb')
    reset_pos := nofun
    symcnt := fun hb' => Bool.noConfusion (hb.symm.trans hb') }

/-- Between transmissions the buffer may be moved (R157, R158). -/
theorem Inv.setBuffer_idle (hb : s.pBusy = false) (base len : Addr) : Inv { s with pBase := base, pLen := len } :=
  { h with
    topology := { h.topology with }
    in_data := fun hb' => Bool.noConfusion (hb.symm.trans hb')
    pos_bound := fun hb' => Bool.noConfusion (hb.symm.trans hb')
    symcnt := fun hb' => Bool.noConfusion (hb.symm.trans hb') }

/-- A transmission that `PENC.SUBMIT` accepts starts with its whole stream to write (R159). -/
theorem Inv.after_startTransmission (hl : s.pLc ≠ .absent) (hi : encoderInitial s = true)
    (hd : s.pBase.toNat + s.pLen.toNat ≤ s.params.memBytes) : Inv (startTransmission s) :=
  { h with
    idle_line := nofun
    done_idle := nofun
    xdone_initial := nofun
    idle_initial := nofun
    topology := { h.topology with }
    absent_idle := fun ha => absurd ha hl
    in_data := fun _ => hd
    pos_bound := fun _ => (bitPos_initial hi).trans_le (Nat.zero_le _)
    symcnt := fun _ => (Nat.zero_add _).trans (streamLeft_length_initial hi)
    idle_level := nofun
    hung_busy := fun hh => ⟨(h.hung_busy hh).1, rfl⟩
    raced_busy := nofun }


theorem Inv.after_commandEffect {i : Instr} (hc : commandError i s = none) : Inv (commandEffect i s) := by
  have ht : TopologyOk s := h.topology
  cases i with
  | glbNop => exact h
  | glbClrerr => exact { h with topology := { ht with }, err_code := Nat.zero_le _ }
  | glbSetie | tmapSeal | tmapLookup => exact { h with topology := { ht with } }
  | pencCreate =>
    simp only [commandEffect]
    split
    · exact h
    · rename_i hl
      have habsent : s.pLc = .absent := by cases hlc : s.pLc <;> simp_all
      exact h.initEncoder_idle (h.absent_idle habsent) _
  | pencDispose =>
    simp only [commandEffect]
    split
    · exact h
    · rename_i hl
      exact h.initEncoder_idle (by simpa [commandError, hl] using hc) _
  | pencReset => exact h.initEncoder_idle (idle_of_pencReset hc) s.pLc
  | pencSetbase imm24 => exact h.setBuffer_idle (idle_of_pencReset hc) imm24 s.pLen
  | pencSetlen imm24 => exact h.setBuffer_idle (idle_of_pencReset hc) s.pBase imm24
  | pencSubmit =>
    obtain ⟨hl, hi, hd⟩ := pencSubmit_checks hc
    exact h.after_startTransmission hl hi hd
  | pencClrdone => exact { h with topology := { ht with }, done_idle := nofun }
  | tmapClear => exact { h with topology := topologyOk_empty rfl rfl rfl }
  | tmapAdd rev len =>
    obtain ⟨hn, hfit⟩ := tmapAdd_checks hc
    exact { h with topology := topologyOk_appendStrip ht _ hn hfit }

theorem Inv.after_cmdStage {cmd : Option Word} {t : State} (hc : cmdStage cmd s = .next t) : Inv t := by
  rcases cmdStage_cases hc with ⟨-, rfl⟩ | ⟨w, e, -, he, rfl⟩ | ⟨w, i, -, -, hn, rfl⟩
  · exact h
  · exact Inv.after_raiseErr h (errNumber_le_five fun hio => wordError_ne_ioFailure w s (hio ▸ he))
  · exact h.after_commandEffect hn

end

/-! ### The engine stage -/

section
variable {s : State} (h : Inv s) (hb : s.pBusy = true)
include h hb

/-- In a safe state with a transmission to encode and room, the engine stage takes an encode invocation (R171). -/
theorem Inv.engineStage_invokes (hx : s.pXDone = false) (hroom : s.fQ.length < s.params.symCap) :
    ∃ r, invokeEncode (s.params.symCap - s.fQ.length) { s with memReads := [] } = some r ∧
      engineStage s = .next (acceptEncoded r) := by
  rcases engineStage_cases s with ⟨hno, -⟩ | ⟨-, -, -, hr | ⟨hnone, -⟩⟩
  · exact absurd ⟨hb, hx, hroom⟩ hno
  · exact hr
  · obtain ⟨r, hr⟩ := invokeEncode_answers (h := s.params.symCap - s.fQ.length) (s := { s with memReads := [] })
      (h.in_data hb) (h.pos_bound hb)
    rw [hr] at hnone
    cases hnone

/-- `P_SYMCNT` counts symbols that are still to be written without wrapping (R37, R169). -/
theorem Inv.symcnt_add (hx : s.pXDone = false) {k : Nat} (hk : k ≤ (streamLeft s).length) :
    (s.pSymCnt + BitVec.ofNat 32 k).toNat = s.pSymCnt.toNat + k := by
  have hcount := h.symcnt hb
  rw [pendingStream_unfinished hb hx] at hcount
  have hlen := s.pLen.isLt
  rw [BitVec.toNat_add, BitVec.toNat_ofNat]
  omega

variable {r : Encoded} (hroom : s.fQ.length < s.params.symCap)
  (e : invokeEncode (s.params.symCap - s.fQ.length) { s with memReads := [] } = some r)
include hroom e

/-- The engine's invocation fills the room or writes all that is left, and says which (R161, R166). -/
theorem Inv.engine_writes :
    r.out.length = min (s.params.symCap - s.fQ.length) (streamLeft s).length ∧
    (r.complete = true ↔ (streamLeft s).length ≤ s.params.symCap - s.fQ.length) ∧
    (r.memFull = true ↔ s.params.symCap - s.fQ.length ≤ (streamLeft s).length) := by
  obtain ⟨hout, -, hcomplete, hfull, -⟩ :=
    invokeEncode_shape e (Nat.sub_pos_of_lt hroom) h.rst_sent (h.pos_bound hb) h.reset_pos
  exact ⟨hout, hcomplete, hfull⟩

variable (hx : s.pXDone = false)
include hx

/-- What an invocation adds to `P_SYMCNT` it takes from the symbols pending (R169). -/
theorem Inv.symcnt_acceptEncoded :
    (acceptEncoded r).pSymCnt.toNat + (pendingStream (acceptEncoded r)).length = 8 * s.pLen.toNat + 1 := by
  obtain ⟨hout, hcomplete, -⟩ := h.engine_writes hb hroom e
  obtain ⟨-, -, -, -, -, hleft, -⟩ :=
    invokeEncode_shape e (Nat.sub_pos_of_lt hroom) h.rst_sent (h.pos_bound hb) h.reset_pos
  have hcount := h.symcnt hb
  rw [pendingStream_unfinished hb hx] at hcount
  have hsum : (acceptEncoded r).pSymCnt.toNat = s.pSymCnt.toNat + r.out.length := by
    rw [acceptEncoded_eq e]
    exact h.symcnt_add hb hx (by omega)
  have hxdone := acceptEncoded_pXDone e hx
  cases hc : r.complete with
  | true =>
    have hall := hcomplete.1 hc
    rw [pendingStream_finished (hxdone.trans hc), List.length_nil]
    omega
  | false =>
    have hpart : ¬ (streamLeft s).length ≤ s.params.symCap - s.fQ.length := by simp [← hcomplete, hc]
    have hbusy : (acceptEncoded r).pBusy = true := by
      rw [acceptEncoded_eq e, invokeEncode_frame e]
      exact hb
    have hrest : (streamLeft (acceptEncoded r)).length = (streamLeft s).length - (s.params.symCap - s.fQ.length) :=
      hleft hc
    rw [pendingStream_unfinished hbusy (hxdone.trans hc)]
    omega

theorem Inv.after_acceptEncoded : Inv (acceptEncoded r) := by
  obtain ⟨-, hsyms, -, -, hinit, -, hpos, hreset, hframe⟩ :=
    invokeEncode_shape e (Nat.sub_pos_of_lt hroom) h.rst_sent (h.pos_bound hb) h.reset_pos
  obtain ⟨hout, -⟩ := h.engine_writes hb hroom e
  have hcount := h.symcnt_acceptEncoded hb hroom e hx
  have hbusy : s.pBusy ≠ false := by simp [hb]
  have hfits : (s.fQ ++ r.out).length ≤ s.params.symCap := by
    rw [List.length_append]
    omega
  -- the invocation's state is `s` with new values for the variables it may write
  rw [acceptEncoded_eq e] at hcount ⊢
  obtain ⟨out, complete, full, u⟩ := r
  dsimp only at *
  generalize u.draws = d, u.memReads = m, u.pSt = st, u.pByteIdx = byte, u.pBitIdx = bit at hframe
  subst hframe
  exact { h with
    idle_line := fun hi => absurd hi hbusy
    xdone_initial := fun hd => hinit (by simpa [hx] using hd)
    idle_initial := fun hi => absurd hi hbusy
    topology := { h.topology with }
    fifo_fits := hfits
    fifo_symbols := fun x hm => (List.mem_append.1 hm).elim (h.fifo_symbols x) (hsyms x)
    pos_bound := fun _ => hpos
    reset_pos := hreset
    symcnt := fun _ => hcount }

end

theorem Inv.after_engineStage {s t : State} (h : Inv s) (he : engineStage s = .next t) : Inv t := by
  rcases engineStage_cases s with ⟨-, hn⟩ | ⟨hb, hx, hroom, ⟨r, hr, hn⟩ | ⟨-, hf⟩⟩
  · rw [hn] at he
    cases he
    exact { h with topology := { h.topology with } }
  · rw [hn] at he
    cases he
    exact h.after_acceptEncoded hb hroom hr hx
  · rw [hf] at he
    cases he

/-- After the engine stage the FIFO is empty in a transmission only if the encoder has completed: the line never runs
dry (R197). -/
theorem Inv.engineStage_feeds {s t : State} (h : Inv s) (he : engineStage s = .next t) (hb : t.pBusy = true)
    (hq : t.fQ = []) : t.pXDone = true := by
  rcases engineStage_cases s with ⟨hno, hn⟩ | ⟨hb', hx, hroom, ⟨r, hr, hn⟩ | ⟨-, hf⟩⟩
  · rw [hn] at he
    cases he
    obtain ⟨-, -, -, -, -, -, ⟨hcap, -⟩, -⟩ := s.params_legal
    change s.pBusy = true at hb
    change s.fQ = [] at hq
    by_contra hx
    exact hno ⟨hb, by simpa using hx, by simp [hq]; omega⟩
  · rw [hn] at he
    cases he
    obtain ⟨hout, -⟩ := h.engine_writes hb' hroom hr
    have hleft : 1 ≤ (streamLeft s).length := by
      rw [streamLeft_length]
      split <;> omega
    rw [acceptEncoded_eq hr] at hq
    have hnil : r.out = [] := (List.append_eq_nil_iff.1 hq).2
    rw [hnil, List.length_nil] at hout
    omega
  · rw [hf] at he
    cases he

/-- Settles O59: the cases of `engineStage_cases`, with `Inv.engine_writes` for the invocation in a safe state. -/
theorem engineStageTakesOneInvocation : Obligations.EngineStageTakesOneInvocation := by
  refine ⟨fun s hno => ?_, fun s r hb hx hroom hr => ?_, fun s h hb hx hroom => ?_⟩
  · rcases engineStage_cases s with ⟨-, he⟩ | ⟨hb, hx, hroom, -⟩
    · exact he
    · simp only [hb, hx, Bool.true_eq_false, Bool.false_eq_true, false_or] at hno
      exact absurd hroom (Nat.not_lt.2 hno)
  · rcases engineStage_cases s with ⟨hno, -⟩ | ⟨-, -, -, ⟨r', hr', he⟩ | ⟨hnone, -⟩⟩
    · exact absurd ⟨hb, hx, hroom⟩ hno
    · cases hr'.symm.trans hr
      rw [he, acceptEncoded_eq hr, hx]
      simp
    · rw [hr] at hnone
      cases hnone
  · obtain ⟨r, hr, he⟩ := h.engineStage_invokes hb hx hroom
    obtain ⟨hout, hcomplete, hfull⟩ := h.engine_writes hb hroom hr
    refine ⟨_, he, ?_⟩
    rw [acceptEncoded_eq hr, hx]
    refine ⟨hcomplete, hfull, by simp, by simp [hout], ?_⟩
    rw [← hout]
    exact h.symcnt_add hb hx (by omega)

/-! ### The line stage -/

section
variable {s : State} (h : Inv s)
include h

/-- PGEN holds a symbol only during a transmission. -/
theorem Inv.busy_of_loaded (hl : s.gLoaded = true) : s.pBusy = true := by
  by_contra hb
  simp [(h.idle_line (by simpa using hb)).2] at hl

/-- The FIFO holds a symbol only during a transmission. -/
theorem Inv.busy_of_fifo (hq : s.fQ ≠ []) : s.pBusy = true := by
  by_contra hb
  exact hq (h.idle_line (by simpa using hb)).1

/-- Driving one tick of a symbol keeps the count of R39 at 1 at least, since both halves of a symbol do. -/
theorem Inv.after_lineDrive (hl : s.gLoaded = true) : Inv (lineDrive s) := by
  have hb : s.pBusy ≠ false := by simp [h.busy_of_loaded hl]
  have hdur := (isPencSymbol_durations s.params_legal (h.held_symbol hl)).2
  by_cases hmore : 1 < s.gRem.toNat
  · rw [lineDrive_same_half hmore]
    exact { h with
      topology := { h.topology with }
      held_rem := fun _ => by bv_omega
      idle_level := fun hi => absurd hi hb }
  · cases hhalf : s.gHalf with
    | false =>
      rw [lineDrive_next_half hmore hhalf]
      exact { h with
        topology := { h.topology with }
        held_rem := fun _ => hdur
        idle_level := fun hi => absurd hi hb }
    | true =>
      rw [lineDrive_free hmore hhalf]
      exact { h with
        idle_line := fun hi => absurd hi hb
        topology := { h.topology with }
        held_symbol := nofun
        held_rem := nofun
        idle_level := fun hi => absurd hi hb }

theorem Inv.after_lineLoad {x : Symbol} {rest : List Symbol} (hq : s.fQ = x :: rest) : Inv (lineLoad x rest s) := by
  have hb : s.pBusy ≠ false := by simp [h.busy_of_fifo (by simp [hq])]
  have hfits := h.fifo_fits
  have hsyms := h.fifo_symbols
  rw [hq] at hfits hsyms
  have hx := hsyms x (List.mem_cons_self ..)
  exact { h with
    idle_line := fun hi => absurd hi hb
    topology := { h.topology with }
    fifo_fits := (Nat.le_succ _).trans hfits
    fifo_symbols := fun y hy => hsyms y (List.mem_cons_of_mem _ hy)
    held_symbol := fun _ => hx
    held_rem := fun _ => (isPencSymbol_durations s.params_legal hx).1 }

/-- An unfrozen line with nothing to send ends a transmission only when the encoder has completed, and then R50 holds
as before a `PENC.SUBMIT`. -/
theorem Inv.after_lineIdle (hl : s.gLoaded = false) (hq : s.fQ = []) (hx : s.pBusy = true → s.pXDone = true)
    (hh : s.hung = false) : Inv (lineIdle s) := by
  rcases lineIdle_cases s with ⟨-, hx', he⟩ | ⟨hb, hx', -⟩ | ⟨hb, he⟩
  · rw [he]
    exact { h with
      idle_line := fun _ => ⟨hq, hl⟩
      done_idle := fun _ => rfl
      idle_initial := fun _ => h.xdone_initial hx'
      topology := { h.topology with }
      absent_idle := fun _ => rfl
      in_data := nofun
      pos_bound := nofun
      symcnt := nofun
      idle_level := fun _ => rfl
      hung_busy := fun hh' => Bool.noConfusion (hh.symm.trans hh')
      raced_busy := fun _ => rfl }
  · exact Bool.noConfusion (hx'.symm.trans (hx hb))
  · rw [he]
    exact { h with topology := { h.topology with }, idle_level := fun _ => rfl }

/-- The line stage of a state that `Inv.engineStage_feeds` speaks of. -/
theorem Inv.after_lineTick (hfed : s.pBusy = true → s.fQ = [] → s.pXDone = true) (hh : s.hung = false) :
    Inv (lineTick s) := by
  rcases lineTick_cases s with ⟨hl, he⟩ | ⟨-, x, rest, hq, he⟩ | ⟨hl, hq, he⟩ <;> rw [he]
  · exact h.after_lineDrive hl
  · exact (h.after_lineLoad hq).after_lineDrive rfl
  · exact h.after_lineIdle hl hq (fun hb => hfed hb hq) hh

theorem Inv.after_lineStage (hfed : s.pBusy = true → s.fQ = [] → s.pXDone = true) : Inv (lineStage s) := by
  have hdraws : Inv { s with draws := s.draws + 1 } := { h with topology := { h.topology with } }
  rcases lineStage_cases s with ⟨-, he⟩ | ⟨hh, hp, hb, he | he⟩ | ⟨hh, -, he⟩ <;> rw [he]
  · exact h
  · exact { h with topology := { h.topology with }, hung_busy := fun _ => ⟨hp, hb⟩ }
  · exact hdraws.after_lineTick hfed hh
  · exact h.after_lineTick hfed hh

end

/-! ### The whole edge -/

/-- Settles O49: the input, the host's writes and each stage keep the invariant; the line stage because the engine
stage before it has fed the FIFO. -/
theorem stepKeepsInv : Obligations.StepKeepsInv := by
  intro s t h hs
  have hin := Inv.after_takeInput h
  rcases step_cases hs with ⟨-, rfl⟩ | ⟨-, u, v, hu, hv, rfl⟩
  · exact Inv.after_resetEdge hin _
  · have hcmd : Inv u := (Inv.after_hostWrites hin _).after_cmdStage hu
    have hengine := Inv.after_hostWrites hcmd (nextInput s).writesAt
    exact (hengine.after_engineStage hv).after_lineStage (hengine.engineStage_feeds hv)

end Sys2Proof.Machine
end

section
/-! PROOFS. The registers of spec/10_state.md rules R42 to R48, bit by bit and field by field, and the outputs of
R40. -/

namespace Sys2Proof.Machine

/-! ### STATUS -/

/-- A field shows its bits from `lo` up. -/
theorem placeField_getLsbD {n : Nat} (v : BitVec n) (lo : Nat) {i : Nat} (hi : i < 32) :
    (placeField v lo).getLsbD i = (decide (lo ≤ i) && v.getLsbD (i - lo)) := by
  have hsub : i - lo < 32 := by omega
  simp only [placeField, BitVec.getLsbD_shiftLeft, BitVec.getLsbD_setWidth, hi, hsub, decide_true, Bool.true_and,
    ← Nat.not_lt, decide_not]

/-- A one-bit field shows its bit at `lo` and nothing elsewhere. -/
theorem placeBit_getLsbD (b : Bool) (lo : Nat) {i : Nat} (hi : i < 32) :
    (placeBit b lo).getLsbD i = (decide (i = lo) && b) := by
  have hlo : (lo ≤ i ∧ i - lo = 0) ↔ i = lo := by omega
  rw [placeBit, placeField_getLsbD _ _ hi, BitVec.getLsbD_ofBool, ← Bool.and_assoc, ← Bool.decide_and,
    decide_eq_decide.2 hlo]

/-- STATUS, bit by bit (R43). -/
theorem status_getLsbD (s : State) {i : Nat} (hi : i < 32) :
    (readPort s 0).getLsbD i =
      (decide (i = 0) && s.pBusy || decide (i = 1) && s.pDone || decide (i = 2) && s.pXDone ||
        decide (i = 3) && decide (s.pSt = .sendReset) || decide (i = 4) && decide (s.pLc = .ready) ||
        decide (i = 5) && s.pLastComplete || decide (i = 6) && s.pLastMemFull || decide (i = 7) && s.tSealed ||
        decide (8 ≤ i) && s.err.getLsbD (i - 8) || decide (i = 12) && s.ieDone || decide (i = 13) && s.ieErr ||
        decide (i = 14) && irq s) := by
  change (statusWord s).getLsbD i = _
  simp only [statusWord, BitVec.getLsbD_or, placeBit_getLsbD _ _ hi, placeField_getLsbD _ _ hi]

/-- Bits 11:8 of STATUS are `ERR`. -/
theorem status_err (s : State) : (readPort s 0).extractLsb' 8 4 = s.err := by
  refine BitVec.eq_of_getLsbD_eq fun k hk => ?_
  rw [BitVec.getLsbD_extractLsb', status_getLsbD s (by omega)]
  have hbelow : ∀ j < 8, 8 + k ≠ j := by omega
  have habove : 8 + k ≠ 12 ∧ 8 + k ≠ 13 ∧ 8 + k ≠ 14 := by omega
  simp [hk, hbelow, habove]

/-- Bits 31:15 of STATUS are 0. -/
theorem status_zero (s : State) : (readPort s 0).extractLsb' 15 17 = 0 := by
  refine BitVec.eq_of_getLsbD_eq fun k hk => ?_
  rw [BitVec.getLsbD_extractLsb', status_getLsbD s (by omega)]
  have hpast : s.err.getLsbD (15 + k - 8) = false := BitVec.getLsbD_of_ge _ _ (by omega)
  have hne : ∀ j ≤ 14, 15 + k ≠ j := by omega
  simp [hpast, hne]

/-- Settles O54: each bit of STATUS is the bit of the one field that covers it. -/
theorem statusFields : Obligations.StatusFields := by
  intro s
  refine ⟨?busy, ?done, ?xdone, ?sendReset, ?ready, ?complete, ?memFull, ?sealed, status_err s, ?ieDone, ?ieErr, ?irq,
    status_zero s⟩ <;> rw [status_getLsbD s (by decide)]
  case irq =>
    have hne : (s.err != 0#4) = !decide (s.err = 0#4) := rfl
    simp [irq, hne]
  all_goals simp

/-! ### The other registers -/

/-- A field at bit 0 is the register's number. -/
theorem placeField_zero_toNat {n : Nat} (v : BitVec n) (h : n ≤ 32) : (placeField v 0).toNat = v.toNat := by
  rw [placeField_toNat v (by omega), Nat.pow_zero, Nat.one_mul]

/-- A bit placed above everything that the word holds so far adds to it. -/
theorem or_placeBit_toNat {w : Word} (b : Bool) {lo : Nat} (hw : w.toNat < 2 ^ lo) (h : lo < 32) :
    (w ||| placeBit b lo).toNat = w.toNat + 2 ^ lo * b.toNat := by
  rw [placeBit, or_placeField_toNat _ hw h, BitVec.toNat_ofBool]

/-- PPOS (R44): the byte, the bit and the reset flag, one above the other. -/
theorem pposWord_toNat (s : State) :
    (pposWord s).toNat = s.pByteIdx.toNat + 2 ^ 24 * s.pBitIdx.toNat + 2 ^ 27 * s.pRstSent.toNat := by
  have hbyte := s.pByteIdx.isLt
  have hbit := s.pBitIdx.isLt
  have h0 : (placeField s.pByteIdx 0).toNat = s.pByteIdx.toNat := placeField_zero_toNat _ (by decide)
  have h1 : (placeField s.pByteIdx 0 ||| placeField s.pBitIdx 24).toNat =
      s.pByteIdx.toNat + 2 ^ 24 * s.pBitIdx.toNat := by
    rw [or_placeField_toNat _ (by omega) (by decide), h0]
  rw [pposWord, or_placeField_toNat _ (by omega) (by decide), h1]

/-- PGENST (R47): the three flags, and the count in the upper half. -/
theorem pgenstWord_toNat (s : State) :
    (pgenstWord s).toNat = s.gLoaded.toNat + 2 * s.gHalf.toNat + 4 * s.gDout.toNat + 2 ^ 16 * s.gRem.toNat := by
  have hloaded := s.gLoaded.toNat_lt
  have hhalf := s.gHalf.toNat_lt
  have hdout := s.gDout.toNat_lt
  have h0 : (placeBit s.gLoaded 0).toNat = s.gLoaded.toNat := by
    rw [placeBit, placeField_zero_toNat _ (by decide), BitVec.toNat_ofBool]
  have h1 : (placeBit s.gLoaded 0 ||| placeBit s.gHalf 1).toNat = s.gLoaded.toNat + 2 * s.gHalf.toNat := by
    rw [or_placeBit_toNat _ (by omega) (by decide), h0, Nat.pow_one]
  have h2 : (placeBit s.gLoaded 0 ||| placeBit s.gHalf 1 ||| placeBit s.gDout 2).toNat =
      s.gLoaded.toNat + 2 * s.gHalf.toNat + 4 * s.gDout.toNat := by
    rw [or_placeBit_toNat _ (by omega) (by decide), h1]
    rfl
  rw [pgenstWord, or_placeField_toNat _ (by omega) (by decide), h2]

/-- A strip's register (R46): its length, and its direction above. -/
theorem stripFields_toNat (st : Strip) :
    (placeField st.len 0 ||| placeBit st.rev 16).toNat = st.len.toNat + 2 ^ 16 * st.rev.toNat := by
  have h0 : (placeField st.len 0).toNat = st.len.toNat := placeField_zero_toNat _ (by decide)
  rw [or_placeBit_toNat _ (h0 ▸ st.len.isLt) (by decide), h0]

/-- The upper half of the read port's addresses selects the strips' registers (R42). -/
theorem readPort_tstrip (s : State) {i : Nat} (hi : i < 16) :
    readPort s (BitVec.ofNat 5 (16 + i)) = tstripWord s i := by
  interval_cases i <;> rfl

/-- Settles O55: register by register, from the numbers of their fields. -/
theorem otherRegisters : Obligations.OtherRegisters := by
  intro s
  refine ⟨placeField_zero_toNat _ (by decide), placeField_zero_toNat _ (by decide), pposWord_toNat s, rfl,
    (placeField_zero_toNat _ (by decide)).trans (BitVec.toNat_ofNat ..), placeField_zero_toNat _ (by decide),
    placeField_zero_toNat _ (by decide), placeField_zero_toNat _ (by decide), pgenstWord_toNat s, rfl, rfl,
    fun i hi => ?_⟩
  rw [readPort_tstrip s hi, tstripWord]
  cases s.tStrip[i]? with
  | none => exact (ite_self _).symm
  | some st =>
    by_cases hmax : i < s.params.maxStrips
    · simp only [hmax, if_true, stripFields_toNat]
    · simp only [hmax, if_false]
      rfl

/-! ### The outputs -/

/-- Settles O60: the outputs are read off the state, and a reset edge answers a reset state. -/
theorem outputsShowTheState : Obligations.OutputsShowTheState := by
  intro s rdAddr mapIn
  refine ⟨rfl, rfl, rfl, rfl, fun hr => ⟨_, step_reset hr, ?_, rfl⟩⟩
  have hbuild : (hostWrites (nextInput s).writesAt (hostWrites (nextInput s).writesBefore (takeInput s))).build =
      s.build := by
    rw [hostWrites_eq, hostWrites_eq]
    rfl
  exact congrArg (fun b : Build => b.val.idleLevel) hbuild

end Sys2Proof.Machine
end

section
/-! PROOFS. The statements of spec/20_memory.md: no edge of a safe state stops on a DATA read (R62), DATA is the host's to
write (R61), the engine reads in its range only (R66, R71), and what a race is (R70). -/

namespace Sys2Proof.Machine

/-! ### No edge stops -/

/-- In a safe state the engine stage answers: its reads lie in DATA (R62). -/
theorem Inv.engineStage_answers {s : State} (h : Inv s) : ∃ t, engineStage s = .next t := by
  rcases engineStage_cases s with ⟨-, he⟩ | ⟨hb, hx, hroom, -⟩
  · exact ⟨_, he⟩
  · obtain ⟨r, -, he⟩ := h.engineStage_invokes hb hx hroom
    exact ⟨_, he⟩

/-- Settles O50: the command stage always answers, the engine stage answers because the stages before it keep the
invariant, and the line stage cannot fail. -/
theorem safeStatesNeverStop : Obligations.SafeStatesNeverStop := by
  intro s h
  cases hr : (nextInput s).rst with
  | true => exact ⟨_, step_reset hr⟩
  | false =>
    have hstart := (Inv.after_takeInput h).after_hostWrites (nextInput s).writesBefore
    obtain ⟨u, hu⟩ := cmdStage_answers (acceptedWord (nextInput s)) _
    have hcmd : Inv u := hstart.after_cmdStage hu
    obtain ⟨v, hv⟩ := (hcmd.after_hostWrites (nextInput s).writesAt).engineStage_answers
    refine ⟨lineStage v, ?_⟩
    rw [step_no_reset hr, hu, andThen_next, finishEdge, hv, andThen_next]

/-! ### Who writes DATA and the race memory -/

/-- What DATA holds at an address is what the host last wrote there. -/
theorem dataByte_congr {s t : State} {a : Nat} (h : Memory.read t.mem a = Memory.read s.mem a) :
    dataByte t a = dataByte s a := by
  rw [dataByte, dataByte, h]

/-- A command writes neither DATA nor the race memory. -/
theorem commandEffect_mem_raced (i : Instr) (s : State) :
    (commandEffect i s).mem = s.mem ∧ (commandEffect i s).raced = s.raced := by
  cases i with
  | pencCreate | pencDispose =>
    simp only [commandEffect]
    split <;> exact ⟨rfl, rfl⟩
  | _ => exact ⟨rfl, rfl⟩

theorem cmdStage_mem_raced {cmd : Option Word} {s t : State} (h : cmdStage cmd s = .next t) :
    t.mem = s.mem ∧ t.raced = s.raced := by
  rcases cmdStage_cases h with ⟨-, rfl⟩ | ⟨w, e, -, -, rfl⟩ | ⟨w, i, -, -, -, rfl⟩
  · exact ⟨rfl, rfl⟩
  · exact ⟨rfl, rfl⟩
  · exact commandEffect_mem_raced i s

theorem engineStage_mem_raced {s t : State} (h : engineStage s = .next t) : t.mem = s.mem ∧ t.raced = s.raced := by
  rw [(engineStage_frame h).1]
  exact ⟨rfl, rfl⟩

theorem lineStage_mem (s : State) : (lineStage s).mem = s.mem := by
  rw [(lineStage_frame s).1]

/-- Over an edge, with or without `rst`, a byte of DATA that no host write addresses keeps what it held (R61, R243). -/
theorem step_read_other {s t : State} {a : Nat} (h : step s = .next t)
    (hw : ∀ w ∈ (nextInput s).writesBefore ++ (nextInput s).writesAt, w.addr.toNat ≠ a) :
    Memory.read t.mem a = Memory.read s.mem a := by
  have hbefore := fun u : State => hostWrites_read_other (s := u) fun w hm => hw w (List.mem_append_left _ hm)
  have hat := fun u : State => hostWrites_read_other (s := u) fun w hm => hw w (List.mem_append_right _ hm)
  rcases step_cases h with ⟨-, rfl⟩ | ⟨-, u, v, hu, hv, rfl⟩
  · exact (hat _).trans (hbefore _)
  · rw [lineStage_mem, (engineStage_mem_raced hv).1, hat, (cmdStage_mem_raced hu).1, hbefore]
    rfl

/-- Settles O24: by `step_read_other`, which also fixes the byte DATA holds. -/
theorem blockNeverWritesData : Obligations.BlockNeverWritesData := fun _ _ h _ hw =>
  ⟨step_read_other h hw, dataByte_congr (step_read_other h hw)⟩

/-! ### Where the engine reads -/

/-- The reads of a bytes step lie in the range, since the bits it encodes do. -/
theorem bytesStep_reads {h : Nat} {s : State} {r : Encoded} (e : bytesStep h s = some r) :
    ∀ a ∈ r.state.memReads, a ∈ s.memReads ∨ inRange s a.toNat = true := by
  simp only [bytesStep] at e
  split at e
  · cases e
  · rename_i hloop
    cases e
    intro a ha
    refine (bitsLoop_reads hloop a ha).imp id ?_
    rintro ⟨k, hk, rfl, hin⟩
    obtain ⟨-, -, -, -, -, -, -, -, -, hbytes⟩ := s.params_legal
    simp only [inRange, decide_eq_true_eq]
    rw [BitVec.toNat_ofNat, Nat.mod_eq_of_lt (by omega)]
    omega

@[simp] theorem encodeReset_memReads (out : List Symbol) (h : Nat) (s : State) :
    (encodeReset out h s).state.memReads = s.memReads := by
  simp only [encodeReset, copyStep]
  split <;> rfl

/-- Only the bytes step of an encode invocation reads. -/
theorem invokeEncode_reads {h : Nat} {s : State} {r : Encoded} (e : invokeEncode h s = some r) :
    ∀ a ∈ r.state.memReads, a ∈ s.memReads ∨ inRange s a.toNat = true := by
  simp only [invokeEncode] at e
  split at e
  · cases e
    intro a ha
    exact .inl (by simpa using ha)
  · split at e
    · cases e
    · rename_i b hb
      have hkept : r.state.memReads = b.state.memReads := by
        split at e <;> cases e
        · split <;> rfl
        · rw [encodeReset_memReads]
          split <;> rfl
      rw [hkept]
      exact bytesStep_reads hb

/-- Settles O38: an engine stage without an invocation reads nothing, and `invokeEncode_reads` bounds the reads of
the invocation, which starts on an empty list. -/
theorem readsStayInTheRange : Obligations.ReadsStayInTheRange := by
  intro s t h
  rcases engineStage_cases s with ⟨-, he⟩ | ⟨hb, hx, -, ⟨r, hr, he⟩ | ⟨-, he⟩⟩ <;> rw [he] at h <;> cases h
  · exact ⟨fun _ => rfl, nofun⟩
  · refine ⟨fun hno => by simp [hb, hx] at hno, fun a ha => ?_⟩
    rcases invokeEncode_reads hr a ha with hnil | hin
    · cases hnil
    · exact of_decide_eq_true hin

/-! ### Races -/

/-- A host write in DATA changes its own byte (R61). -/
theorem dataByte_hostWrite {s : State} {w : HostWrite} (hw : w.addr.toNat < s.params.memBytes) (a : Nat) :
    dataByte (hostWrite s w) a = if a = w.addr.toNat then w.byte else dataByte s a := by
  rw [dataByte, hostWrite_mem, if_pos hw, Memory.read_write]
  split <;> rfl

/-- A host write in the range of a transmission is remembered as a race (R70). -/
theorem hostWrite_races {s : State} {w : HostWrite} (hw : w.addr.toNat < s.params.memBytes) (hb : s.pBusy = true)
    (hr : inRange s w.addr.toNat = true) : w.addr.toNat ∈ (hostWrite s w).raced := by
  by_cases hm : w.addr.toNat ∈ s.raced
  · exact hostWrites_raced_mono (ws := [w]) hm
  · simp [hostWrite, hw, hb, hr, hm]

theorem lineDrive_raced (s : State) : (lineDrive s).raced = s.raced := by
  rw [lineDrive_eq]

/-- The line stage forgets races only with the end of the transmission. -/
theorem lineTick_raced_busy {s : State} (hb : (lineTick s).pBusy = true) : (lineTick s).raced = s.raced := by
  rcases lineTick_cases s with ⟨-, he⟩ | ⟨-, x, rest, -, he⟩ | ⟨-, -, he⟩ <;> rw [he] at hb ⊢
  · exact lineDrive_raced s
  · exact lineDrive_raced _
  · rcases lineIdle_cases s with ⟨-, -, hi⟩ | ⟨-, -, hi⟩ | ⟨-, hi⟩ <;> rw [hi] at hb ⊢
    · cases hb
    · cases hb

theorem lineStage_raced_busy {s : State} (hb : (lineStage s).pBusy = true) : (lineStage s).raced = s.raced := by
  rcases lineStage_cases s with ⟨-, he⟩ | ⟨-, -, -, he | he⟩ | ⟨-, -, he⟩ <;> rw [he] at hb ⊢
  · exact lineTick_raced_busy hb
  · exact lineTick_raced_busy hb

/-- A race is remembered over every edge without `rst` that leaves the transmission in flight (R70). -/
theorem step_raced_mono {s t : State} {a : Nat} (ha : a ∈ s.raced) (hr : (nextInput s).rst = false)
    (h : step s = .next t) (hb : t.pBusy = true) : a ∈ t.raced := by
  rcases step_cases h with ⟨hr', -⟩ | ⟨-, u, v, hu, hv, rfl⟩
  · exact Bool.noConfusion (hr.symm.trans hr')
  · have hbefore : a ∈ (hostWrites (nextInput s).writesBefore (takeInput s)).raced := hostWrites_raced_mono ha
    rw [← (cmdStage_mem_raced hu).2] at hbefore
    rw [lineStage_raced_busy hb, (engineStage_mem_raced hv).2]
    exact hostWrites_raced_mono hbefore

/-- Settles O40: the rules of a host write, of `MemRead`, and `step_raced_mono`. -/
theorem racedReadsAreFreeDraws : Obligations.RacedReadsAreFreeDraws := by
  refine ⟨fun s w hw => ⟨dataByte_hostWrite hw, hostWrite_races hw, ?_⟩, fun s a g ha => ⟨fun hr => ?_, fun hr => ?_⟩,
    fun s t a ha hr h hb => step_raced_mono ha hr h hb⟩
  · rintro (hidle | hout)
    · exact hostWrites_raced_idle (ws := [w]) hidle
    · exact hostWrites_raced_outside (ws := [w]) (by simpa using hout)
  · exact ⟨_, memRead_raced ha hr, rfl⟩
  · exact ⟨_, memRead_unraced ha hr, rfl⟩

end Sys2Proof.Machine
end

section
/-! PROOFS. Command words as numbers: a word is its opcode and the number in its operand bits, a row of the opcode map
fits where the opcode is the row's and that number fits the row's operands, and each command has one such number
(spec/30_encoding.md rules R81 to R85). -/

namespace Sys2Proof.Machine

/-! ### Rows -/

/-- The number of operand bits in use in the map's rows, in order; the bits above them are reserved (R81). -/
def rowWidth : List Nat := [0, 0, 2, 0, 0, 0, 24, 24, 0, 0, 0, 17, 0, 16]

theorem and_shifted_allOnes_eq_zero_iff (x : BitVec 24) (n : Nat) :
    x &&& BitVec.allOnes 24 <<< n = 0 ↔ x.toNat < 2 ^ n := by
  have hcleared : (x &&& BitVec.allOnes 24 <<< n).toNat = x.toNat / 2 ^ n * 2 ^ n := by
    rw [← BitVec.shiftLeft_ushiftRight, BitVec.toNat_shiftLeft, BitVec.toNat_ushiftRight, Nat.shiftLeft_eq,
      Nat.shiftRight_eq_div_pow, Nat.mod_eq_of_lt ((Nat.div_mul_le_self ..).trans_lt x.isLt)]
  rw [← BitVec.toNat_inj, hcleared]
  simp [Nat.div_eq_zero_iff]

/-- The reserved bits of row `k` are 0 exactly where the operand number fits the bits in use. -/
theorem and_rowReserved_eq_zero_iff (x : BitVec 24) (k : Fin 14) :
    x &&& rowReserved[k] = 0 ↔ x.toNat < 2 ^ rowWidth[k] := by
  have hmask : rowReserved[k] = BitVec.allOnes 24 <<< rowWidth[k] := by
    revert k
    decide
  rw [hmask, and_shifted_allOnes_eq_zero_iff]

theorem mapRow_fits_iff_lt (w : Word) (k : Fin 14) :
    rowFits w (mapRow k) = true ↔ opcField w = rowOpcodes[k] ∧ (imm24Field w).toNat < 2 ^ rowWidth[k] := by
  rw [mapRow_fits_iff, and_rowReserved_eq_zero_iff]

/-- The rows' opcodes differ, so at most one row fits a word (R84). -/
theorem mapRow_fits_unique {w : Word} {j k : Fin 14} (hj : rowFits w (mapRow j) = true)
    (hk : rowFits w (mapRow k) = true) : j = k := by
  have hopc : rowOpcodes[j] = rowOpcodes[k] := ((mapRow_fits_iff w j).1 hj).1.symm.trans ((mapRow_fits_iff w k).1 hk).1
  have hinj : ∀ j k : Fin 14, rowOpcodes[j] = rowOpcodes[k] → j = k := by decide
  exact hinj j k hopc

/-- What a word decodes to: the command of the row that fits. -/
theorem decode_eq_ok_iff_row {w : Word} {i : Instr} :
    decode w = .ok i ↔ ∃ k, rowFits w (mapRow k) = true ∧ i = (mapRow k).build w := by
  constructor
  · intro h
    obtain ⟨r, hr, hfits, hi⟩ := decodeRows_some (decode_eq_ok.1 h)
    obtain ⟨k, rfl⟩ := mem_opcodeMap.1 hr
    exact ⟨k, hfits, hi⟩
  · rintro ⟨k, hfits, rfl⟩
    cases hd : decodeRows w opcodeMap with
    | none => exact Bool.noConfusion (hfits.symm.trans (decodeRows_none.1 hd _ (mem_opcodeMap.2 ⟨k, rfl⟩)))
    | some i =>
      obtain ⟨r, hr, hfits', rfl⟩ := decodeRows_some hd
      obtain ⟨j, rfl⟩ := mem_opcodeMap.1 hr
      obtain rfl : k = j := mapRow_fits_unique hfits hfits'
      exact decode_eq_ok.2 hd

theorem decode_of_fits {w : Word} {k : Fin 14} (h : rowFits w (mapRow k) = true) :
    decode w = .ok ((mapRow k).build w) :=
  decode_eq_ok_iff_row.2 ⟨k, h, rfl⟩

/-! ### A command's row and operand number -/

/-- The row of a command in the opcode map (R83). -/
def rowOf : Instr → Fin 14
  | .glbNop => 0
  | .glbClrerr => 1
  | .glbSetie _ _ => 2
  | .pencCreate => 3
  | .pencDispose => 4
  | .pencReset => 5
  | .pencSetbase _ => 6
  | .pencSetlen _ => 7
  | .pencSubmit => 8
  | .pencClrdone => 9
  | .tmapClear => 10
  | .tmapAdd _ _ => 11
  | .tmapSeal => 12
  | .tmapLookup _ => 13

/-- The number that a command's operands make in bits 23:0 (R81). -/
def operandOf : Instr → Nat
  | .glbSetie ied iee => 2 * iee.toNat + ied.toNat
  | .pencSetbase imm24 | .pencSetlen imm24 => imm24.toNat
  | .tmapAdd rev len => 2 ^ 16 * rev.toNat + len.toNat
  | .tmapLookup idx => idx.toNat
  | _ => 0

theorem operandOf_lt (i : Instr) : operandOf i < 2 ^ rowWidth[rowOf i] := by
  cases i with
  | glbSetie ied iee => cases ied <;> cases iee <;> decide
  | pencSetbase imm24 | pencSetlen imm24 => exact imm24.isLt
  | tmapAdd rev len =>
    have := rev.toNat_le
    have := len.isLt
    change 2 ^ 16 * rev.toNat + len.toNat < 2 ^ 17
    omega
  | tmapLookup idx => exact idx.isLt
  | _ => exact Nat.one_pos

theorem opcField_toNat (w : Word) : (opcField w).toNat = w.toNat / 2 ^ 24 := by
  have := w.isLt
  simp only [opcField, BitVec.extractLsb'_toNat, Nat.shiftRight_eq_div_pow]
  omega

theorem imm24Field_toNat (w : Word) : (imm24Field w).toNat = w.toNat % 2 ^ 24 := by
  simp [imm24Field, BitVec.extractLsb'_toNat]

theorem append_toNat {m n : Nat} (x : BitVec m) (y : BitVec n) : (x ++ y).toNat = 2 ^ n * x.toNat + y.toNat := by
  rw [BitVec.toNat_append, ← Nat.shiftLeft_add_eq_or_of_lt y.isLt, Nat.shiftLeft_eq, Nat.mul_comm]

/-- The word of a command is its row's opcode above its operand number. -/
theorem encode_toNat (i : Instr) : (encode i).toNat = 2 ^ 24 * rowOpcodes[rowOf i].toNat + operandOf i := by
  cases i with
  | glbSetie ied iee => cases ied <;> cases iee <;> decide
  | pencSetbase imm24 | pencSetlen imm24 => exact append_toNat _ imm24
  | tmapAdd rev len =>
    have hupper : (0x21#8 ++ 0#7 ++ BitVec.ofBool rev).toNat = 2 ^ 8 * 0x21 + rev.toNat := by cases rev <;> rfl
    refine (append_toNat (0x21#8 ++ 0#7 ++ BitVec.ofBool rev) len).trans ?_
    change _ = 2 ^ 24 * 0x21 + (2 ^ 16 * rev.toNat + len.toNat)
    omega
  | tmapLookup idx => exact append_toNat (0x23#8 ++ 0#8) idx
  | _ => rfl

theorem operandOf_lt_word (i : Instr) : operandOf i < 2 ^ 24 := by
  have hwidth : ∀ k : Fin 14, rowWidth[k] ≤ 24 := by decide
  exact (operandOf_lt i).trans_le (Nat.pow_le_pow_right (by decide) (hwidth _))

theorem opcField_encode (i : Instr) : opcField (encode i) = rowOpcodes[rowOf i] := by
  have := operandOf_lt_word i
  apply BitVec.eq_of_toNat_eq
  rw [opcField_toNat, encode_toNat]
  omega

theorem imm24Field_encode_toNat (i : Instr) : (imm24Field (encode i)).toNat = operandOf i := by
  have := operandOf_lt_word i
  rw [imm24Field_toNat, encode_toNat]
  omega

theorem encode_fits (i : Instr) : rowFits (encode i) (mapRow (rowOf i)) = true := by
  rw [mapRow_fits_iff_lt, imm24Field_encode_toNat]
  exact ⟨opcField_encode i, operandOf_lt i⟩

/-! ### The operand fields as numbers -/

theorem lenField_toNat (w : Word) : (lenField w).toNat = (imm24Field w).toNat % 2 ^ 16 := by
  rw [imm24Field_toNat, Nat.mod_mod_of_dvd _ (by decide)]
  exact BitVec.extractLsb'_toNat ..

theorem revField_toNat (w : Word) : (revField w).toNat = (imm24Field w).toNat / 2 ^ 16 % 2 := by
  rw [imm24Field_toNat, revField, BitVec.getLsbD, Nat.toNat_testBit]
  omega

theorem iedField_toNat (w : Word) : (iedField w).toNat = (imm24Field w).toNat % 2 := by
  rw [imm24Field_toNat, iedField, BitVec.getLsbD, Nat.toNat_testBit]
  omega

theorem ieeField_toNat (w : Word) : (ieeField w).toNat = (imm24Field w).toNat / 2 % 2 := by
  rw [imm24Field_toNat, ieeField, BitVec.getLsbD, Nat.toNat_testBit]
  omega

/-- A command's row reads the operands back out of the command's word. -/
theorem build_encode (i : Instr) : (mapRow (rowOf i)).build (encode i) = i := by
  have hop := imm24Field_encode_toNat i
  cases i with
  | glbSetie ied iee => cases ied <;> cases iee <;> decide
  | pencSetbase imm24 => exact congrArg Instr.pencSetbase (BitVec.eq_of_toNat_eq hop)
  | pencSetlen imm24 => exact congrArg Instr.pencSetlen (BitVec.eq_of_toNat_eq hop)
  | tmapAdd rev len =>
    have hlt := len.isLt
    have hrev : revField (encode (.tmapAdd rev len)) = rev := by
      have := rev.toNat_le
      apply Function.LeftInverse.injective Bool.ofNat_toNat
      rw [revField_toNat, hop, operandOf]
      omega
    have hlen : lenField (encode (.tmapAdd rev len)) = len := by
      apply BitVec.eq_of_toNat_eq
      rw [lenField_toNat, hop, operandOf]
      omega
    exact congrArg₂ Instr.tmapAdd hrev hlen
  | tmapLookup idx =>
    have hidx : idxField (encode (.tmapLookup idx)) = idx := by
      apply BitVec.eq_of_toNat_eq
      exact (lenField_toNat _).trans (hop ▸ Nat.mod_eq_of_lt idx.isLt)
    exact congrArg Instr.tmapLookup hidx
  | _ => rfl

/-- A row's command has the row's place in the map. -/
theorem rowOf_build (k : Fin 14) (w : Word) : rowOf ((mapRow k).build w) = k := by
  fin_cases k <;> rfl

/-- A row that fits a word drops none of the word's operand bits. -/
theorem operandOf_build {k : Fin 14} {w : Word} (h : (imm24Field w).toNat < 2 ^ rowWidth[k]) :
    operandOf ((mapRow k).build w) = (imm24Field w).toNat := by
  match k, h with
  | 2, h =>
    change 2 * (ieeField w).toNat + (iedField w).toNat = _
    rw [ieeField_toNat, iedField_toNat]
    change _ < 2 ^ 2 at h
    omega
  | 6, _ | 7, _ => rfl
  | 11, h =>
    change 2 ^ 16 * (revField w).toNat + (lenField w).toNat = _
    rw [revField_toNat, lenField_toNat]
    change _ < 2 ^ 17 at h
    omega
  | 13, h => exact (lenField_toNat w).trans (Nat.mod_eq_of_lt h)
  | 0, h | 1, h | 3, h | 4, h | 5, h | 8, h | 9, h | 10, h | 12, h => exact (Nat.lt_one_iff.1 h).symm

/-- A word that a row fits is the word of the row's command. -/
theorem encode_build {k : Fin 14} {w : Word} (h : rowFits w (mapRow k) = true) : encode ((mapRow k).build w) = w := by
  obtain ⟨hopc, hlt⟩ := (mapRow_fits_iff_lt w k).1 h
  apply word_ext
  · rw [opcField_encode, rowOf_build, hopc]
  · apply BitVec.eq_of_toNat_eq
    rw [imm24Field_encode_toNat, operandOf_build hlt]

/-! ### The decoder and the encoder -/

/-- Settles O1: the word of a command fits the command's row, which reads the operands back. -/
theorem decodeOfEncode : Obligations.DecodeOfEncode := by
  intro i
  rw [decode_of_fits (encode_fits i), build_encode]

/-- Settles O2: the word fits the row it decodes by, and that row drops none of its bits. -/
theorem encodeOfDecode : Obligations.EncodeOfDecode := by
  intro w i h
  obtain ⟨k, hfits, rfl⟩ := decode_eq_ok_iff_row.1 h
  exact encode_build hfits

/-- Settles O3: the fitting row is unique because the rows' opcodes differ. -/
theorem decodeIsTheTableSearch : Obligations.DecodeIsTheTableSearch := by
  intro w
  refine ⟨fun r hr h => ?_, fun h => ?_, fun r hr r' hr' h h' => ?_⟩
  · obtain ⟨k, rfl⟩ := mem_opcodeMap.1 hr
    exact decode_of_fits (beq_iff_eq.2 h)
  · exact decode_eq_error.2 (decodeRows_none.2 fun r hr => beq_eq_false_iff_ne.2 (h r hr))
  · obtain ⟨k, rfl⟩ := mem_opcodeMap.1 hr
    obtain ⟨k', rfl⟩ := mem_opcodeMap.1 hr'
    rw [mapRow_fits_unique (beq_iff_eq.2 h) (beq_iff_eq.2 h')]

/-! ### The `ILLEGAL` words -/

theorem mem_rowOpcodes {opc : BitVec 8} : opc ∈ rowOpcodes ↔ ∃ k : Fin 14, opc = rowOpcodes[k] := by
  rw [List.mem_iff_get]
  exact exists_congr fun k => eq_comm

/-- The unassigned ranges of R85 are what the map's opcodes leave. -/
theorem opcUnassigned_iff (opc : BitVec 8) : opcUnassigned opc ↔ opc ∉ rowOpcodes := by
  have := opc.isLt
  simp only [opcUnassigned, rowOpcodes, List.mem_cons, List.not_mem_nil, or_false, ← BitVec.toNat_inj,
    BitVec.reduceToNat]
  omega

theorem reservedBits_row (k : Fin 14) :
    reservedBits rowOpcodes[k] = ((0#8 ++ rowReserved[k] : BitVec (8 + 24)) : Word) := by
  revert k
  decide

/-- A mask without opcode bits leaves of a word what it leaves of the operand bits. -/
theorem and_operand_mask_eq_zero_iff (w : Word) (m : BitVec 24) :
    w &&& ((0#8 ++ m : BitVec (8 + 24)) : Word) = 0 ↔ imm24Field w &&& m = 0 := by
  have hsplit : w &&& ((0#8 ++ m : BitVec (8 + 24)) : Word) =
      ((0#8 ++ (imm24Field w &&& m) : BitVec (8 + 24)) : Word) := by
    have e := BitVec.and_append (x₁ := opcField w) (x₂ := 0#8) (y₁ := imm24Field w) (y₂ := m)
    rw [BitVec.and_zero] at e
    exact (congrArg (· &&& ((0#8 ++ m : BitVec (8 + 24)) : Word)) (word_split w).symm).trans e
  rw [hsplit]
  constructor
  · intro h
    exact (imm24Field_append 0#8 _).symm.trans (congrArg imm24Field h)
  · intro h
    rw [h]
    rfl

/-- The legal words (R85). -/
theorem decode_ok_iff (w : Word) :
    (∃ i, decode w = .ok i) ↔ ¬ opcUnassigned (opcField w) ∧ w &&& reservedBits (opcField w) = 0 := by
  have hrow {k : Fin 14} (hopc : opcField w = rowOpcodes[k]) :
      w &&& reservedBits (opcField w) = 0 ↔ imm24Field w &&& rowReserved[k] = 0 := by
    rw [hopc, reservedBits_row, and_operand_mask_eq_zero_iff]
  constructor
  · rintro ⟨i, h⟩
    obtain ⟨k, hfits, -⟩ := decode_eq_ok_iff_row.1 h
    obtain ⟨hopc, hzero⟩ := (mapRow_fits_iff w k).1 hfits
    exact ⟨fun hun => (opcUnassigned_iff _).1 hun (mem_rowOpcodes.2 ⟨k, hopc⟩), (hrow hopc).2 hzero⟩
  · rintro ⟨hassigned, hzero⟩
    obtain ⟨k, hopc⟩ := mem_rowOpcodes.1 (not_not.1 fun h => hassigned ((opcUnassigned_iff _).2 h))
    exact ⟨_, decode_of_fits ((mapRow_fits_iff w k).2 ⟨hopc, (hrow hopc).1 hzero⟩)⟩

/-- The command stage on an `ILLEGAL` word raises `FORMAT_INVALID` and does nothing else (R85). -/
theorem cmdStage_of_illegal {w : Word} {e : Illegal} (h : decode w = .error e) (s : State) :
    cmdStage (some w) s = .next { s with err := 2 } := by
  simp only [cmdStage, h, failWith, raiseErr, errNumber]

/-- Settles O4: `decode_ok_iff` says which words are legal, and the command stage answers every other word alike. -/
theorem illegalWordsRaiseFormatInvalid : Obligations.IllegalWordsRaiseFormatInvalid := by
  intro w
  refine ⟨fun hbad => ?_, (decode_ok_iff w).2⟩
  cases hd : decode w with
  | error e => exact ⟨⟨e, rfl⟩, cmdStage_of_illegal hd⟩
  | ok i =>
    obtain ⟨hassigned, hzero⟩ := (decode_ok_iff w).1 ⟨i, hd⟩
    exact absurd hbad (by simp [hassigned, hzero])

/-- Settles O5: six words evaluated. -/
theorem specWordsDecode : Obligations.SpecWordsDecode := by
  unfold Obligations.SpecWordsDecode
  decide

end Sys2Proof.Machine
end

section
/-! PROOFS. The assembler (spec/30_encoding.md rules R87 and R88): a line whose numbers fit gives the words of commands,
and the word of a command is its row's opcode and its operand number put together by OR. -/

namespace Sys2Proof.Machine

/-! ### A line's words and its refusal -/

theorem assemble_of_fits {l : AsmLine} (h : asmFits l = true) : assemble l = some (asmWords l) :=
  if_pos h

theorem assemble_of_not_fits {l : AsmLine} (h : asmFits l = false) : assemble l = none :=
  if_neg (by simp [h])

theorem assemble_eq_some {l : AsmLine} {ws : List Word} (h : assemble l = some ws) : ws = asmWords l := by
  unfold assemble at h
  split at h <;> cases h
  rfl

/-- A line of one word that fits exactly where `P` holds. -/
theorem assemble_eq_ite {l : AsmLine} {v w : Word} {P : Prop} [Decidable P] (hfits : asmFits l = decide P)
    (hwords : asmWords l = [v]) (hv : P → v = w) : assemble l = if P then some [w] else none := by
  by_cases h : P
  · rw [assemble_of_fits (by simpa [h] using hfits), if_pos h, hwords, hv h]
  · rw [assemble_of_not_fits (by simpa [h] using hfits), if_neg h]

/-- Every line but `.word` stands for commands. -/
theorem asmWords_eq_map_encode {l : AsmLine} (h : ∀ w, l ≠ .word w) :
    ∃ i is, asmWords l = (i :: is).map encode := by
  cases l with
  | word w => exact absurd rfl (h w)
  | pencSend | tmapSingle => exact ⟨_, [_, _], rfl⟩
  | _ => exact ⟨_, [], rfl⟩

/-! ### Words as the OR of their parts -/

theorem ofNat_toNat_of_lt {n x : Nat} (h : x < 2 ^ n) : (BitVec.ofNat n x).toNat = x := by
  rw [BitVec.toNat_ofNat, Nat.mod_eq_of_lt h]

/-- R87's "word" column: the opcode in its place, OR the operand number. -/
theorem encode_eq_or {i : Instr} {opc : BitVec 8} {p : Word} {n : Nat} (hopc : rowOpcodes[rowOf i] = opc)
    (hp : placeField opc 24 = p) (hn : operandOf i = n) : encode i = p ||| BitVec.ofNat 32 n := by
  subst hopc hp hn
  have hlt := operandOf_lt_word i
  have hop : (BitVec.ofNat 32 (operandOf i)).toNat = operandOf i := ofNat_toNat_of_lt (by omega)
  apply BitVec.eq_of_toNat_eq
  rw [encode_toNat, BitVec.or_comm, or_placeField_toNat _ (by rwa [hop]) (by decide), hop, Nat.add_comm]

theorem encode_pencSetbase_ofNat {addr : Nat} (h : addr < 2 ^ 24) :
    encode (.pencSetbase (BitVec.ofNat 24 addr)) = 0x13000000 ||| BitVec.ofNat 32 addr :=
  encode_eq_or (opc := 0x13) rfl (by decide) (ofNat_toNat_of_lt h)

theorem encode_pencSetlen_ofNat {n : Nat} (h : n < 2 ^ 24) :
    encode (.pencSetlen (BitVec.ofNat 24 n)) = 0x14000000 ||| BitVec.ofNat 32 n :=
  encode_eq_or (opc := 0x14) rfl (by decide) (ofNat_toNat_of_lt h)

theorem encode_tmapLookup_ofNat {idx : Nat} (h : idx < 2 ^ 16) :
    encode (.tmapLookup (BitVec.ofNat 16 idx)) = 0x23000000 ||| BitVec.ofNat 32 idx :=
  encode_eq_or (opc := 0x23) rfl (by decide) (ofNat_toNat_of_lt h)

theorem encode_tmapAdd_ofNat {len : Nat} (h : len < 2 ^ 16) (rev : Bool) :
    encode (.tmapAdd rev (BitVec.ofNat 16 len)) =
      0x21000000 ||| (if rev then 1 else 0) <<< 16 ||| BitVec.ofNat 32 len := by
  have hlen : (BitVec.ofNat 32 len).toNat = len := ofNat_toNat_of_lt (h.trans (by decide))
  have hop : operandOf (.tmapAdd rev (BitVec.ofNat 16 len)) = 2 ^ 16 * rev.toNat + len := by
    rw [operandOf, ofNat_toNat_of_lt h]
  have hrev : BitVec.ofNat 32 (2 ^ 16 * rev.toNat + len) = placeBit rev 16 ||| BitVec.ofNat 32 len := by
    have := rev.toNat_le
    apply BitVec.eq_of_toNat_eq
    rw [BitVec.or_comm, placeBit, or_placeField_toNat _ (by rwa [hlen]) (by decide), hlen, BitVec.toNat_ofBool,
      ofNat_toNat_of_lt (by omega), Nat.add_comm]
  have hplace : placeBit rev 16 = ((if rev then 1 else 0) <<< 16 : Nat) := by cases rev <;> rfl
  rw [encode_eq_or (opc := 0x21) rfl rfl hop, hrev, hplace, ← BitVec.or_assoc]
  rfl

theorem encode_glbSetie_beq_one {ied iee : Nat} (hd : ied < 2) (he : iee < 2) :
    encode (.glbSetie (ied == 1) (iee == 1)) =
      0x02000000 ||| BitVec.ofNat 32 iee <<< 1 ||| BitVec.ofNat 32 ied := by
  interval_cases ied <;> interval_cases iee <;> rfl

/-- Settles O6: each row of R87 is `encode_eq_or` at its operands, a number that does not fit makes the whole line not
fit, and the words of a line are words of commands, which decode. -/
theorem assembledCommandsAreLegal : Obligations.AssembledCommandsAreLegal := by
  refine ⟨?fixed, fun ied iee => ?setie, fun addr => ?setbase, fun n => ?setlen, fun len rev => ?add,
    fun idx => ?lookup, fun w => ?word, fun addr n h => ?send, fun n h => ?strip, fun l words hl h => ?legal⟩
  case fixed => decide
  case setie => exact assemble_eq_ite (Bool.decide_and ..).symm rfl fun ⟨hd, he⟩ => encode_glbSetie_beq_one hd he
  case setbase => exact assemble_eq_ite rfl rfl encode_pencSetbase_ofNat
  case setlen => exact assemble_eq_ite rfl rfl encode_pencSetlen_ofNat
  case add => exact assemble_eq_ite rfl rfl fun h => encode_tmapAdd_ofNat h rev
  case lookup => exact assemble_eq_ite rfl rfl encode_tmapLookup_ofNat
  case word => exact assemble_eq_ite rfl rfl fun _ => rfl
  case send =>
    apply assemble_of_not_fits
    simp only [asmFits, Bool.and_eq_false_iff, decide_eq_false_iff_not, Nat.not_lt]
    exact h
  case strip =>
    have hfits : decide (n < 2 ^ 16) = false := decide_eq_false (Nat.not_lt.2 h)
    exact ⟨assemble_of_not_fits hfits, assemble_of_not_fits hfits, assemble_of_not_fits hfits⟩
  case legal =>
    obtain ⟨i, is, hwords⟩ := asmWords_eq_map_encode hl
    rw [assemble_eq_some h, hwords]
    refine ⟨by simp, fun w hw => ?_⟩
    obtain ⟨j, -, rfl⟩ := List.mem_map.1 hw
    exact ⟨j, decodeOfEncode j⟩

/-! ### Pseudo-instructions -/

/-- Settles O7: a pseudo-instruction with the fields of one command has that command's words and refusal; the other two
have the words of three commands where their numbers fit. -/
theorem pseudoInstructionsExpand : Obligations.PseudoInstructionsExpand := by
  refine ⟨rfl, rfl, fun n => ⟨rfl, rfl⟩, fun addr n ha hn => ?_, fun n hn => ?_⟩
  · exact ⟨_, _, _, assemble_of_fits (decide_eq_true ha), assemble_of_fits (decide_eq_true hn), rfl,
      assemble_of_fits (by simp only [asmFits, ha, hn, decide_true, Bool.and_self])⟩
  · exact ⟨_, _, _, rfl, assemble_of_fits (decide_eq_true hn), rfl, assemble_of_fits (decide_eq_true hn)⟩

end Sys2Proof.Machine
end

section
/-! PROOFS. Symbols: their halves at legal parameters (spec/42_protocol_encoder.md rule R153) and how the line stage
drives them, level by level (spec/43_pulse_generator.md rules R193 and R194). -/

namespace Sys2Proof.Machine

/-! ### The halves of a symbol -/

/-- A symbol of two durations that fit their fields gives both halves back. -/
theorem mkSymbol_halves (l0 l1 : Bool) {d0 d1 : Nat} (h0 : d0 < 2 ^ 15) (h1 : d1 < 2 ^ 15) :
    symLevel0 (mkSymbol l0 d0 l1 d1) = l0 ∧ (symDuration0 (mkSymbol l0 d0 l1 d1)).toNat = d0 ∧
      symLevel1 (mkSymbol l0 d0 l1 d1) = l1 ∧ (symDuration1 (mkSymbol l0 d0 l1 d1)).toNat = d1 :=
  ⟨symLevel0_mkSymbol .., symDuration0_mkSymbol _ _ h0, symLevel1_mkSymbol .., symDuration1_mkSymbol _ _ h1⟩

/-- Settles O57: the legal ranges of R8 make every duration fit its 15 bits. -/
theorem symbolHalves : Obligations.SymbolHalves := by
  intro b
  obtain ⟨⟨-, h0h⟩, ⟨-, h0l⟩, ⟨-, h1h⟩, ⟨-, h1l⟩, ⟨-, hreset⟩, -⟩ := b.property
  obtain ⟨hlevel0, hfirst, hlevel1, hsecond⟩ := mkSymbol_halves false false
    (d0 := b.val.resetTicks / 2) (d1 := b.val.resetTicks - b.val.resetTicks / 2) (by omega) (by omega)
  refine ⟨mkSymbol_halves true false (by omega) (by omega), mkSymbol_halves true false (by omega) (by omega),
    hlevel0, hlevel1, hfirst, ?_⟩
  rw [resetSym, hfirst, hsecond]
  omega

/-! ### The levels of a held symbol -/

/-- A line that nothing can freeze, with `waiting` in the FIFO, and PGEN as R39 leaves it: the present half of a held
symbol has a tick left, and its second half lasts a tick. -/
structure LineRuns (waiting : List Symbol) (s : State) : Prop where
  unfrozen : s.hung = false
  no_hang : s.params.phyHang = false
  fifo : s.fQ = waiting
  held : s.gLoaded = true → 1 ≤ s.gRem.toNat ∧ 1 ≤ (symDuration1 s.gSym).toNat

theorem heldLevels_lineLoad (x : Symbol) (rest : List Symbol) (s : State) :
    heldLevels (lineLoad x rest s) = symLevels x := rfl

section
variable {waiting : List Symbol} {s : State} (h : LineRuns waiting s)
include h

/-- PGEN is free exactly when it has no level left to drive. -/
theorem LineRuns.free_iff : s.gLoaded = false ↔ heldLevels s = [] := by
  cases hl : s.gLoaded with
  | false => simp [heldLevels, hl]
  | true =>
    have hrem := (h.held hl).1
    cases hhalf : s.gHalf <;> simp [heldLevels, hl, hhalf] <;> omega

/-- One tick of a held symbol: `dout` takes the first of its levels, and the others are left (R193). -/
theorem LineRuns.heldLevels_lineDrive (hl : s.gLoaded = true) :
    heldLevels s = (lineDrive s).gDout :: heldLevels (lineDrive s) := by
  have hrem := (h.held hl).1
  by_cases hmore : 1 < s.gRem.toNat
  · have hleft : s.gRem.toNat = (s.gRem - 1).toNat + 1 := by bv_omega
    rw [lineDrive_same_half hmore]
    cases hhalf : s.gHalf <;> simp only [heldLevels, hl, hhalf] <;> rw [hleft, List.replicate_succ] <;> rfl
  · have hlast : s.gRem.toNat = 1 := by omega
    cases hhalf : s.gHalf with
    | false => simp [lineDrive_next_half hmore hhalf, heldLevels, hl, hhalf, hlast]
    | true => simp [lineDrive_free hmore hhalf, heldLevels, hl, hhalf, hlast]

theorem LineRuns.after_lineDrive (hl : s.gLoaded = true) : LineRuns waiting (lineDrive s) := by
  obtain ⟨hrem, hsecond⟩ := h.held hl
  by_cases hmore : 1 < s.gRem.toNat
  · rw [lineDrive_same_half hmore]
    exact { h with held := fun _ => ⟨by bv_omega, hsecond⟩ }
  · cases hhalf : s.gHalf with
    | false =>
      rw [lineDrive_next_half hmore hhalf]
      exact { h with held := fun _ => ⟨hsecond, hsecond⟩ }
    | true =>
      rw [lineDrive_free hmore hhalf]
      exact { h with held := nofun }

/-- A line stage with levels left drives the first of them. -/
theorem LineRuns.lineStage_drives (hne : heldLevels s ≠ []) :
    LineRuns waiting (lineStage s) ∧ heldLevels s = (lineStage s).gDout :: heldLevels (lineStage s) := by
  have hl : s.gLoaded = true := by
    rw [← Bool.not_eq_false, h.free_iff]
    exact hne
  have hstage : lineStage s = lineDrive s := by
    rw [lineStage_eq_lineTick h.unfrozen h.no_hang, lineTick, if_pos hl]
  rw [hstage]
  exact ⟨h.after_lineDrive hl, h.heldLevels_lineDrive hl⟩

/-- The line stage repeated drives the held levels one by one and takes nothing from the FIFO. -/
theorem LineRuns.iterate_drives {k : Nat} (hk : k < (heldLevels s).length) :
    LineRuns waiting (lineStage^[k + 1] s) ∧
      (heldLevels s).drop k = (lineStage^[k + 1] s).gDout :: heldLevels (lineStage^[k + 1] s) := by
  induction k with
  | zero => exact h.lineStage_drives (List.ne_nil_of_length_pos hk)
  | succ k ih =>
    obtain ⟨hruns, hdrop⟩ := ih (Nat.lt_of_succ_lt hk)
    have hleft : (heldLevels s).drop (k + 1) = heldLevels (lineStage^[k + 1] s) := by
      rw [← List.drop_drop, hdrop]
      rfl
    rw [Function.iterate_succ_apply', hleft]
    exact hruns.lineStage_drives (by rw [← hleft]; exact List.drop_eq_nil_iff.not.2 (Nat.not_le.2 hk))

end

theorem symLevels_length (x : Symbol) : (symLevels x).length = (symDuration0 x).toNat + (symDuration1 x).toNat := by
  simp [symLevels]

/-- The level of a symbol at its tick `k` (R89). -/
theorem symLevels_getElem? {x : Symbol} {k : Nat} (hk : k < (symDuration0 x).toNat + (symDuration1 x).toNat) :
    (symLevels x)[k]? = some (if k < (symDuration0 x).toNat then symLevel0 x else symLevel1 x) := by
  rw [symLevels, List.getElem?_append, List.length_replicate]
  split
  · simp [*]
  · exact List.getElem?_replicate_of_lt (by omega)

/-- Settles O41: the first stage loads the symbol, and `LineRuns.iterate_drives` counts off its levels. -/
theorem symbolDrivesItsLevels : Obligations.SymbolDrivesItsLevels := by
  intro s x rest hfree hq hunfrozen hnohang h0 h1 k hk
  have hload : lineStage^[k + 1] s = lineStage^[k + 1] (lineLoad x rest s) := by
    have hstage : lineStage s = lineStage (lineLoad x rest s) := by
      rw [lineStage_eq_lineTick hunfrozen hnohang,
        lineStage_eq_lineTick (s := lineLoad x rest s) hunfrozen hnohang]
      simp only [lineTick, hfree, hq]
      rfl
    rw [Function.iterate_succ_apply, hstage, Function.iterate_succ_apply]
  have hloaded : LineRuns rest (lineLoad x rest s) := ⟨hunfrozen, hnohang, rfl, fun _ => ⟨h0, h1⟩⟩
  obtain ⟨hruns, hdrop⟩ := hloaded.iterate_drives (k := k) (by rwa [heldLevels_lineLoad, symLevels_length])
  rw [heldLevels_lineLoad] at hdrop
  rw [hload]
  refine ⟨?level, hruns.fifo, ?free⟩
  case level =>
    have hlevel := congrArg List.head? hdrop
    rw [List.head?_drop, symLevels_getElem? hk] at hlevel
    exact (Option.some.inj hlevel).symm
  case free =>
    have hleft := congrArg List.length hdrop
    rw [List.length_drop, symLevels_length, List.length_cons] at hleft
    rw [hruns.free_iff, ← List.length_eq_zero_iff]
    omega

end Sys2Proof.Machine
end

section
/-! PROOFS. The command port (spec/40_command_port.md): which words of an opcode are commands, the global commands (R105
to R107), and the command stage by R215's table of checks (R102 to R104). -/

namespace Sys2Proof.Machine

/-! ### The words of an opcode -/

/-- A legal word with a command's opcode has its operand number in the operand bits that the command's row uses. -/
theorem imm24Field_lt_of_decode {v : Word} {i j : Instr} (hopc : opcField v = opcField (encode i))
    (hd : decode v = .ok j) : (imm24Field v).toNat < 2 ^ rowWidth[rowOf i] := by
  obtain ⟨-, hzero⟩ := (decode_ok_iff v).1 ⟨j, hd⟩
  rw [hopc, opcField_encode, reservedBits_row, and_operand_mask_eq_zero_iff, and_rowReserved_eq_zero_iff] at hzero
  exact hzero

/-- A command without operand bits has one legal word with its opcode (R81, R85). -/
theorem onlyWord_encode (i : Instr) (hwidth : rowWidth[rowOf i] = 0) : OnlyWord (encode i) i := by
  intro v hopc
  split
  · next hv => rw [hv, decodeOfEncode i]
  · next hv =>
    cases hd : decode v with
    | error e => exact cmdStage_of_illegal hd
    | ok j =>
      have hlt := imm24Field_lt_of_decode hopc hd
      have hlt' := operandOf_lt i
      rw [hwidth] at hlt hlt'
      refine absurd (word_ext hopc (BitVec.eq_of_toNat_eq ?_)) hv
      rw [imm24Field_encode_toNat]
      omega

/-! ### The global commands -/

theorem encode_glbSetie (ied iee : Bool) :
    encode (.glbSetie ied iee) = 0x02000000 ||| (if iee then 2 else 0) ||| (if ied then 1 else 0) := by
  cases ied <;> cases iee <;> rfl

/-- Settles O10: `GLB.NOP` and `GLB.CLRERR` have no operand bits, and `reservedBits` names those of `GLB.SETIE` that
must be 0. -/
theorem globalCommands : Obligations.GlobalCommands := by
  refine ⟨⟨onlyWord_encode .glbNop rfl, fun _ => rfl⟩, ⟨onlyWord_encode .glbClrerr rfl, fun _ => rfl⟩,
    fun ied iee => ⟨?_, fun _ => rfl⟩, fun w hopc hbits => ?_⟩
  · rw [← encode_glbSetie, decodeOfEncode]
  · have hreserved : reservedBits (opcField w) = 0x00FFFFFC := by
      rw [hopc]
      rfl
    exact ((illegalWordsRaiseFormatInvalid w).1 (.inr (by rwa [hreserved]))).2

/-! ### The first failed check -/

theorem wordError_of_decode {w : Word} {i : Instr} (hd : decode w = .ok i) (s : State) :
    wordError w s = commandError i s := by
  simp only [wordError, hd]

theorem wordError_of_illegal {w : Word} {r : Illegal} (hd : decode w = .error r) (s : State) :
    wordError w s = some .formatInvalid := by
  simp only [wordError, hd]

/-- A word that fails a check of R215's table records that error and does nothing else (R103). -/
theorem cmdStage_of_wordError {w : Word} {s : State} {e : ErrCode} (h : wordError w s = some e) :
    cmdStage (some w) s = .next (raiseErr e s) := by
  cases hd : decode w with
  | error r =>
    obtain rfl : .formatInvalid = e := Option.some.inj ((wordError_of_illegal hd s).symm.trans h)
    exact cmdStage_of_illegal hd s
  | ok i =>
    rw [wordError_of_decode hd] at h
    rw [cmdStage_of_decode hd, exec_eq, h, commandOutcome]

/-- A word that passes every check of R215's table is a command, which then has its effect (R101). -/
theorem cmdStage_of_wordError_none {w : Word} {s : State} (h : wordError w s = none) :
    ∃ i, decode w = .ok i ∧ cmdStage (some w) s = .next (commandEffect i s) := by
  cases hd : decode w with
  | error r => exact nomatch (wordError_of_illegal hd s).symm.trans h
  | ok i =>
    rw [wordError_of_decode hd] at h
    exact ⟨i, rfl, by rw [cmdStage_of_decode hd, exec_eq, h, commandOutcome]⟩

/-- No command that succeeds writes `ERR`, `GLB.CLRERR` apart (R104). -/
theorem commandEffect_err {i : Instr} (hi : i ≠ .glbClrerr) (s : State) : (commandEffect i s).err = s.err := by
  cases i with
  | glbClrerr => exact absurd rfl hi
  | pencCreate | pencDispose =>
    simp only [commandEffect]
    split <;> rfl
  | _ => rfl

/-- Settles O21: `cmdStage_of_wordError` for a failing word, whose edge goes on with its later stages, and
`cmdStage_of_wordError_none` for the others. -/
theorem firstFailedCheckDecidesTheError : Obligations.FirstFailedCheckDecidesTheError := by
  intro w s
  refine ⟨fun e he => ⟨cmdStage_of_wordError he, ?_⟩, fun hn => ?_⟩
  · rintro s' hr hv rfl rfl
    rw [step_no_reset hr, acceptedWord_valid hv, cmdStage_of_wordError he]
    rfl
  · obtain ⟨i, hd, hs⟩ := cmdStage_of_wordError_none hn
    exact ⟨i, commandEffect i s, hd, hs, (cmdStage_of_decode hd s).symm.trans hs, fun hi => commandEffect_err hi s⟩

end Sys2Proof.Machine
end

section
/-! PROOFS. The quiescent block: between transmissions the engine stage makes no invocation and the line stage keeps
`dout` at its idle level (spec/43_pulse_generator.md rule R202, spec/60_exceptions.md rule R230). -/

namespace Sys2Proof.Machine

/-- Without a transmission in flight the engine stage only empties the memory port (R171). -/
theorem engineStage_idle {s : State} (hb : s.pBusy = false) : engineStage s = .next { s with memReads := [] } := by
  rcases engineStage_cases s with ⟨-, he⟩ | ⟨hb', -⟩
  · exact he
  · exact Bool.noConfusion (hb.symm.trans hb')

/-- In a safe state without a transmission in flight the line has nothing to send and is at its idle level already
(R202). -/
theorem Inv.lineStage_idle {s : State} (h : Inv s) (hb : s.pBusy = false) : lineStage s = s := by
  obtain ⟨hq, hl⟩ := h.idle_line hb
  have hstage : lineStage s = lineTick s := by
    rcases lineStage_cases s with ⟨hh, -⟩ | ⟨-, -, hb', -⟩ | ⟨-, -, he⟩
    · exact Bool.noConfusion (hb.symm.trans (h.hung_busy hh).2)
    · exact Bool.noConfusion (hb.symm.trans hb')
    · exact he
  calc lineStage s
    _ = lineIdle s := by simp [hstage, lineTick, hl, hq]
    _ = { s with gDout := s.params.idleLevel } := by simp [lineIdle, hb]
    _ = s := by rw [← h.idle_level hb]

/-- Settles O53: the edge accepts no command and writes nothing to DATA, and neither later stage changes an idle
block. -/
theorem quiescentStateDoesNotChange : Obligations.QuiescentStateDoesNotChange := by
  intro s h hb hin
  have hafter : Inv { takeInput s with memReads := [] } := { h with topology := { h.topology with } }
  refine ⟨?_, h.idle_level hb⟩
  rw [step_no_command (by rw [hin]) (by rw [hin]), hin]
  calc andThen (engineStage (takeInput s)) (fun t => .next (lineStage t))
    _ = .next (lineStage { takeInput s with memReads := [] }) := by
      rw [engineStage_idle (s := takeInput s) hb, andThen_next]
    _ = .next { takeInput s with memReads := [] } := by rw [hafter.lineStage_idle hb]

end Sys2Proof.Machine
end

section
/-! PROOFS. The topology mapper's commands (spec/41_topology_mapper.md rules R121 to R124), each by R215's table of
checks and its effect. -/

namespace Sys2Proof.Machine

/-! ### A command by its checks -/

/-- A command that fails a check records that check's error and does nothing else (R103). -/
theorem exec_of_error {i : Instr} {s : State} {e : ErrCode} (h : commandError i s = some e) :
    exec i s = .next (raiseErr e s) := by
  rw [exec_eq, h, commandOutcome]

/-- A command that passes its checks has its effect (R101). -/
theorem exec_of_no_error {i : Instr} {s : State} (h : commandError i s = none) :
    exec i s = .next (commandEffect i s) := by
  rw [exec_eq, h, commandOutcome]

/-- A word with a reserved operand bit of its opcode set raises `FORMAT_INVALID` and does nothing else (R85). -/
theorem cmdStage_of_reservedBits {w : Word} {opc : BitVec 8} (hopc : opcField w = opc)
    (hbits : w &&& reservedBits opc ≠ 0) (s : State) : cmdStage (some w) s = .next { s with err := 2 } := by
  subst hopc
  exact ((illegalWordsRaiseFormatInvalid w).1 (.inr hbits)).2 s

/-! ### `TMAP.CLEAR` and `TMAP.SEAL` -/

/-- `TMAP.CLEAR` on a sealed topology (R121). -/
theorem exec_tmapClear_sealed {s : State} (h : s.tSealed = true) : exec .tmapClear s = .next { s with err := 5 } :=
  exec_of_error (e := .invalidState) (by simp [commandError, h])

/-- `TMAP.ADD` on a sealed topology (R122). -/
theorem exec_tmapAdd_sealed {s : State} (h : s.tSealed = true) (rev : Bool) (len : Idx) :
    exec (.tmapAdd rev len) s = .next { s with err := 5 } :=
  exec_of_error (e := .invalidState) (by simp [commandError, h])

/-- Settles O11: the command has no operand bits, its one check is the seal, and its effect is `clearTopology`. -/
theorem tmapClearEmptiesTheTopology : Obligations.TmapClearEmptiesTheTopology := by
  refine ⟨onlyWord_encode .tmapClear rfl, fun s => ⟨exec_tmapClear_sealed, fun h => ?_⟩⟩
  exact exec_of_no_error (i := .tmapClear) (by simp [commandError, h])

/-- Settles O13: the command has no operand bits and no check, and the seal it sets is the first check of the two
others. -/
theorem tmapSealFixesTheTopology : Obligations.TmapSealFixesTheTopology := by
  refine ⟨onlyWord_encode .tmapSeal rfl, fun s => rfl, fun s h => ?_, fun s rev len => ?_⟩
  · calc exec .tmapSeal s
      _ = .next { s with tSealed := true } := rfl
      _ = .next s := by rw [← h]
  · exact ⟨_, rfl, exec_tmapAdd_sealed rfl rev len, exec_tmapClear_sealed rfl⟩

/-! ### `TMAP.ADD` -/

theorem encode_tmapAdd (rev : Bool) (len : Idx) :
    encode (.tmapAdd rev len) = 0x21000000 ||| (if rev then 0x00010000 else 0) ||| len.setWidth 32 := by
  have hword := encode_tmapAdd_ofNat len.isLt rev
  rw [BitVec.ofNat_toNat, BitVec.setWidth_eq, BitVec.ofNat_toNat] at hword
  cases rev <;> exact hword

/-- The total that `TMAP.ADD` writes does not wrap where its check passed (R122). -/
theorem appendStrip_tTotal_toNat {st : Strip} {s : State} (h : s.tTotal.toNat + st.len.toNat ≤ 65535) :
    (appendStrip st s).tTotal.toNat = s.tTotal.toNat + st.len.toNat := by
  rw [appendStrip_tTotal, BitVec.toNat_add]
  omega

/-- Settles O12: the three checks in R215's order, then the effect `appendStrip`. -/
theorem tmapAddAppendsOneStrip : Obligations.TmapAddAppendsOneStrip := by
  refine ⟨fun rev len => ?word, fun w hopc hbits => cmdStage_of_reservedBits hopc hbits, fun rev len s =>
    ⟨fun h => exec_tmapAdd_sealed h rev len, fun h hfull => ?full, fun h hroom hbig => ?big,
      fun h hroom hfits => ?added⟩⟩
  case word => rw [← encode_tmapAdd, decodeOfEncode]
  case full => exact exec_of_error (e := .resourceExhausted) (by simp [commandError, h, hfull])
  case big => exact exec_of_error (e := .invalidArgument) (by simp [commandError, h, hroom, hbig])
  case added =>
    have hchecks : commandError (.tmapAdd rev len) s = none := by
      simp [commandError, h, hroom, Nat.not_lt.2 hfits]
    exact ⟨appendStrip ⟨len, rev⟩ s, exec_of_no_error hchecks, rfl, appendStrip_tTotal_toNat hfits,
      List.getElem?_set_self, fun j hj => List.getElem?_set_ne hj.symm⟩

/-! ### `TMAP.LOOKUP` -/

theorem encode_tmapLookup (idx : Idx) : encode (.tmapLookup idx) = 0x23000000 ||| idx.setWidth 32 := by
  have hword := encode_tmapLookup_ofNat idx.isLt
  rwa [BitVec.ofNat_toNat, BitVec.setWidth_eq, BitVec.ofNat_toNat] at hword

/-- `TMAP.LOOKUP` on a sealed topology with an LED (R124). -/
theorem exec_tmapLookup {s : State} (h : s.tSealed = true) (h0 : s.tTotal ≠ 0) (idx : Idx) :
    exec (.tmapLookup idx) s = .next { s with tResult := mapFn s idx } :=
  exec_of_no_error (i := .tmapLookup idx) (by simp only [commandError, h, h0, if_false, reduceCtorEq])

/-- Settles O14: the two checks of R215, then the effect, which is the map. -/
theorem tmapLookupWritesTheMap : Obligations.TmapLookupWritesTheMap := by
  refine ⟨fun idx => ?word, fun w hopc hbits => cmdStage_of_reservedBits hopc hbits, fun idx s =>
    ⟨fun h => ?unsealed, fun h => ?empty, fun h h0 => ?mapped⟩⟩
  case word => rw [← encode_tmapLookup, decodeOfEncode]
  case unsealed => exact exec_of_error (e := .invalidState) (by simp [commandError, h])
  case empty => exact exec_of_error (e := .invalidState) (by simp [commandError, h])
  case mapped => exact exec_tmapLookup h h0 idx

end Sys2Proof.Machine
end

section
/-! PROOFS. The map (spec/41_topology_mapper.md rules R125 to R134): the one strip that holds an index, where the walk of
R125 sends the index inside that strip, and that doing so twice gives the index back. -/

namespace Sys2Proof.Machine

/-! ### The strip that holds an index -/

/-- Strip `i` of `ss` is `st`, and its range `[B_i, B_i + LEN[i])` holds `l` (R126). -/
structure HoldsIndex (ss : List Strip) (i : Nat) (st : Strip) (l : Nat) : Prop where
  entry : ss[i]? = some st
  base_le : ledSum (ss.take i) ≤ l
  lt_end : l < ledSum (ss.take i) + st.len.toNat

@[simp] theorem ledSum_cons (st : Strip) (ss : List Strip) : ledSum (st :: ss) = st.len.toNat + ledSum ss := by
  simp [ledSum]

/-- A strip's range ends at or before the base of every later strip. -/
theorem stripEnd_le_ledSum_take {ss : List Strip} {i j : Nat} {st : Strip} (hst : ss[i]? = some st) (hij : i < j) :
    ledSum (ss.take i) + st.len.toNat ≤ ledSum (ss.take j) := by
  have hnext : ss.take (i + 1) = ss.take i ++ [st] := by rw [List.take_add_one, hst, Option.toList_some]
  have hmono : ledSum (ss.take (i + 1)) ≤ ledSum (ss.take j) :=
    ((List.take_sublist_take_left hij).map _).sum_le_sum fun _ _ => Nat.zero_le _
  simpa [hnext, ledSum] using hmono

/-- A strip's range lies inside the topology. -/
theorem stripEnd_le_ledSum {ss : List Strip} {i : Nat} {st : Strip} (hst : ss[i]? = some st) :
    ledSum (ss.take i) + st.len.toNat ≤ ledSum ss := by
  have hle := stripEnd_le_ledSum_take hst (List.getElem?_eq_some_iff.1 hst).1
  rwa [List.take_length] at hle

/-- The ranges cover `[0, ledSum ss)` (R126). -/
theorem exists_holdsIndex_of_lt {ss : List Strip} {l : Nat} (hl : l < ledSum ss) : ∃ i st, HoldsIndex ss i st l := by
  induction ss generalizing l with
  | nil => exact absurd hl (Nat.not_lt_zero l)
  | cons st ss ih =>
    by_cases hst : l < st.len.toNat
    · exact ⟨0, st, rfl, Nat.zero_le l, by simpa [ledSum] using hst⟩
    · rw [ledSum_cons] at hl
      obtain ⟨i, u, hu, hbase, hend⟩ := ih (l := l - st.len.toNat) (by omega)
      refine ⟨i + 1, u, hu, ?_, ?_⟩ <;>
      · rw [List.take_succ_cons, ledSum_cons]
        omega

/-- The ranges do not overlap (R126). -/
theorem HoldsIndex.unique {ss : List Strip} {i j : Nat} {st u : Strip} {l : Nat} (hi : HoldsIndex ss i st l)
    (hj : HoldsIndex ss j u l) : i = j := by
  obtain ⟨hst, hbase, hend⟩ := hi
  obtain ⟨hu, hbase', hend'⟩ := hj
  rcases Nat.lt_trichotomy i j with hlt | heq | hgt
  · have := stripEnd_le_ledSum_take hst hlt
    omega
  · exact heq
  · have := stripEnd_le_ledSum_take hu hgt
    omega

/-! ### The walk -/

/-- Where a strip at `base` sends an index of its range (R126). -/
def stripImage (st : Strip) (base l : Nat) : Nat := if st.rev then 2 * base + st.len.toNat - 1 - l else l

/-- The walk of R125 answers at the strip that holds the index. -/
theorem mapWalk_eq_stripImage {ss : List Strip} {base i l : Nat} {st : Strip} (hst : ss[i]? = some st)
    (hbase : base + ledSum (ss.take i) ≤ l) (hend : l < base + ledSum (ss.take i) + st.len.toNat) :
    mapWalk l base ss = BitVec.ofNat 16 (stripImage st (base + ledSum (ss.take i)) l) := by
  induction ss generalizing base i with
  | nil => cases hst
  | cons u ss ih =>
    cases i with
    | zero =>
      cases hst
      change base ≤ l at hbase
      change l < base + st.len.toNat at hend
      change mapWalk l base (st :: ss) = BitVec.ofNat 16 (stripImage st base l)
      rw [mapWalk, if_pos hend, stripImage]
      split <;> exact congrArg _ (by omega)
    | succ i =>
      rw [List.take_succ_cons, ledSum_cons, ← Nat.add_assoc] at hbase hend ⊢
      rw [mapWalk, if_neg (by omega)]
      exact ih hst hbase hend

/-- Settles O32: induction on the strips before the empty one; the walk passes each of them in both lists alike. -/
theorem emptyStripsHoldNoIndex : Obligations.EmptyStripsHoldNoIndex := by
  intro l base before after rev hbase
  induction before generalizing base with
  | nil =>
    have hempty : ¬ l < base + (0 : Idx).toNat := Nat.not_lt.2 hbase
    exact if_neg hempty
  | cons st before ih =>
    simp only [List.cons_append, mapWalk]
    split
    · rfl
    · next hpast => exact ih _ (Nat.not_lt.1 hpast)

/-! ### The map on its range -/

theorem HoldsIndex.holds_image {ss : List Strip} {i : Nat} {st : Strip} {l : Nat} (h : HoldsIndex ss i st l) :
    HoldsIndex ss i st (stripImage st (ledSum (ss.take i)) l) := by
  obtain ⟨hst, hbase, hend⟩ := h
  unfold stripImage
  split
  · exact ⟨hst, by omega, by omega⟩
  · exact ⟨hst, hbase, hend⟩

/-- A reflection of a range done twice is the identity, as is the identity. -/
theorem HoldsIndex.image_image {ss : List Strip} {i : Nat} {st : Strip} {l : Nat} (h : HoldsIndex ss i st l) :
    stripImage st (ledSum (ss.take i)) (stripImage st (ledSum (ss.take i)) l) = l := by
  obtain ⟨-, hbase, hend⟩ := h
  simp only [stripImage]
  split <;> omega

section
variable {s : State} (h : TopologyOk s)
include h

theorem TopologyOk.exists_holdsIndex {l : Idx} (hl : l < s.tTotal) : ∃ i st, HoldsIndex (strips s) i st l.toNat :=
  exists_holdsIndex_of_lt (h.total ▸ hl)

theorem TopologyOk.lt_total {i l : Nat} {st : Strip} (hi : HoldsIndex (strips s) i st l) : l < s.tTotal.toNat := by
  have hle := stripEnd_le_ledSum hi.entry
  have hend := hi.lt_end
  rw [h.total]
  omega

/-- The map is the image that the strip holding the index gives it (R126). -/
theorem TopologyOk.mapFn_toNat {l : Idx} {i : Nat} {st : Strip} (hi : HoldsIndex (strips s) i st l.toNat) :
    (mapFn s l).toNat = stripImage st (stripBase s i) l.toNat := by
  have hlt := (h.lt_total hi.holds_image).trans s.tTotal.isLt
  have hbase := hi.base_le
  have hend := hi.lt_end
  rw [mapFn_inside (h.lt_total hi), mapWalk_eq_stripImage hi.entry (by omega) (by omega), Nat.zero_add,
    BitVec.toNat_ofNat, Nat.mod_eq_of_lt hlt, stripBase]

/-- The map stays in the strip that holds the index (R126). -/
theorem TopologyOk.mapFn_holdsIndex {l : Idx} {i : Nat} {st : Strip} (hi : HoldsIndex (strips s) i st l.toNat) :
    HoldsIndex (strips s) i st (mapFn s l).toNat := by
  rw [h.mapFn_toNat hi]
  exact hi.holds_image

theorem TopologyOk.mapFn_lt {l : Idx} (hl : l < s.tTotal) : mapFn s l < s.tTotal := by
  obtain ⟨i, st, hi⟩ := h.exists_holdsIndex hl
  exact h.lt_total (h.mapFn_holdsIndex hi)

/-- On its range the map is its own inverse, whichever strips are reversed. -/
theorem TopologyOk.mapFn_mapFn {l : Idx} (hl : l < s.tTotal) : mapFn s (mapFn s l) = l := by
  obtain ⟨i, st, hi⟩ := h.exists_holdsIndex hl
  apply BitVec.eq_of_toNat_eq
  rw [h.mapFn_toNat (h.mapFn_holdsIndex hi), h.mapFn_toNat hi]
  exact hi.image_image

end

/-- Settles O28: the strip that holds the index is unique, and the map is that strip's image of the index. -/
theorem mapClosedForm : Obligations.MapClosedForm := by
  intro s l h hl
  obtain ⟨i, st, hi⟩ := h.exists_holdsIndex hl
  obtain ⟨-, hbase, hend⟩ := h.mapFn_holdsIndex hi
  have himage := h.mapFn_toNat hi
  refine ⟨i, st, hi.entry, hi.base_le, hi.lt_end, fun j u hu hb he => ?unique, fun hrev => ?forward,
    fun hrev => ?reversed, hbase, hend⟩
  case unique => exact HoldsIndex.unique ⟨hu, hb, he⟩ hi
  case forward =>
    apply BitVec.eq_of_toNat_eq
    simpa [stripImage, hrev] using himage
  case reversed =>
    have hlt := hi.lt_end
    simp only [stripImage, hrev, if_true] at himage
    change l.toNat < stripBase s i + st.len.toNat at hlt
    omega

/-- Settles O29: on its range the map is an involution, so it is injective and onto there, and `T_TOTAL` has the same
image as an index of the range. -/
theorem mapIsABijection : Obligations.MapIsABijection := by
  intro s h hpos
  have h0 : s.tTotal ≠ 0 := fun e => by simp [e] at hpos
  have hlast : s.tTotal - 1 < s.tTotal := by bv_omega
  refine ⟨fun l => h.mapFn_lt, fun l l' hl hl' he => ?injective, fun p hp => ?onto, fun l => mapFn_beyond h0,
    mapFn s (s.tTotal - 1), s.tTotal, BitVec.ne_of_lt (h.mapFn_lt hlast), ?collide⟩
  case injective => rw [← h.mapFn_mapFn hl, he, h.mapFn_mapFn hl']
  case onto => exact ⟨mapFn s p, h.mapFn_lt hp, h.mapFn_mapFn hp⟩
  case collide => rw [h.mapFn_mapFn hlast, mapFn_beyond h0 (BitVec.le_refl _)]

/-! ### The map port and indices beyond the range -/

theorem mapValid_iff (s : State) : mapValid s = true ↔ s.tSealed = true ∧ s.tTotal ≠ 0 := by
  rw [mapValid, Bool.and_eq_true, decide_eq_true_iff, Nat.pos_iff_ne_zero, ← BitVec.toNat_ne_iff_ne]
  rfl

theorem mapOut_of_valid {s : State} (h : s.tSealed = true ∧ s.tTotal ≠ 0) (l : Idx) : mapOut s l = mapFn s l :=
  if_pos ((mapValid_iff s).2 h)

theorem mapOut_of_invalid {s : State} (h : ¬ (s.tSealed = true ∧ s.tTotal ≠ 0)) (l : Idx) : mapOut s l = 0 :=
  if_neg (mt (mapValid_iff s).1 h)

/-- Settles O30: `mapValid_iff`, and the map port's two cases. -/
theorem mapPortOutputs : Obligations.MapPortOutputs := by
  refine fun s _ l => ⟨mapValid_iff s, fun hs h0 => mapOut_of_valid ⟨hs, h0⟩ l, fun h => mapOut_of_invalid ?_ l⟩
  rintro ⟨hs, h0⟩
  rcases h with h | h
  · exact Bool.noConfusion (h.symm.trans hs)
  · exact h0 h

/-- Settles O27: `mapFn_beyond`, for the command and for the map port. -/
theorem outOfRangeIndexIsClamped : Obligations.OutOfRangeIndexIsClamped := by
  intro s l h0 hl
  have hmap := mapFn_beyond h0 hl
  refine ⟨?_, fun hs => ⟨_, exec_tmapLookup hs h0 l, hmap, rfl, ?_⟩⟩
  · rw [hmap]
    bv_omega
  · rw [mapOut_of_valid ⟨hs, h0⟩, hmap]

/-- Settles O31: the walk over the two strips, evaluated, and the clamp of R127 at 15. -/
theorem reversalExample : Obligations.ReversalExample := by
  intro s hs ht
  have hwalk {l : Idx} (hl : l < 15) : mapFn s l = mapWalk l.toNat 0 [⟨10, false⟩, ⟨5, true⟩] := by
    rw [mapFn_inside (by rwa [ht]), hs]
  refine ⟨hwalk (by decide), hwalk (by decide), hwalk (by decide), ?_⟩
  have hbeyond : s.tTotal ≠ 0 ∧ s.tTotal ≤ 15 := by
    rw [ht]
    decide
  rw [mapFn_beyond hbeyond.1 hbeyond.2, ht]
  rfl

end Sys2Proof.Machine
end

section
/-! PROOFS. The protocol encoder's commands (spec/42_protocol_encoder.md rules R154 to R160), each by R215's table of
checks and its effect. -/

namespace Sys2Proof.Machine

/-! ### The checks that four of the commands share -/

/-- The commands that need an encoder between transmissions (R215). -/
def needsIdleEncoder : Instr → Bool
  | .pencReset | .pencSetbase _ | .pencSetlen _ | .pencSubmit => true
  | _ => false

/-- A command that needs an idle encoder is refused where there is none or it is busy, and does nothing else (R103). -/
theorem exec_refused_without_idleEncoder {i : Instr} {s : State} (hi : needsIdleEncoder i = true)
    (h : s.pLc = .absent ∨ s.pBusy = true) : exec i s = .next { s with err := 5 } := by
  refine exec_of_error (e := .invalidState) ?_
  cases i with
  | pencReset | pencSetbase | pencSetlen | pencSubmit => rcases h with h | h <;> simp [commandError, h]
  | _ => cases hi

/-- An idle encoder passes the checks of `PENC.RESET`, which are those of `PENC.SETBASE` and `PENC.SETLEN` too. -/
theorem commandError_pencReset_idle {s : State} (hl : s.pLc = .ready) (hb : s.pBusy = false) :
    commandError .pencReset s = none := by
  simp [commandError, hl, hb]

/-! ### The lifecycle commands -/

/-- Settles O15: the command has no operand bits and no check, and its effect goes by the lifecycle. -/
theorem pencCreateIsIdempotent : Obligations.PencCreateIsIdempotent := by
  refine ⟨onlyWord_encode .pencCreate rfl, fun s => ⟨fun h => ?_, fun h => ?_⟩⟩
  · exact if_pos h
  · exact if_neg (by simp [h])

/-- Settles O16: an absent encoder is left alone, the one check is `P_BUSY`, and the effect is `initEncoder`. -/
theorem pencDisposeReleasesTheEncoder : Obligations.PencDisposeReleasesTheEncoder := by
  refine ⟨onlyWord_encode .pencDispose rfl, fun s => ⟨fun h => if_pos h, fun h hb => ?_, fun h hb => ?_⟩⟩
  · exact exec_of_error (e := .invalidState) (by simp [commandError, h, hb])
  · rw [exec_of_no_error (by simp [commandError, hb]), commandEffect, if_neg (by simp [h])]
    rfl

/-- Settles O17: the two shared checks, then the effect `initEncoder`. -/
theorem pencResetReturnsToTheInitialState : Obligations.PencResetReturnsToTheInitialState :=
  ⟨onlyWord_encode .pencReset rfl, fun _ => ⟨fun h => exec_refused_without_idleEncoder rfl (.inl h),
    fun h => exec_refused_without_idleEncoder rfl (.inr h),
    fun hl hb => exec_of_no_error (commandError_pencReset_idle hl hb)⟩⟩

/-! ### The buffer -/

theorem encode_pencSetbase (imm24 : Addr) : encode (.pencSetbase imm24) = 0x13000000 ||| imm24.setWidth 32 := by
  have hword := encode_pencSetbase_ofNat imm24.isLt
  rwa [BitVec.ofNat_toNat, BitVec.setWidth_eq, BitVec.ofNat_toNat] at hword

theorem encode_pencSetlen (imm24 : Addr) : encode (.pencSetlen imm24) = 0x14000000 ||| imm24.setWidth 32 := by
  have hword := encode_pencSetlen_ofNat imm24.isLt
  rwa [BitVec.ofNat_toNat, BitVec.setWidth_eq, BitVec.ofNat_toNat] at hword

/-- Settles O18: every operand has its word, and the shared checks are the only ones. -/
theorem pencSetbaseAndSetlen : Obligations.PencSetbaseAndSetlen := by
  refine fun imm24 s => ⟨?base, ?len, fun h => ⟨?_, ?_⟩, fun hl hb => ?_⟩
  case base => rw [← encode_pencSetbase, decodeOfEncode]
  case len => rw [← encode_pencSetlen, decodeOfEncode]
  · exact exec_refused_without_idleEncoder rfl h
  · exact exec_refused_without_idleEncoder rfl h
  · have hchecks := commandError_pencReset_idle hl hb
    exact ⟨exec_of_no_error (i := .pencSetbase imm24) hchecks, exec_of_no_error (i := .pencSetlen imm24) hchecks⟩

/-! ### `PENC.SUBMIT` and `PENC.CLRDONE` -/

/-- Settles O19: the four checks in R215's order, then the effect `startTransmission`. -/
theorem pencSubmitStartsATransmission : Obligations.PencSubmitStartsATransmission := by
  refine ⟨onlyWord_encode .pencSubmit rfl, fun s => ⟨fun h => exec_refused_without_idleEncoder rfl (.inl h),
    fun h => exec_refused_without_idleEncoder rfl (.inr h), fun hi => ?started, fun hl hb hi hm => ?outside,
    fun hl hb hi hm => ?accepted⟩⟩
  case started =>
    have hi' : encoderInitial s = false := decide_eq_false hi
    exact exec_of_error (e := .invalidState) (by simp [commandError, hi'])
  case outside =>
    exact exec_of_error (e := .invalidArgument) (by simp [commandError, hl, hb, encoderInitial_iff.2 hi, hm])
  case accepted =>
    have hchecks : commandError .pencSubmit s = none := by
      simp [commandError, hl, hb, encoderInitial_iff.2 hi, Nat.not_lt.2 hm]
    exact exec_of_no_error hchecks

/-- The line stage of a transmission with nothing left to encode or to send ends it (R195). -/
theorem lineStage_completes {s : State} (hb : s.pBusy = true) (hx : s.pXDone = true) (hq : s.fQ = [])
    (hl : s.gLoaded = false) (hh : s.hung = false) (hp : s.params.phyHang = false) :
    (lineStage s).pDone = true ∧ (lineStage s).pBusy = false := by
  have hstage : lineStage s = lineIdle s := by simp [lineStage_eq_lineTick hh hp, lineTick, hl, hq]
  rcases lineIdle_cases s with ⟨-, -, he⟩ | ⟨-, hx', -⟩ | ⟨hb', -⟩
  · rw [hstage, he]
    exact ⟨rfl, rfl⟩
  · exact Bool.noConfusion (hx'.symm.trans hx)
  · exact Bool.noConfusion (hb'.symm.trans hb)

/-- Settles O20: the command has no operand bits and no check; the engine stage of a finishing edge has nothing to do
and its line stage comes after the command (R255). -/
theorem pencClrdoneClearsDone : Obligations.PencClrdoneClearsDone := by
  refine ⟨onlyWord_encode .pencClrdone rfl, fun _ => rfl, fun s hb hx hq hl hh hp hin => ?_⟩
  have hcmd : cmdStage (some 0x16000000) (takeInput s) = .next { takeInput s with pDone := false } :=
    cmdStage_of_decode (i := .pencClrdone) rfl _
  have hengine : engineStage { takeInput s with pDone := false } =
      .next { takeInput s with pDone := false, memReads := [] } :=
    engineStageTakesOneInvocation.1 _ (.inr (.inl hx))
  refine ⟨_, ?_, lineStage_completes (s := { takeInput s with pDone := false, memReads := [] }) hb hx hq hl hh hp⟩
  calc step s
    _ = andThen (cmdStage (some 0x16000000) (takeInput s)) (finishEdge (nextInput s)) := by
      rw [step_no_reset (by rw [hin]), hin]
      rfl
    _ = andThen (engineStage { takeInput s with pDone := false }) fun t => .next (lineStage t) := by
      rw [hcmd, hin]
      rfl
    _ = .next (lineStage { takeInput s with pDone := false, memReads := [] }) := by rw [hengine, andThen_next]

end Sys2Proof.Machine
end

section
/-! PROOFS. The encoder at work over a buffer that the host has not raced (spec/42_protocol_encoder.md rules R161 to
R168): what a step or an invocation writes and what it leaves make up what was left before it. -/

namespace Sys2Proof.Machine

/-! ### The copy step -/

/-- Settles O34: with room for a reset symbol that is due, by `copyStep_room`; without room the step waits, and with
none due it is complete. -/
theorem copyStepWritesTheResetSymbol : Obligations.CopyStepWritesTheResetSymbol := by
  intro h s
  rcases BitVec.eq_zero_or_eq_one s.pRstSent with h0 | h1
  · have hs : { s with pRstSent := 0#1 } = s := by rw [← h0]
    cases h with
    | zero => simp [copyStep, h0, completeFlag, memFullFlag, hs]
    | succ h =>
      rw [copyStep_room h0 (Nat.le_add_left ..)]
      simp [h0, hs]
  · simp [copyStep, h1, completeFlag, memFullFlag]

/-! ### The bytes step -/

/-- The symbols of the bits that a bytes sub-encoder at this position has not written (R162). -/
def bitsLeft (s : State) : List Symbol :=
  (List.range' (bitPos s) (8 * s.pLen.toNat - bitPos s)).map (sourceSym s)

theorem streamLeft_sendData {s : State} (h : s.pSt = .sendData) :
    streamLeft s = bitsLeft s ++ [resetSym s.params] := by
  simp only [streamLeft, h, bitsLeft]

theorem streamLeft_sendReset {s : State} (h : s.pSt = .sendReset) : streamLeft s = [resetSym s.params] := by
  simp only [streamLeft, h]

/-- The bus address of a byte of the buffer is `P_BASE` plus its index. -/
theorem busAddrs_eq (s : State) (j n : Nat) :
    busAddrs s j n = (List.range' j n).map fun i => s.pBase + BitVec.ofNat 24 i := by
  simp only [busAddrs, BitVec.ofNat_add, BitVec.ofNat_toNat, BitVec.setWidth_eq]

/-- A bytes step over bytes of DATA that the host has not raced: the symbols of the next bits that fit, each of their
bytes read once, and no draw (R162). -/
theorem bytesStep_unraced {h : Nat} {s : State} (hd : s.pBase.toNat + s.pLen.toNat ≤ s.params.memBytes)
    (hr : s.raced = []) : ∃ r, bytesStep h s = some r ∧
      r.out = (List.range' (bitPos s) (min (8 * s.pLen.toNat - bitPos s) h)).map (sourceSym s) ∧
      r.state.draws = s.draws ∧
      r.state.memReads = s.memReads ++ busAddrs s (bitPos s / 8)
        (if r.out.length = 0 then 0 else (bitPos s + r.out.length - 1) / 8 + 1 - bitPos s / 8) := by
  have hloop := bitsLoop_unraced hr (n := min (8 * s.pLen.toNat - bitPos s) h) (q := bitPos s)
    (g := { draws := s.draws, reads := s.memReads }) (fun k hk => by omega)
  simp only [bytesStep, hloop]
  exact ⟨_, rfl, rfl, rfl, by simp⟩

section
variable {h : Nat} {s : State} {r : Encoded} (e : bytesStep h s = some r) (hp : bitPos s ≤ 8 * s.pLen.toNat)
include e hp

/-- A bytes step completes where there is room for all the bits left (R161). -/
theorem bytesStep_complete_iff : r.complete = true ↔ 8 * s.pLen.toNat - bitPos s ≤ h := by
  obtain ⟨-, -, hc, -⟩ := bytesStep_shape e hp
  simp [hc, completeFlag]

/-- A bytes step fills the room where the bits left reach that far (R161). -/
theorem bytesStep_memFull_iff : r.memFull = true ↔ h ≤ 8 * s.pLen.toNat - bitPos s := by
  obtain ⟨-, -, -, hm, -⟩ := bytesStep_shape e hp
  simp [hm, memFullFlag]

end

/-- Settles O33: `bytesStep_unraced` for the symbols and the reads, `bytesStep_shape` for the flags, the position and
the frame. -/
theorem bytesStepWritesBits : Obligations.BytesStepWritesBits := by
  intro h s hd hr hp
  obtain ⟨r, e, hout, hdraws, hreads⟩ := bytesStep_unraced (h := h) hd hr
  obtain ⟨hlen, -, -, -, hzero, hnext, hframe⟩ := bytesStep_shape e hp
  have hc := bytesStep_complete_iff e hp
  refine ⟨r, e, hout, hc, bytesStep_memFull_iff e hp, hzero, fun hcc => ?pos, ?frame, ?reads⟩
  case pos =>
    have hpart : ¬ 8 * s.pLen.toNat - bitPos s ≤ h := by simp [← hc, hcc]
    rw [hnext hcc, hlen, Nat.min_eq_right (by omega)]
  case frame =>
    rw [← hdraws]
    exact hframe
  case reads => simp only [hreads, busAddrs_eq, List.length_eq_zero_iff]

/-! ### The invocation, case by case -/

section
variable {h : Nat} {s : State} {b : Encoded}

/-- With room the `SEND_RESET` part of an invocation writes the reset symbol and completes (R165). -/
theorem encodeReset_room (out : List Symbol) (h0 : s.pRstSent = 0) (h1 : 1 ≤ h) :
    encodeReset out h s =
      { out := out ++ [resetSym s.params], complete := true, memFull := decide (h ≤ 1)
        state := { s with pSt := .sendData } } := by
  simp only [encodeReset, copyStep_room h0 h1, if_true]

/-- Once the bits are written an invocation is that part alone (R165). -/
theorem invokeEncode_sendReset (hst : s.pSt = .sendReset) : invokeEncode h s = some (encodeReset [] h s) := by
  simp only [invokeEncode, hst]

/-- An invocation whose bytes step fills the room ends there (R165). -/
theorem invokeEncode_bits (hst : s.pSt = .sendData) (hb : bytesStep h s = some b) (hf : b.memFull = true) :
    invokeEncode h s = some
      { out := b.out, complete := false, memFull := true
        state := if b.complete then { b.state with pSt := .sendReset } else b.state } := by
  simp [invokeEncode, hst, hb, hf]

/-- An invocation whose bytes step leaves room goes on to the reset symbol and completes (R166). -/
theorem invokeEncode_bits_reset (hst : s.pSt = .sendData) (h0 : s.pRstSent = 0)
    (hp : bitPos s ≤ 8 * s.pLen.toNat) (hb : bytesStep h s = some b) (hf : b.memFull = false) :
    b.complete = true ∧
    invokeEncode h s = some
      { out := b.out ++ [resetSym s.params], complete := true, memFull := decide (h - b.out.length ≤ 1)
        state := { b.state with pSt := .sendData } } := by
  obtain ⟨hlen, -, -, -, -, -, hframe⟩ := bytesStep_shape hb hp
  have hroom : ¬ h ≤ 8 * s.pLen.toNat - bitPos s := by simp [← bytesStep_memFull_iff hb hp, hf]
  have hcc : b.complete = true := (bytesStep_complete_iff hb hp).2 (by omega)
  have h0' : b.state.pRstSent = 0 := by rw [hframe]; exact h0
  have hparams : b.state.params = s.params := by rw [hframe]
  refine ⟨hcc, ?_⟩
  simp only [invokeEncode, hst, hb, hf, hcc, if_true, Bool.false_eq_true, if_false]
  rw [encodeReset_room b.out (s := { b.state with pSt := .sendReset }) h0' (by omega), ← hparams]

end

/-! ### The invocation and the stream -/

/-- An encoder with its buffer in DATA, no byte of it raced, and its position as R50 and R173 leave it. -/
structure EncodesUnraced (s : State) : Prop where
  in_data : s.pBase.toNat + s.pLen.toNat ≤ s.params.memBytes
  unraced : s.raced = []
  rst_sent : s.pRstSent = 0
  pos_bound : bitPos s ≤ 8 * s.pLen.toNat
  reset_pos : s.pSt = .sendReset → bitPos s = 0

section
variable {s : State} (hs : EncodesUnraced s)
include hs

/-- What a bytes step writes, and the bits it leaves unless it completes, make up the bits that were left. -/
theorem EncodesUnraced.bitsLeft_bytesStep {h : Nat} {r : Encoded} (e : bytesStep h s = some r) :
    bitsLeft s = r.out ++ if r.complete then [] else bitsLeft r.state := by
  obtain ⟨r', e', hout, -⟩ := bytesStep_unraced (h := h) hs.in_data hs.unraced
  cases e.symm.trans e'
  obtain ⟨-, -, -, -, -, hnext, hframe⟩ := bytesStep_shape e hs.pos_bound
  have hc := bytesStep_complete_iff e hs.pos_bound
  cases hcc : r.complete with
  | true =>
    rw [if_pos rfl, List.append_nil, hout, Nat.min_eq_left (hc.1 hcc), bitsLeft]
  | false =>
    have hpart : ¬ 8 * s.pLen.toNat - bitPos s ≤ h := by simp [← hc, hcc]
    have hsym : sourceSym r.state = sourceSym s := by rw [hframe]; rfl
    have hbits : 8 * s.pLen.toNat - bitPos s = h + (8 * s.pLen.toNat - (bitPos s + h)) := by omega
    have hlen : r.state.pLen = s.pLen := by rw [hframe]
    rw [if_neg (by simp), hout, bitsLeft, bitsLeft, hsym, hnext hcc, hlen, Nat.min_eq_right (by omega),
      ← List.map_append, List.range'_append_1, ← hbits]

/-- What an encode invocation writes, and what it leaves unless it completes, make up what was left of the stream;
and it draws no free value (R165, R166). -/
theorem EncodesUnraced.streamLeft_invokeEncode {h : Nat} {r : Encoded} (h1 : 1 ≤ h) (e : invokeEncode h s = some r) :
    streamLeft s = r.out ++ (if r.complete then [] else streamLeft r.state) ∧ r.state.draws = s.draws := by
  cases hst : s.pSt with
  | sendReset =>
    rw [invokeEncode_sendReset hst, encodeReset_room [] hs.rst_sent h1] at e
    cases e
    exact ⟨streamLeft_sendReset hst, rfl⟩
  | sendData =>
    obtain ⟨b, hb, -, hdraws, -⟩ := bytesStep_unraced (h := h) hs.in_data hs.unraced
    obtain ⟨-, -, -, -, -, -, hframe⟩ := bytesStep_shape hb hs.pos_bound
    have hparams : b.state.params = s.params := by rw [hframe]
    rw [streamLeft_sendData hst, hs.bitsLeft_bytesStep hb]
    cases hf : b.memFull with
    | true =>
      cases e.symm.trans (invokeEncode_bits hst hb hf)
      cases hcc : b.complete with
      | true =>
        refine ⟨?_, hdraws⟩
        simp only [List.append_nil, if_true, Bool.false_eq_true, if_false]
        rw [streamLeft_sendReset rfl, ← hparams]
      | false =>
        have hst' : b.state.pSt = .sendData := by rw [hframe]; exact hst
        refine ⟨?_, hdraws⟩
        simp only [List.append_assoc, Bool.false_eq_true, if_false]
        rw [streamLeft_sendData hst', hparams]
    | false =>
      obtain ⟨hcc, hreset⟩ := invokeEncode_bits_reset hst hs.rst_sent hs.pos_bound hb hf
      cases e.symm.trans hreset
      exact ⟨by simp [hcc], hdraws⟩

/-- An encode invocation with room writes the next symbols of the stream, as many as fit, and leaves the rest (R165 to
R167). -/
theorem EncodesUnraced.invokeEncode_writes {h : Nat} (h1 : 1 ≤ h) : ∃ r, invokeEncode h s = some r ∧
    r.out = (streamLeft s).take h ∧
    (r.complete = true ↔ (streamLeft s).length ≤ h) ∧
    (r.complete = false → streamLeft r.state = (streamLeft s).drop h ∧ EncodesUnraced r.state) := by
  obtain ⟨r, e⟩ := invokeEncode_answers (h := h) hs.in_data hs.pos_bound
  obtain ⟨hlen, -, hc, -, -, -, hpos, hreset, hframe⟩ :=
    invokeEncode_shape e h1 hs.rst_sent hs.pos_bound hs.reset_pos
  obtain ⟨hsplit, -⟩ := hs.streamLeft_invokeEncode h1 e
  refine ⟨r, e, ?out, hc, fun hcc => ⟨?rest, ?kept⟩⟩
  case out => calc
    r.out = (streamLeft s).take r.out.length := List.prefix_iff_eq_take.1 ⟨_, hsplit.symm⟩
    _ = (streamLeft s).take h := by rw [hlen, ← List.take_eq_take_min]
  case rest =>
    have hpart : ¬ (streamLeft s).length ≤ h := by simp [← hc, hcc]
    rw [hsplit, hcc, if_neg Bool.false_ne_true, List.drop_left' (by omega)]
  case kept =>
    have hlen' : r.state.pLen = s.pLen := by rw [hframe]
    exact {
      in_data := by rw [hframe]; exact hs.in_data
      unraced := by rw [hframe]; exact hs.unraced
      rst_sent := by rw [hframe]; exact hs.rst_sent
      pos_bound := by rw [hlen']; exact hpos
      reset_pos := hreset }

end

/-- Settles O35: `EncodesUnraced.invokeEncode_writes` for the symbols, `invokeEncode_shape` for the flags, the initial
state and the frame. -/
theorem invocationWritesTheHeadOfTheStream : Obligations.InvocationWritesTheHeadOfTheStream := by
  intro h s h1 hd hr h0 hp hz
  have hs : EncodesUnraced s := ⟨hd, hr, h0, hp, hz⟩
  obtain ⟨r, e, hout, hc, hrest⟩ := hs.invokeEncode_writes h1
  obtain ⟨-, -, -, hm, hinit, -, -, -, hframe⟩ := invokeEncode_shape e h1 h0 hp hz
  obtain ⟨-, hdraws⟩ := hs.streamLeft_invokeEncode h1 e
  refine ⟨r, e, hout, hc, hm, hinit, fun hcc => (hrest hcc).1, ?_⟩
  rw [← hdraws]
  exact hframe

/-! ### Several invocations -/

/-- The stream of an encoder in its initial state is the whole one (R168). -/
theorem streamLeft_initial {s : State} (h : encoderInitial s = true) : streamLeft s = wholeStream s := by
  rw [streamLeft_sendData (encoderInitial_iff.1 h).1, bitsLeft, bitPos_initial h, Nat.sub_zero, wholeStream,
    List.range_eq_range']

/-- The reset symbol at least is always left. -/
theorem streamLeft_ne_nil (s : State) : streamLeft s ≠ [] := by
  cases hst : s.pSt with
  | sendData => simp [streamLeft_sendData hst]
  | sendReset => simp [streamLeft_sendReset hst]

/-- Invocations one after the other write what is left of the stream, as far as their rooms reach together, and
complete exactly where they reach its end (R168). -/
theorem EncodesUnraced.encodeAll_writes {hs : List Nat} (h1 : ∀ h ∈ hs, 1 ≤ h) {s : State} (he : EncodesUnraced s) :
    ∃ c, encodeAll hs s = some ((streamLeft s).take hs.sum, c) ∧ (c = true ↔ (streamLeft s).length ≤ hs.sum) := by
  induction hs generalizing s with
  | nil => exact ⟨false, by simp [encodeAll], by simp [streamLeft_ne_nil]⟩
  | cons h hs ih =>
    obtain ⟨r, e, hout, hc, hrest⟩ := he.invokeEncode_writes (h1 h (List.mem_cons_self ..))
    rw [List.sum_cons]
    cases hcc : r.complete with
    | true =>
      have hall := hc.1 hcc
      refine ⟨true, ?_, iff_of_true rfl (by omega)⟩
      simp only [encodeAll, e, hcc, if_true]
      rw [hout, List.take_of_length_le hall, List.take_of_length_le (by omega)]
    | false =>
      have hpart : ¬ (streamLeft s).length ≤ h := by simp [← hc, hcc]
      obtain ⟨hleft, hnext⟩ := hrest hcc
      obtain ⟨c, eAll, hcAll⟩ := ih (fun k hk => h1 k (List.mem_cons_of_mem _ hk)) hnext
      rw [hleft] at eAll hcAll
      refine ⟨c, ?_, by rw [hcAll, List.length_drop]; omega⟩
      simp only [encodeAll, e, hcc, eAll, Bool.false_eq_true, if_false]
      rw [hout, List.take_add]

/-- Settles O36: `EncodesUnraced.encodeAll_writes` from the initial state, where the whole stream is left. -/
theorem chunkingDoesNotChangeTheStream : Obligations.ChunkingDoesNotChangeTheStream := by
  intro hs s h1 hi hr hd
  obtain ⟨-, -, -, h0⟩ := encoderInitial_iff.1 hi
  have hpos := bitPos_initial hi
  obtain ⟨c, e, hc⟩ := EncodesUnraced.encodeAll_writes h1 ⟨hd, hr, h0, by omega, fun _ => hpos⟩
  rw [streamLeft_initial hi] at e hc
  refine ⟨_, c, e, fun hcc => List.take_of_length_le (hc.1 hcc), fun _ => rfl, hc, ?_⟩
  rw [← streamLeft_initial hi, streamLeft_length_initial hi]

end Sys2Proof.Machine
end

section
/-! PROOFS. The encoder over an edge: how full the engine stage leaves the FIFO (spec/42_protocol_encoder.md rules R171,
R190 and R203), and how many symbols a transmission has written when it ends (R169). -/

namespace Sys2Proof.Machine

/-! ### The FIFO after the engine stage -/

/-- In a transmission the engine stage leaves room in the FIFO only where the encoder has completed (R171, R203). -/
theorem Inv.engineStage_fills {s t : State} (h : Inv s) (hb : s.pBusy = true) (he : engineStage s = .next t)
    (hx : t.pXDone = false) : t.fQ.length = s.params.symCap := by
  rcases engineStage_cases s with ⟨hno, hn⟩ | ⟨-, hx', hroom, ⟨r, hr, hn⟩ | ⟨-, hf⟩⟩
  · rw [hn] at he
    cases he
    have hfull : ¬ s.fQ.length < s.params.symCap := fun hroom => hno ⟨hb, hx, hroom⟩
    exact Nat.le_antisymm h.fifo_fits (Nat.le_of_not_lt hfull)
  · rw [hn] at he
    cases he
    obtain ⟨hout, hcomplete, -⟩ := h.engine_writes hb hroom hr
    rw [acceptEncoded_pXDone hr hx'] at hx
    have hpart : ¬ (streamLeft s).length ≤ s.params.symCap - s.fQ.length := by simp [← hcomplete, hx]
    rw [acceptEncoded_eq hr, List.length_append, hout]
    omega
  · rw [hf] at he
    cases he

/-- Settles O37: the invariant, which the engine stage keeps, bounds the FIFO and its symbols; `Inv.engineStage_fills`
and the frame give the rest. -/
theorem engineFillsTheFifo : Obligations.EngineFillsTheFifo := by
  intro s t h hb he
  obtain ⟨hframe, out, hq⟩ := engineStage_frame he
  have hparams : t.params = s.params := by rw [hframe]
  have ht := h.after_engineStage he
  exact ⟨hparams ▸ ht.fifo_fits, h.engineStage_fills hb he, ⟨out, hq.symm⟩, hparams ▸ ht.fifo_symbols⟩

/-! ### The end of a transmission -/

theorem hostWrites_pBusy (ws : List HostWrite) (s : State) : (hostWrites ws s).pBusy = s.pBusy := by
  rw [hostWrites_eq]

theorem hostWrites_pLen (ws : List HostWrite) (s : State) : (hostWrites ws s).pLen = s.pLen := by
  rw [hostWrites_eq]

/-- During a transmission no command ends it or changes its buffer's length (R215). -/
theorem cmdStage_busy {cmd : Option Word} {s t : State} (hb : s.pBusy = true)
    (h : cmdStage cmd s = .next t) : t.pBusy = true ∧ t.pLen = s.pLen := by
  rcases cmdStage_cases h with ⟨-, rfl⟩ | ⟨w, e, -, -, rfl⟩ | ⟨w, i, -, -, hn, rfl⟩
  · exact ⟨hb, rfl⟩
  · exact ⟨hb, rfl⟩
  · cases i with
    | pencSetlen | pencSubmit => simp [commandError, hb] at hn
    | pencCreate | pencDispose =>
      simp only [commandEffect]
      split <;> exact ⟨hb, rfl⟩
    | _ => exact ⟨hb, rfl⟩

/-- Driving a level does not end a transmission. -/
theorem lineDrive_pBusy (s : State) : (lineDrive s).pBusy = s.pBusy := by
  rw [lineDrive_eq]

section
variable {s : State} (hb : s.pBusy = true) (hfed : s.fQ = [] → s.pXDone = true)
include hb hfed

/-- R193's stage ends a transmission whose line has not run dry only by completing it (R195). -/
theorem lineTick_ends (he : (lineTick s).pBusy = false) : s.pXDone = true ∧ (lineTick s).pDone = true := by
  rcases lineTick_cases s with ⟨-, hd⟩ | ⟨-, x, rest, -, hd⟩ | ⟨-, hq, hi⟩
  · rw [hd, lineDrive_pBusy, hb] at he
    cases he
  · rw [hd, lineDrive_pBusy, lineLoad, hb] at he
    cases he
  · have hx := hfed hq
    rcases lineIdle_cases s with ⟨-, -, hc⟩ | ⟨-, hx', -⟩ | ⟨hb', -⟩
    · rw [hi, hc]
      exact ⟨hx, rfl⟩
    · exact Bool.noConfusion (hx'.symm.trans hx)
    · exact Bool.noConfusion (hb'.symm.trans hb)

/-- The freeze of R198 ends no transmission, so the line stage ends one only by completing it. -/
theorem lineStage_ends (he : (lineStage s).pBusy = false) : s.pXDone = true ∧ (lineStage s).pDone = true := by
  rcases lineStage_cases s with ⟨-, hl⟩ | ⟨-, -, -, hl | hl⟩ | ⟨-, -, hl⟩ <;> rw [hl] at he ⊢
  · exact Bool.noConfusion (he.symm.trans hb)
  · exact Bool.noConfusion (he.symm.trans hb)
  · exact lineTick_ends (s := { s with draws := s.draws + 1 }) hb hfed he
  · exact lineTick_ends hb hfed he

end

/-- In a safe state whose encoder has completed, `P_SYMCNT` counts the whole stream (R169). -/
theorem Inv.symcnt_finished {s : State} (h : Inv s) (hb : s.pBusy = true) (hx : s.pXDone = true) :
    s.pSymCnt.toNat = 8 * s.pLen.toNat + 1 := by
  simpa [pendingStream_finished hx] using h.symcnt hb

/-- Settles O39: up to the line stage the transmission stays in flight with its length, and the line stage that ends it
finds the encoder completed, where the invariant gives the count. -/
theorem finishedTransmissionCounts8nPlus1 : Obligations.FinishedTransmissionCounts8nPlus1 := by
  intro s t h hb hr hs ht
  rcases step_cases hs with ⟨hr', -⟩ | ⟨-, u, v, hu, hv, rfl⟩
  · exact Bool.noConfusion (hr.symm.trans hr')
  have hat : Inv (hostWrites (nextInput s).writesAt u) :=
    ((h.after_takeInput.after_hostWrites _).after_cmdStage hu).after_hostWrites _
  obtain ⟨hub, hul⟩ := cmdStage_busy ((hostWrites_pBusy _ (takeInput s)).trans hb) hu
  have hvb : v.pBusy = true := by
    rw [(engineStage_frame hv).1]
    exact (hostWrites_pBusy ..).trans hub
  have hvl : v.pLen = s.pLen := by
    rw [(engineStage_frame hv).1]
    exact (hostWrites_pLen ..).trans (hul.trans (hostWrites_pLen ..))
  obtain ⟨hx, hdone⟩ := lineStage_ends hvb (hat.engineStage_feeds hv hvb) ht
  have hcount : (lineStage v).pSymCnt = v.pSymCnt := by rw [(lineStage_frame v).1]
  refine ⟨hdone, ?_⟩
  rw [hcount, (hat.after_engineStage hv).symcnt_finished hvb hx, hvl]

end Sys2Proof.Machine
end

section
/-! PROOFS. The line with nothing to send, the underrun that no safe state has, and the freeze
(spec/43_pulse_generator.md rules R195 to R198). -/

namespace Sys2Proof.Machine

/-! ### Nothing to send -/

/-- With PGEN free and the FIFO empty an unfrozen line stage, without `PHY_HANG`, has nothing to send (R193). -/
theorem lineStage_eq_lineIdle {s : State} (hl : s.gLoaded = false) (hq : s.fQ = []) (hh : s.hung = false)
    (hp : s.params.phyHang = false) : lineStage s = lineIdle s := by
  simp [lineStage_eq_lineTick hh hp, lineTick, hl, hq]

/-- Settles O42: the three cases of `lineIdle`. -/
theorem lineWithNothingToSend : Obligations.LineWithNothingToSend := by
  intro s hl hq hh hp
  rw [lineStage_eq_lineIdle hl hq hh hp]
  rcases lineIdle_cases s with ⟨hb, hx, he⟩ | ⟨hb, hx, he⟩ | ⟨hb, he⟩
  · exact ⟨fun _ _ => he, fun _ hx' => Bool.noConfusion (hx.symm.trans hx'),
      fun hb' => Bool.noConfusion (hb.symm.trans hb')⟩
  · exact ⟨fun _ hx' => Bool.noConfusion (hx.symm.trans hx'), fun _ _ => he,
      fun hb' => Bool.noConfusion (hb.symm.trans hb')⟩
  · exact ⟨fun hb' => Bool.noConfusion (hb.symm.trans hb'), fun hb' => Bool.noConfusion (hb.symm.trans hb'),
      fun _ => he⟩

/-! ### No underrun -/

/-- Settles O43: the engine stage feeds the line, so the line stage keeps the invariant, which leaves no room for the
code 6 that the line stage could write. -/
theorem underrunIsUnreachable : Obligations.UnderrunIsUnreachable := by
  intro s t h he
  have hfed := h.engineStage_feeds he
  refine ⟨fun ⟨hb, hx, hq, _⟩ => Bool.noConfusion (hx.symm.trans (hfed hb hq)), ?_⟩
  have herr : t.err = s.err := by rw [(engineStage_frame he).1]
  have hafter : Inv (lineStage t) := (h.after_engineStage he).after_lineStage hfed
  obtain ⟨-, -, hkept | hsix⟩ := lineStage_frame t
  · exact hkept.trans herr
  · have hle := hafter.err_code
    rw [hsix] at hle
    exact absurd hle (by decide)

/-! ### What a command leaves to the line and the edge -/

/-- No command writes the FIFO, PGEN, DATA or what is the model's own (R49). -/
theorem commandEffect_frame (i : Instr) (s : State) :
    commandEffect i s = { commandEffect i s with
      fQ := s.fQ, gLoaded := s.gLoaded, gSym := s.gSym, gHalf := s.gHalf, gRem := s.gRem, gDout := s.gDout
      build := s.build, mem := s.mem, memReads := s.memReads, inbox := s.inbox, raced := s.raced, hung := s.hung
      draws := s.draws } := by
  cases i with
  | pencCreate | pencDispose =>
    simp only [commandEffect]
    split <;> rfl
  | _ => rfl

theorem cmdStage_frame {cmd : Option Word} {s t : State} (h : cmdStage cmd s = .next t) :
    t = { t with
      fQ := s.fQ, gLoaded := s.gLoaded, gSym := s.gSym, gHalf := s.gHalf, gRem := s.gRem, gDout := s.gDout
      build := s.build, mem := s.mem, memReads := s.memReads, inbox := s.inbox, raced := s.raced, hung := s.hung
      draws := s.draws } := by
  rcases cmdStage_cases h with ⟨-, rfl⟩ | ⟨w, e, -, -, rfl⟩ | ⟨w, i, -, -, -, rfl⟩
  · rfl
  · rfl
  · exact commandEffect_frame i s

/-! ### The freeze -/

/-- What reaches the line stage of an edge without `rst` has the freeze, `dout` and the parameters as before the edge:
only the line stage writes the first two (R49). -/
theorem frame_before_lineStage {s u v : State}
    (hu : cmdStage (acceptedWord (nextInput s)) (hostWrites (nextInput s).writesBefore (takeInput s)) = .next u)
    (hv : engineStage (hostWrites (nextInput s).writesAt u) = .next v) :
    v.hung = s.hung ∧ v.gDout = s.gDout ∧ v.build = s.build := by
  rw [(engineStage_frame hv).1, hostWrites_eq, cmdStage_frame hu, hostWrites_eq]
  exact ⟨rfl, rfl, rfl⟩

/-- Without `PHY_HANG` an unfrozen line stays unfrozen (R198). -/
theorem lineStage_unfrozen {s : State} (hh : s.hung = false) (hp : s.params.phyHang = false) :
    (lineStage s).hung = false := by
  rw [lineStage_eq_lineTick hh hp, (lineTick_frame s).1]
  exact hh

/-- Settles O44: the stages before the line stage leave the freeze and `dout` alone, and a frozen line stage changes
nothing; the invariant gives a frozen state its `P_BUSY` and `P_DONE`. -/
theorem hungLineWaitsForReset : Obligations.HungLineWaitsForReset := by
  refine ⟨fun s t hp hh hs => ?unfrozen, fun s t h hh hr hs => ?frozen, fun s hr => ⟨_, step_reset hr, rfl, rfl⟩⟩
  case unfrozen =>
    rcases step_cases hs with ⟨-, rfl⟩ | ⟨-, u, v, hu, hv, rfl⟩
    · rfl
    · obtain ⟨hhung, -, hbuild⟩ := frame_before_lineStage hu hv
      exact lineStage_unfrozen (hhung.trans hh) (by rw [State.params, hbuild]; exact hp)
  case frozen =>
    have ht : Inv t := stepKeepsInv s t h hs
    rcases step_cases hs with ⟨hr', -⟩ | ⟨-, u, v, hu, hv, rfl⟩
    · exact Bool.noConfusion (hr.symm.trans hr')
    obtain ⟨hhung, hdout, -⟩ := frame_before_lineStage hu hv
    have hv' : v.hung = true := hhung.trans hh
    have hstage : lineStage v = v := by simp [lineStage, hv']
    rw [hstage] at ht ⊢
    have hb : v.pBusy = true := (ht.hung_busy hv').2
    refine ⟨hv', hb, ?_, hdout⟩
    cases hd : v.pDone with
    | false => rfl
    | true => exact Bool.noConfusion ((ht.done_idle hd).symm.trans hb)

end Sys2Proof.Machine
end

section
/-! PROOFS. The levels of a transmission that nothing disturbs (spec/43_pulse_generator.md rules R194, R195 and R199):
no stage before the line stage changes the levels still to come, the line stage takes the first of them, and from
`PENC.SUBMIT` on they are the waveform of the buffer. -/

namespace Sys2Proof.Machine

/-! ### A transmission that nothing disturbs -/

/-- A safe state with a transmission in flight, no byte of it raced, on a line that nothing can freeze. -/
structure Transmits (s : State) : Prop where
  inv : Inv s
  busy : s.pBusy = true
  no_hang : s.params.phyHang = false
  unraced : s.raced = []

/-- What stays as it is during a transmission: the buffer's range and the parameters, and within an edge the input
still to come. -/
def setting (s : State) : Addr × Addr × Build × List EdgeInput := (s.pBase, s.pLen, s.build, s.inbox)

theorem setting_eq_iff {s t : State} :
    setting t = setting s ↔ t.pBase = s.pBase ∧ t.pLen = s.pLen ∧ t.build = s.build ∧ t.inbox = s.inbox := by
  simp only [setting, Prod.mk.injEq]

/-- `t` is in the transmission of `s`, with the same levels still to come. -/
structure GoesOn (s t : State) : Prop where
  transmits : Transmits t
  future : lineFuture t = lineFuture s
  same_setting : setting t = setting s

theorem GoesOn.trans {s t u : State} (h : GoesOn s t) (h' : GoesOn t u) : GoesOn s u :=
  ⟨h'.transmits, h'.future.trans h.future, h'.same_setting.trans h.same_setting⟩

theorem Transmits.after_takeInput {s : State} (h : Transmits s) : Transmits (takeInput s) :=
  ⟨Inv.after_takeInput h.inv, h.busy, h.no_hang, h.unraced⟩

theorem inRange_congr {s t : State} (h : setting t = setting s) : inRange t = inRange s := by
  obtain ⟨hbase, hlen, -, -⟩ := setting_eq_iff.1 h
  funext a
  rw [inRange, inRange, hbase, hlen]

/-! ### The levels over the stages before the line stage -/

theorem Inv.encodesUnraced {s : State} (h : Inv s) (hb : s.pBusy = true) (hr : s.raced = []) : EncodesUnraced s where
  in_data := h.in_data hb
  unraced := hr
  rst_sent := h.rst_sent
  pos_bound := h.pos_bound hb
  reset_pos := h.reset_pos

/-- What is left of the stream depends on DATA only through the symbols of the buffer's bits. -/
theorem streamLeft_congr {s t : State} (hst : t.pSt = s.pSt) (hpos : bitPos t = bitPos s) (hlen : t.pLen = s.pLen)
    (hp : t.params = s.params) (hsym : ∀ q < 8 * s.pLen.toNat, sourceSym t q = sourceSym s q) :
    streamLeft t = streamLeft s := by
  cases hs : s.pSt with
  | sendReset => rw [streamLeft_sendReset hs, streamLeft_sendReset (hst.trans hs), hp]
  | sendData =>
    have hbits : bitsLeft t = bitsLeft s := by
      rw [bitsLeft, bitsLeft, hpos, hlen]
      refine List.map_congr_left fun q hq => hsym q ?_
      have hrange := List.mem_range'_1.1 hq
      omega
    rw [streamLeft_sendData hs, streamLeft_sendData (hst.trans hs), hbits, hp]

/-- Host writes outside the range leave what the transmission still has to send (R70, R250). -/
theorem lineFuture_hostWrites {ws : List HostWrite} {s : State} (h : ∀ w ∈ ws, inRange s w.addr.toNat = false) :
    lineFuture (hostWrites ws s) = lineFuture s := by
  have hbyte : ∀ q < 8 * s.pLen.toNat,
      dataByte (hostWrites ws s) (s.pBase.toNat + q / 8) = dataByte s (s.pBase.toNat + q / 8) := fun q hq => by
    refine dataByte_congr (hostWrites_read_other fun w hw heq => ?_)
    have hin : inRange s w.addr.toNat = true := decide_eq_true (by omega)
    exact Bool.noConfusion (hin.symm.trans (h w hw))
  have hleft : streamLeft (hostWrites ws s) = streamLeft s := by
    rw [hostWrites_eq] at hbyte ⊢
    exact streamLeft_congr rfl rfl rfl rfl fun q hq => congrArg (bitSym s.params · q) (hbyte q hq)
  have hpending : pendingStream (hostWrites ws s) = pendingStream s := by
    rw [pendingStream, pendingStream, hleft, hostWrites_eq]
  rw [lineFuture, lineFuture, hpending, hostWrites_eq]
  rfl

/-- In a safe state no command changes anything of a transmission in flight (R253). -/
theorem Inv.commandEffect_busy {i : Instr} {s : State} (h : Inv s) (hb : s.pBusy = true)
    (hc : commandError i s = none) : commandEffect i s = { commandEffect i s with
      pSt := s.pSt, pByteIdx := s.pByteIdx, pBitIdx := s.pBitIdx, pRstSent := s.pRstSent, pBase := s.pBase
      pLen := s.pLen, pBusy := s.pBusy, pXDone := s.pXDone } := by
  have hl : s.pLc ≠ .absent := fun ha => Bool.noConfusion ((h.absent_idle ha).symm.trans hb)
  cases i with
  | pencDispose | pencReset | pencSetbase | pencSetlen | pencSubmit => simp [commandError, hb, hl] at hc
  | pencCreate =>
    have hready : s.pLc = .ready := by
      cases hlc : s.pLc with
      | absent => exact absurd hlc hl
      | ready => rfl
    rw [show commandEffect .pencCreate s = s from if_pos hready]
  | _ => rfl

/-- A command during a transmission leaves what it has still to send, and its setting (R253). -/
theorem Inv.cmdStage_busy {cmd : Option Word} {s t : State} (h : Inv s) (hb : s.pBusy = true)
    (hc : cmdStage cmd s = .next t) : lineFuture t = lineFuture s ∧ setting t = setting s ∧ t.pBusy = s.pBusy := by
  rcases cmdStage_cases hc with ⟨-, rfl⟩ | ⟨w, e, -, -, rfl⟩ | ⟨w, i, -, -, hn, rfl⟩
  · exact ⟨rfl, rfl, rfl⟩
  · exact ⟨rfl, rfl, rfl⟩
  · rw [commandEffect_frame, h.commandEffect_busy hb hn]
    exact ⟨rfl, rfl, rfl⟩

/-- What an encode invocation puts into the FIFO it takes from the symbols pending, in order (R165, R171). -/
theorem Inv.queue_acceptEncoded {s : State} {r : Encoded} (h : Inv s) (hb : s.pBusy = true) (hraced : s.raced = [])
    (hx : s.pXDone = false) (hroom : s.fQ.length < s.params.symCap)
    (e : invokeEncode (s.params.symCap - s.fQ.length) { s with memReads := [] } = some r) :
    (acceptEncoded r).fQ ++ pendingStream (acceptEncoded r) = s.fQ ++ pendingStream s := by
  have hs : EncodesUnraced { s with memReads := [] } := { h.encodesUnraced hb hraced with }
  obtain ⟨hsplit, -⟩ := hs.streamLeft_invokeEncode (Nat.sub_pos_of_lt hroom) e
  have hfifo : (acceptEncoded r).fQ = s.fQ ++ r.out := by rw [acceptEncoded_eq e]
  have hbusy : (acceptEncoded r).pBusy = true := by
    rw [acceptEncoded_eq e, invokeEncode_frame e]
    exact hb
  have hxdone := acceptEncoded_pXDone e hx
  have hpending : pendingStream (acceptEncoded r) = if r.complete then [] else streamLeft r.state := by
    cases hc : r.complete with
    | true => rw [pendingStream_finished (hxdone.trans hc), if_pos rfl]
    | false =>
      rw [pendingStream_unfinished hbusy (hxdone.trans hc), if_neg Bool.false_ne_true]
      rfl
  rw [hfifo, hpending, List.append_assoc, ← hsplit, pendingStream_unfinished hb hx]
  rfl

section
variable {s t : State} (h : Transmits s)
include h

theorem Transmits.goesOn_hostWrites {ws : List HostWrite} (hw : ∀ w ∈ ws, inRange s w.addr.toNat = false) :
    GoesOn s (hostWrites ws s) where
  transmits := {
    inv := h.inv.after_hostWrites ws
    busy := (hostWrites_pBusy ws s).trans h.busy
    no_hang := by rw [hostWrites_eq]; exact h.no_hang
    unraced := (hostWrites_raced_outside hw).trans h.unraced }
  future := lineFuture_hostWrites hw
  same_setting := by rw [hostWrites_eq]; rfl

theorem Transmits.goesOn_cmdStage {cmd : Option Word} (hc : cmdStage cmd s = .next t) : GoesOn s t := by
  obtain ⟨hfuture, hset, hb⟩ := h.inv.cmdStage_busy h.busy hc
  refine ⟨⟨h.inv.after_cmdStage hc, hb.trans h.busy, ?_, ?_⟩, hfuture, hset⟩
  · rw [State.params, (setting_eq_iff.1 hset).2.2.1]
    exact h.no_hang
  · exact (cmdStage_mem_raced hc).2.trans h.unraced

theorem Transmits.goesOn_engineStage (he : engineStage s = .next t) : GoesOn s t := by
  obtain ⟨hframe, -⟩ := engineStage_frame he
  have hheld : heldLevels t = heldLevels s := by rw [hframe]; rfl
  have hqueue : t.fQ ++ pendingStream t = s.fQ ++ pendingStream s := by
    rcases engineStage_cases s with ⟨-, hn⟩ | ⟨-, hx, hroom, ⟨r, hr, hn⟩ | ⟨-, hf⟩⟩
    · cases hn.symm.trans he
      rfl
    · cases hn.symm.trans he
      exact h.inv.queue_acceptEncoded h.busy h.unraced hx hroom hr
    · cases hf.symm.trans he
  have hfuture : lineFuture t = lineFuture s := by rw [lineFuture, lineFuture, hheld, hqueue]
  refine ⟨⟨h.inv.after_engineStage he, ?_, ?_, ?_⟩, hfuture, ?_⟩ <;> rw [hframe]
  · exact h.busy
  · exact h.no_hang
  · exact h.unraced
  · rfl

end

/-! ### The line stage takes the next level -/

theorem Inv.lineRuns {s : State} (h : Inv s) (hp : s.params.phyHang = false) : LineRuns s.fQ s where
  unfrozen := by
    by_contra hh
    exact Bool.noConfusion (hp.symm.trans (h.hung_busy (by simpa using hh)).1)
  no_hang := hp
  fifo := rfl
  held hl := ⟨h.held_rem hl, (isPencSymbol_durations s.params_legal (h.held_symbol hl)).2⟩

/-- A tick of a held symbol takes the first of the levels still to come (R194). -/
theorem LineRuns.lineFuture_lineDrive {waiting : List Symbol} {s : State} (h : LineRuns waiting s)
    (hl : s.gLoaded = true) : lineFuture s = (lineDrive s).gDout :: lineFuture (lineDrive s) := by
  have hqueue : (lineDrive s).fQ ++ pendingStream (lineDrive s) = s.fQ ++ pendingStream s := by
    rw [lineDrive_eq]
    rfl
  rw [lineFuture, lineFuture, hqueue, h.heldLevels_lineDrive hl, List.cons_append]

/-- The symbol that a free PGEN takes is the first of those still to be sent (R193). -/
theorem lineFuture_lineLoad {x : Symbol} {rest : List Symbol} {s : State} (hl : s.gLoaded = false)
    (hq : s.fQ = x :: rest) : lineFuture (lineLoad x rest s) = lineFuture s := by
  have hfree : heldLevels s = [] := by simp [heldLevels, hl]
  rw [lineFuture, lineFuture, heldLevels_lineLoad, hfree, hq, List.cons_append, List.flatMap_cons, List.nil_append]
  rfl

/-- An edge that takes the transmission from `s` to `t`: it sends the next of the levels to come, or, where none is
left, ends the transmission (R195). -/
structure SendsNext (s t : State) : Prop where
  unraced : t.raced = []
  same_setting : setting t = setting s
  level : (lineFuture s = [] ∧ t.pBusy = false ∧ t.pDone = true ∧ t.gDout = s.params.idleLevel) ∨
    (t.pBusy = true ∧ lineFuture s = t.gDout :: lineFuture t)

/-- What follows on a part of the edge that sends nothing. -/
theorem GoesOn.sendsNext {s t u : State} (h : GoesOn s t) (h' : SendsNext t u) : SendsNext s u := by
  obtain ⟨-, -, hbuild, -⟩ := setting_eq_iff.1 h.same_setting
  refine ⟨h'.unraced, h'.same_setting.trans h.same_setting, ?_⟩
  rw [← h.future, State.params, ← hbuild]
  exact h'.level

section
variable {s : State} (h : Transmits s)
include h

/-- A tick of a held symbol sends the next level. -/
theorem Transmits.sendsNext_lineDrive (hl : s.gLoaded = true) : SendsNext s (lineDrive s) where
  unraced := (lineDrive_raced s).trans h.unraced
  same_setting := by rw [lineDrive_eq]; rfl
  level := .inr ⟨(lineDrive_pBusy s).trans h.busy, (h.inv.lineRuns h.no_hang).lineFuture_lineDrive hl⟩

/-- Loading the next symbol sends nothing yet. -/
theorem Transmits.goesOn_lineLoad {x : Symbol} {rest : List Symbol} (hl : s.gLoaded = false) (hq : s.fQ = x :: rest) :
    GoesOn s (lineLoad x rest s) :=
  ⟨⟨h.inv.after_lineLoad hq, h.busy, h.no_hang, h.unraced⟩, lineFuture_lineLoad hl hq, rfl⟩

/-- With nothing left to encode or to send the transmission ends (R195). -/
theorem Transmits.sendsNext_lineIdle (hl : s.gLoaded = false) (hq : s.fQ = []) (hx : s.pXDone = true) :
    SendsNext s (lineIdle s) := by
  have hfuture : lineFuture s = [] := by simp [lineFuture, heldLevels, hl, hq, pendingStream_finished hx]
  rcases lineIdle_cases s with ⟨-, -, he⟩ | ⟨-, hx', -⟩ | ⟨hb', -⟩
  · rw [he]
    exact ⟨rfl, rfl, .inl ⟨hfuture, rfl, rfl, rfl⟩⟩
  · exact Bool.noConfusion (hx'.symm.trans hx)
  · exact Bool.noConfusion (hb'.symm.trans h.busy)

theorem Transmits.sendsNext_lineStage (hfed : s.fQ = [] → s.pXDone = true) : SendsNext s (lineStage s) := by
  rw [lineStage_eq_lineTick (h.inv.lineRuns h.no_hang).unfrozen h.no_hang]
  rcases lineTick_cases s with ⟨hl, he⟩ | ⟨hl, x, rest, hq, he⟩ | ⟨hl, hq, he⟩ <;> rw [he]
  · exact h.sendsNext_lineDrive hl
  · have hload := h.goesOn_lineLoad hl hq
    exact hload.sendsNext (hload.transmits.sendsNext_lineDrive rfl)
  · exact h.sendsNext_lineIdle hl hq (hfed hq)

/-! ### The edge -/

/-- The part of an edge after its command stage sends the next level. -/
theorem Transmits.finishEdge_sendsNext {i : EdgeInput} (hw : ∀ w ∈ i.writesAt, inRange s w.addr.toNat = false) :
    ∃ t, finishEdge i s = .next t ∧ SendsNext s t := by
  have hwrites := h.goesOn_hostWrites hw
  obtain ⟨v, hv⟩ := hwrites.transmits.inv.engineStage_answers
  have hengine := hwrites.transmits.goesOn_engineStage hv
  have hfed := hwrites.transmits.inv.engineStage_feeds hv hengine.transmits.busy
  refine ⟨lineStage v, ?_, hwrites.sendsNext (hengine.sendsNext (hengine.transmits.sendsNext_lineStage hfed))⟩
  rw [finishEdge, hv, andThen_next]

/-- An edge of a transmission whose host keeps to R250 sends the next level, whatever the command. -/
theorem Transmits.step_sendsNext (hin : quietInput s (nextInput s)) :
    ∃ t, step s = .next t ∧ SendsNext (takeInput s) t := by
  obtain ⟨hr, hquiet⟩ := hin
  have hbefore := h.after_takeInput.goesOn_hostWrites (ws := (nextInput s).writesBefore)
    fun w hw => hquiet w (List.mem_append_left _ hw)
  obtain ⟨u, hu⟩ := cmdStage_answers (acceptedWord (nextInput s))
    (hostWrites (nextInput s).writesBefore (takeInput s))
  have hcmd := hbefore.trans (hbefore.transmits.goesOn_cmdStage hu)
  obtain ⟨t, ht, hsends⟩ := hcmd.transmits.finishEdge_sendsNext (i := nextInput s) fun w hw => by
    rw [inRange_congr hcmd.same_setting]
    exact hquiet w (List.mem_append_right _ hw)
  refine ⟨t, ?_, hcmd.sendsNext hsends⟩
  rw [step_no_reset hr, hu, andThen_next, ht]

end

/-- Settles O45: no stage before the line stage changes the levels still to come, and the line stage takes the first of
them or, where none is left, completes. -/
theorem stepDrivesTheNextLevel : Obligations.StepDrivesTheNextLevel := by
  intro s h hb hp hr hin
  obtain ⟨t, ht, hraced, hset, hlevel⟩ := Transmits.step_sendsNext ⟨h, hb, hp, hr⟩ hin
  obtain ⟨hbase, hlen, -, -⟩ := setting_eq_iff.1 hset
  exact ⟨t, ht, hraced, hbase, hlen, hlevel⟩

/-! ### From edge to edge -/

/-- A transmission whose every input to come keeps to R250. -/
structure Undisturbed (s : State) : Prop where
  transmits : Transmits s
  quiet : ∀ i ∈ s.inbox, quietInput s i

/-- Where the input has ended nothing is presented, which keeps to R250. -/
theorem Undisturbed.quiet_nextInput {s : State} (h : Undisturbed s) : quietInput s (nextInput s) := by
  rw [nextInput]
  cases hin : s.inbox with
  | nil => exact ⟨rfl, nofun⟩
  | cons i rest => exact h.quiet i (by simp [hin])

/-- An edge that goes on with a transmission leaves it undisturbed if its remaining inputs keep to R250. -/
theorem SendsNext.undisturbed {s t : State} (h : SendsNext s t) (hp : s.params.phyHang = false)
    (hq : ∀ i ∈ s.inbox, quietInput s i) (ht : Inv t) (hb : t.pBusy = true) : Undisturbed t := by
  obtain ⟨-, -, hbuild, hinbox⟩ := setting_eq_iff.1 h.same_setting
  refine ⟨⟨ht, hb, by rw [State.params, hbuild]; exact hp, h.unraced⟩, fun i hi => ?_⟩
  rw [quietInput, inRange_congr h.same_setting]
  exact hq i (hinbox ▸ hi)

/-- The run from `s` sends these levels on `dout`, one at each edge with `P_BUSY` = 1, and the edge after the last ends
the transmission (R199). -/
def RunSends (levels : List Bool) (s : State) : Prop :=
  (∀ k l, levels[k]? = some l → ∃ t, Sys2Proof.core.run (k + 1) s = .next t ∧ t.gDout = l ∧ t.pBusy = true) ∧
  ∃ t, Sys2Proof.core.run (levels.length + 1) s = .next t ∧
    t.gDout = s.params.idleLevel ∧ t.pBusy = false ∧ t.pDone = true

theorem runSends_nil {s t : State} (h : step s = .next t) (hd : t.gDout = s.params.idleLevel) (hb : t.pBusy = false)
    (hdone : t.pDone = true) : RunSends [] s :=
  ⟨nofun, t, by rw [List.length_nil, run_succ h, run_zero], hd, hb, hdone⟩

theorem runSends_cons {levels : List Bool} {s t : State} (h : step s = .next t) (hbuild : t.build = s.build)
    (hb : t.pBusy = true) (ht : RunSends levels t) : RunSends (t.gDout :: levels) s := by
  obtain ⟨hlevels, u, hu, hd, hend⟩ := ht
  refine ⟨fun k l hk => ?_, u, by rw [List.length_cons, run_succ h, hu], ?_, hend⟩
  · cases k with
    | zero => exact ⟨t, by rw [run_succ h, run_zero], by simpa using hk, hb⟩
    | succ k =>
      rw [run_succ h]
      exact hlevels k l hk
  · rw [State.params, ← hbuild]
    exact hd

/-- A step that sends the next of the levels to come in `u` starts a run that sends them all, if the run after it sends
the others. -/
theorem SendsNext.runSends {s t u : State} (h : SendsNext u t) (hs : step s = .next t) (hbuild : u.build = s.build)
    (ht : t.pBusy = true → lineFuture u = t.gDout :: lineFuture t → RunSends (lineFuture t) t) :
    RunSends (lineFuture u) s := by
  obtain ⟨-, -, hkept, -⟩ := setting_eq_iff.1 h.same_setting
  rcases h.level with ⟨hnone, hb, hdone, hd⟩ | ⟨hb, hnext⟩
  · rw [hnone]
    exact runSends_nil hs (by rw [hd, State.params, hbuild]) hb hdone
  · rw [hnext]
    exact runSends_cons hs (hkept.trans hbuild) hb (ht hb hnext)

/-- An undisturbed transmission sends all its levels to come. -/
theorem Undisturbed.runSends {s : State} (h : Undisturbed s) : RunSends (lineFuture s) s := by
  obtain ⟨t, hs, hsends⟩ := h.transmits.step_sendsNext h.quiet_nextInput
  refine hsends.runSends hs rfl fun hb hnext => ?_
  have hlater : ∀ i ∈ (takeInput s).inbox, quietInput (takeInput s) i :=
    fun i hi => h.quiet i (List.mem_of_mem_tail hi)
  have hshorter : (lineFuture t).length < (lineFuture s).length := by
    change lineFuture s = _ at hnext
    rw [hnext]
    exact Nat.lt_succ_self _
  exact (hsends.undisturbed h.transmits.no_hang hlater (stepKeepsInv s t h.transmits.inv hs) hb).runSends
termination_by (lineFuture s).length

/-! ### The waveform -/

/-- A symbol of two durations that fit their fields has the levels of its halves, one after the other (R89). -/
theorem symLevels_mkSymbol (l0 l1 : Bool) {d0 d1 : Nat} (h0 : d0 < 2 ^ 15) (h1 : d1 < 2 ^ 15) :
    symLevels (mkSymbol l0 d0 l1 d1) = List.replicate d0 l0 ++ List.replicate d1 l1 := by
  rw [symLevels, symLevel0_mkSymbol, symLevel1_mkSymbol, symDuration0_mkSymbol _ _ h0, symDuration1_mkSymbol _ _ h1]

/-- A bit's symbol has the levels of R199. -/
theorem symLevels_bitSym {p : Params} (hp : p.Legal) (byte : Byte) (q : Nat) :
    symLevels (bitSym p byte q) = bitLevels p (byte.getLsbD (7 - q % 8)) := by
  obtain ⟨⟨-, h0h⟩, ⟨-, h0l⟩, ⟨-, h1h⟩, ⟨-, h1l⟩, -⟩ := hp
  rw [bitSym, bitLevels]
  cases byte.getLsbD (7 - q % 8) with
  | true =>
    simp only [if_true, bit1Sym]
    exact symLevels_mkSymbol true false (by omega) (by omega)
  | false =>
    simp only [Bool.false_eq_true, if_false, bit0Sym]
    exact symLevels_mkSymbol true false (by omega) (by omega)

/-- The reset symbol is low for `RESET_TICKS` (R153). -/
theorem symLevels_resetSym {p : Params} (hp : p.Legal) :
    symLevels (resetSym p) = List.replicate p.resetTicks false := by
  obtain ⟨-, -, -, -, ⟨-, hreset⟩, -⟩ := hp
  rw [resetSym, symLevels_mkSymbol _ _ (by omega) (by omega), List.replicate_append_replicate,
    Nat.add_sub_cancel' (Nat.div_le_self ..)]

/-- The levels of the stream of R168 are the waveform of R199. -/
theorem flatMap_wholeStream (s : State) : (wholeStream s).flatMap symLevels = waveform s := by
  have hbit : ∀ q, symLevels (sourceSym s q) = bitLevels s.params (sourceBit s q) :=
    fun q => symLevels_bitSym s.params_legal _ q
  rw [wholeStream, waveform, List.flatMap_append, List.flatMap_map, List.flatMap_singleton,
    symLevels_resetSym s.params_legal]
  simp only [hbit]

/-- A transmission that starts has the waveform of its buffer to send. -/
theorem Inv.lineFuture_startTransmission {s : State} (h : Inv s) (hb : s.pBusy = false) :
    lineFuture (startTransmission s) = waveform s := by
  obtain ⟨hq, hl⟩ := h.idle_line hb
  have hheld : heldLevels (startTransmission s) = [] := by simp [heldLevels, hl]
  have hpending : pendingStream (startTransmission s) = wholeStream s := by
    rw [pendingStream_unfinished rfl rfl]
    exact streamLeft_initial (h.idle_initial hb)
  rw [lineFuture, hheld, startTransmission_fQ, hq, hpending, List.nil_append, List.nil_append, flatMap_wholeStream]

section
variable {s : State} (h : Inv s) (hl : s.pLc = .ready) (hb : s.pBusy = false)
  (hd : s.pBase.toNat + s.pLen.toNat ≤ s.params.memBytes)
include h hl hb hd

/-- A safe idle encoder with its buffer in DATA accepts `PENC.SUBMIT` (R159). -/
theorem Inv.exec_pencSubmit : exec .pencSubmit s = .next (startTransmission s) := by
  obtain ⟨-, hexec⟩ := pencSubmitStartsATransmission
  obtain ⟨-, -, -, -, haccepted⟩ := hexec s
  exact haccepted hl hb (encoderInitial_iff.1 (h.idle_initial hb)) hd

theorem Inv.transmits_startTransmission (hp : s.params.phyHang = false) : Transmits (startTransmission s) :=
  ⟨h.after_startTransmission (by simp [hl]) (h.idle_initial hb) hd, rfl, hp, h.raced_busy hb⟩

end

/-- Settles O46: the edge that accepts `PENC.SUBMIT` starts the transmission and sends its first level, and the later
edges send the others (`Undisturbed.runSends`). -/
theorem submitSendsTheWaveform : Obligations.SubmitSendsTheWaveform := by
  intro s h hl hb hp hd hin hquiet
  have hinput : Inv (takeInput s) := Inv.after_takeInput h
  have hstart : Transmits (startTransmission (takeInput s)) := hinput.transmits_startTransmission hl hb hd hp
  have hcmd : cmdStage (some 0x15000000) (takeInput s) = .next (startTransmission (takeInput s)) :=
    (cmdStage_of_decode (i := .pencSubmit) rfl _).trans (hinput.exec_pencSubmit hl hb hd)
  obtain ⟨t, hfinish, hsends⟩ := hstart.finishEdge_sendsNext (i := nextInput s) (by rw [hin]; nofun)
  have hs : step s = .next t := calc
    step s = andThen (cmdStage (some 0x15000000) (takeInput s)) (finishEdge (nextInput s)) := by
      rw [step_no_reset (by rw [hin]), hin]
      rfl
    _ = .next t := by rw [hcmd, andThen_next, hfinish]
  have hwave : lineFuture (startTransmission (takeInput s)) = waveform s := hinput.lineFuture_startTransmission hb
  rw [← hwave]
  exact hsends.runSends hs rfl fun hbusy _ => (hsends.undisturbed hp hquiet (stepKeepsInv s t h hs) hbusy).runSends

end Sys2Proof.Machine
end

section
/-! PROOFS. The interrupt line (spec/60_exceptions.md rules R220 and R221). -/

namespace Sys2Proof.Machine

theorem irq_iff (s : State) :
    irq s = true ↔ (s.ieDone = true ∧ s.pDone = true) ∨ (s.ieErr = true ∧ s.err ≠ 0) := by
  simp [irq]

/-- Settles O58: the three commands have no check, and `irq` reads their effects. -/
theorem irqFollowsTheState : Obligations.IrqFollowsTheState := by
  intro s rdAddr mapIn
  refine ⟨irq_iff s, fun ied iee => ⟨_, exec_of_no_error rfl, irq_iff _⟩, ⟨_, exec_of_no_error rfl, ?clrdone⟩,
    ⟨_, exec_of_no_error rfl, ?clrerr⟩⟩
  case clrdone =>
    simp only [irq, commandEffect, Bool.and_false, Bool.false_or]
    rfl
  case clrerr => simp [irq, commandEffect]

end Sys2Proof.Machine
end

section
/-! PROOFS. The edge of a failing command (spec/60_exceptions.md rule R217): recording an error commutes with what
follows the command stage, but where the line stage records `IO_FAILURE` over it. -/

namespace Sys2Proof.Machine

/-! ### The host's writes and the engine stage -/

theorem hostWrite_raiseErr (e : ErrCode) (s : State) (w : HostWrite) :
    hostWrite (raiseErr e s) w = raiseErr e (hostWrite s w) := by
  simp only [hostWrite, apply_ite (raiseErr e)]
  rfl

theorem hostWrites_raiseErr (ws : List HostWrite) (e : ErrCode) (s : State) :
    hostWrites ws (raiseErr e s) = raiseErr e (hostWrites ws s) := by
  induction ws generalizing s with
  | nil => rfl
  | cons w ws ih =>
    calc hostWrites ws (hostWrite (raiseErr e s) w)
      _ = hostWrites ws (raiseErr e (hostWrite s w)) := by rw [hostWrite_raiseErr]
      _ = raiseErr e (hostWrites ws (hostWrite s w)) := ih _

/-- What an encoder operation gives, with an error recorded in its state. -/
def Encoded.recordErr (e : ErrCode) (r : Encoded) : Encoded := { r with state := raiseErr e r.state }

theorem bitsLoop_raiseErr (e : ErrCode) (s : State) (n : Nat) (fresh : Bool) (q : Nat) (byte : Byte) (g : ReadLog) :
    bitsLoop (raiseErr e s) n fresh q byte g = bitsLoop s n fresh q byte g := by
  induction n generalizing fresh q byte g with
  | zero => rfl
  | succ n ih =>
    simp only [bitsLoop, ih]
    rfl

theorem bytesStep_raiseErr (e : ErrCode) (h : Nat) (s : State) :
    bytesStep h (raiseErr e s) = (bytesStep h s).map (Encoded.recordErr e) := by
  have hpos : bitPos (raiseErr e s) = bitPos s := rfl
  simp only [bytesStep, bitsLoop_raiseErr, hpos, raiseErr_pLen, raiseErr_draws, raiseErr_memReads]
  split <;> rfl

theorem encodeReset_raiseErr (e : ErrCode) (out : List Symbol) (h : Nat) (s : State) :
    encodeReset out h (raiseErr e s) = (encodeReset out h s).recordErr e := by
  simp only [encodeReset, Encoded.recordErr, apply_ite (raiseErr e)]
  rfl

theorem invokeEncode_raiseErr (e : ErrCode) (h : Nat) (s : State) :
    invokeEncode h (raiseErr e s) = (invokeEncode h s).map (Encoded.recordErr e) := by
  cases hst : s.pSt with
  | sendReset =>
    rw [invokeEncode_sendReset hst, invokeEncode_sendReset (s := raiseErr e s) hst, encodeReset_raiseErr,
      Option.map_some]
  | sendData =>
    simp only [invokeEncode, raiseErr_pSt, hst, bytesStep_raiseErr]
    cases bytesStep h s with
    | none => rfl
    | some b =>
      have hnext : (if b.complete then { raiseErr e b.state with pSt := .sendReset } else raiseErr e b.state) =
          raiseErr e (if b.complete then { b.state with pSt := .sendReset } else b.state) := by
        rw [apply_ite (raiseErr e)]
        rfl
      simp only [Option.map_some, Encoded.recordErr, hnext, encodeReset_raiseErr]
      split <;> rfl

/-- The engine stage neither reads nor writes `ERR` (R171). -/
theorem engineStage_raiseErr {s t : State} (h : engineStage s = .next t) (e : ErrCode) :
    engineStage (raiseErr e s) = .next (raiseErr e t) := by
  obtain ⟨-, htakes, -⟩ := engineStageTakesOneInvocation
  rcases engineStage_cases s with ⟨hno, hs⟩ | ⟨hb, hx, hroom, ⟨r, hr, -⟩ | ⟨-, hs⟩⟩
  · cases hs.symm.trans h
    rcases engineStage_cases (raiseErr e s) with ⟨-, he⟩ | ⟨hb, hx, hroom, -⟩
    · exact he
    · exact absurd ⟨hb, hx, hroom⟩ hno
  · cases (htakes s r hb hx hroom hr).symm.trans h
    have hr' : invokeEncode (s.params.symCap - s.fQ.length) { raiseErr e s with memReads := [] } =
        some (r.recordErr e) := calc
      _ = (invokeEncode _ { s with memReads := [] }).map (Encoded.recordErr e) := invokeEncode_raiseErr ..
      _ = some (r.recordErr e) := by rw [hr, Option.map_some]
    exact htakes (raiseErr e s) (r.recordErr e) hb hx hroom hr'
  · exact nomatch hs.symm.trans h

/-! ### The line stage -/

theorem lineDrive_raiseErr (e : ErrCode) (s : State) : lineDrive (raiseErr e s) = raiseErr e (lineDrive s) := by
  simp only [lineDrive, apply_ite (raiseErr e)]
  rfl

/-- `t` is `s` with the error `e` recorded in it, or with `IO_FAILURE` recorded over `e`. -/
def KeepsErr (e : ErrCode) (s t : State) : Prop := ∃ f, (f = e ∨ f = .ioFailure) ∧ t = raiseErr f s

section
variable {e : ErrCode} {s t u v : State}

theorem KeepsErr.kept (h : t = raiseErr e s) : KeepsErr e s t := ⟨e, .inl rfl, h⟩

theorem KeepsErr.ite {c : Prop} [Decidable c] (h : KeepsErr e s t) (h' : KeepsErr e u v) :
    KeepsErr e (if c then s else u) (if c then t else v) := by
  split
  · exact h
  · exact h'

end

/-- A line with nothing to send keeps the error but on an underrun (R196). -/
theorem lineIdle_raiseErr (e : ErrCode) (s : State) : KeepsErr e (lineIdle s) (lineIdle (raiseErr e s)) := by
  have hunderrun : KeepsErr e
      { raiseErr .ioFailure s with gDout := s.params.idleLevel, pBusy := false, raced := [] }
      { raiseErr .ioFailure s with gDout := s.params.idleLevel, pBusy := false, raced := [] } :=
    ⟨.ioFailure, .inr rfl, rfl⟩
  exact .ite (.kept rfl) (.ite hunderrun (.kept rfl))

theorem lineTick_raiseErr (e : ErrCode) (s : State) : KeepsErr e (lineTick s) (lineTick (raiseErr e s)) := by
  unfold lineTick
  refine .ite (.kept (lineDrive_raiseErr e s)) ?_
  rw [raiseErr_fQ]
  cases s.fQ with
  | cons x rest => exact .kept (lineDrive_raiseErr e (lineLoad x rest s))
  | nil => exact lineIdle_raiseErr e s

theorem lineStage_raiseErr (e : ErrCode) (s : State) : KeepsErr e (lineStage s) (lineStage (raiseErr e s)) := by
  unfold lineStage
  exact .ite (.kept rfl)
    (.ite (.ite (.kept rfl) (lineTick_raiseErr e { s with draws := s.draws + 1 })) (lineTick_raiseErr e s))

/-! ### The edge -/

/-- The rest of an edge after a command that recorded an error, from the rest of it without the error. -/
theorem finishEdge_raiseErr {i : EdgeInput} {s t : State} (h : finishEdge i s = .next t) (e : ErrCode) :
    ∃ t', finishEdge i (raiseErr e s) = .next t' ∧ KeepsErr e t t' := by
  obtain ⟨u, hu, ht⟩ := andThen_eq_next.1 h
  cases ht
  refine ⟨lineStage (raiseErr e u), ?_, lineStage_raiseErr e u⟩
  rw [finishEdge, hostWrites_raiseErr, engineStage_raiseErr hu, andThen_next]

/-- An edge with `GLB.NOP` on its command port goes on from the host's writes before it (R105). -/
theorem step_glbNop {s : State} (hr : (nextInput s).rst = false) (hv : (nextInput s).cmdValid = true) :
    step { s with inbox := { nextInput s with cmdData := 0 } :: s.inbox.tail } =
      finishEdge (nextInput s) (hostWrites (nextInput s).writesBefore (takeInput s)) := by
  have hnop : cmdStage (some 0) (hostWrites (nextInput s).writesBefore (takeInput s)) =
      .next (hostWrites (nextInput s).writesBefore (takeInput s)) := cmdStage_of_decode (i := .glbNop) rfl _
  rw [step_no_reset (by exact hr), acceptedWord_valid (by exact hv)]
  exact congrArg (andThen · (finishEdge (nextInput s))) hnop

/-- Settles O52: the failing command records its error and does nothing else, `GLB.NOP` does nothing, and the rest of
the two edges differs by that error; the invariant leaves no room for the code 6. -/
theorem failingCommandDisturbsNothing : Obligations.FailingCommandDisturbsNothing := by
  intro s t e hr hv he hnop
  rw [step_glbNop hr hv] at hnop
  obtain ⟨_, hfail, f, hf, rfl⟩ := finishEdge_raiseErr hnop e
  have hs : step s = .next (raiseErr f t) := by
    rw [step_no_reset hr, acceptedWord_valid hv, cmdStage_of_wordError he, andThen_next, hfail]
  refine ⟨errNumber f, hs, hf.imp (congrArg errNumber) (congrArg errNumber), fun h => ?_⟩
  have hle : (errNumber f).toNat ≤ 5 := (stepKeepsInv s _ h hs).err_code
  rcases hf with rfl | rfl
  · rfl
  · exact absurd hle (by decide)

end Sys2Proof.Machine
end

section
/-! PROOFS. Reset (spec/70_reset_and_hazards.md rules R240 to R244), the parameters that no step changes (R257), and
the transmission that no command stops (R253, R256). -/

namespace Sys2Proof.Machine

/-! ### The reset edge -/

/-- Taking the input of an edge does not disturb the host's writes: they do not look at the input still to come. -/
theorem hostWrites_takeInput (ws : List HostWrite) (s : State) :
    hostWrites ws (takeInput s) = takeInput (hostWrites ws s) := by
  have hwrite : ∀ (u : State) (w : HostWrite), hostWrite (takeInput u) w = takeInput (hostWrite u w) := by
    intro u w
    simp only [hostWrite, apply_ite takeInput]
    rfl
  exact List.foldl_hom takeInput hwrite

/-- A step with `rst` gives the reset state around the parameters, DATA with the host's writes of the edge, the input
still to come and the count of draws (R240, R243). -/
theorem step_resetWith {s : State} (hr : (nextInput s).rst = true) :
    step s = .next (State.resetWith s.build
      (hostWrites ((nextInput s).writesBefore ++ (nextInput s).writesAt) s).mem s.inbox.tail s.draws) := by
  rw [step_reset hr, resetEdge, ← hostWrites_append, hostWrites_takeInput, hostWrites_eq]
  rfl

/-- Settles O9: `step_resetWith` on the state, on the state with another command input, and on the state after it. -/
theorem resetEdgeRestoresEveryVariable : Obligations.ResetEdgeRestoresEveryVariable := by
  intro s hr
  refine ⟨_, step_resetWith hr, rfl, rfl, rfl, rfl, rfl, fun _ => rfl, fun v w => ?command, fun hin => ?held⟩
  case command =>
    have hsame : step { s with inbox := { nextInput s with cmdValid := v, cmdData := w } :: s.inbox.tail } = step s :=
      (step_reset (by exact hr)).trans (step_reset hr).symm
    exact hsame.trans (step_resetWith hr)
  case held =>
    rw [step_resetWith (by rw [hin]), hin]
    rfl

/-! ### The parameters -/

/-- No part of an edge writes the parameters (R257). -/
theorem step_build {s t : State} (h : step s = .next t) : t.build = s.build := by
  rcases step_cases h with ⟨hr, -⟩ | ⟨-, u, v, hu, hv, rfl⟩
  · cases (step_resetWith hr).symm.trans h
    rfl
  · obtain ⟨-, -, hbuild⟩ := frame_before_lineStage hu hv
    rw [(lineStage_frame v).1]
    exact hbuild

/-- Settles O25: `step_build`, and R45's registers read the parameters alone. -/
theorem parametersAreFixed : Obligations.ParametersAreFixed := by
  intro s t h
  have hbuild := step_build h
  have hparams : t.params = s.params := congrArg Subtype.val hbuild
  refine ⟨hbuild, ?_, ?_, ?_, ?_⟩ <;> apply BitVec.eq_of_toNat_eq
  · rw [readPort_timing0, readPort_timing0, hparams]
  · rw [readPort_timing1, readPort_timing1, hparams]
  · rw [readPort_resett, readPort_resett, hparams]
  · rw [readPort_config, readPort_config, hparams]

/-! ### The transmission in flight -/

section
variable {i : Instr} {s t : State} (hb : s.pBusy = true) (hl : s.pLc = .ready)
include hb hl

/-- In a transmission the commands that would touch the encoder or its buffer fail, `PENC.CREATE` changes nothing, and
no other command writes what the transmission depends on (R215, R253). -/
theorem exec_in_flight (h : exec i s = .next t) : t = { s with
    err := t.err, ieDone := t.ieDone, ieErr := t.ieErr, tNStrips := t.tNStrips, tStrip := t.tStrip
    tTotal := t.tTotal, tSealed := t.tSealed, tResult := t.tResult, pDone := t.pDone } := by
  rcases exec_cases h with ⟨e, -, rfl⟩ | ⟨hn, rfl⟩
  · rfl
  · cases i with
    | pencDispose | pencReset | pencSetbase | pencSetlen | pencSubmit => simp [commandError, hl, hb] at hn
    | pencCreate => rw [commandEffect, if_pos hl]
    | _ => rfl

/-- In a transmission the commands that would end or restart it are refused (R155, R156, R159). -/
theorem exec_in_flight_refused (hi : i = .pencDispose ∨ i = .pencReset ∨ i = .pencSubmit) :
    exec i s = .next { s with err := 5 } := by
  rcases hi with rfl | rfl | rfl
  · exact exec_of_error (e := .invalidState) (by simp [commandError, hl, hb])
  · exact exec_refused_without_idleEncoder rfl (.inr hb)
  · exact exec_refused_without_idleEncoder rfl (.inr hb)

end

/-- Settles O51: the commands by `exec_in_flight` and `exec_in_flight_refused`; a transmission that a step ends has
finished (`finishedTransmissionCounts8nPlus1`). -/
theorem noCommandStopsATransmission : Obligations.NoCommandStopsATransmission := by
  refine ⟨fun i s t hb hl h => ⟨exec_in_flight hb hl h, fun hi => ?refused⟩, fun s t hinv hb hr h => ?step⟩
  case refused =>
    cases h.symm.trans (exec_in_flight_refused hb hl hi)
    rfl
  case step =>
    cases ht : t.pBusy with
    | true => exact .inl rfl
    | false => exact .inr (finishedTransmissionCounts8nPlus1 s t hinv hb hr h ht).1

end Sys2Proof.Machine
end
